-- ==== Sys2Proof/Word.lean ====
section
/-!
DEFINITION. The fixed-width unsigned values of the hardware (spec/00_scope.md R6, R7): every
quantity that the spec numbers bit by bit is a `BitVec` of the width R6 gives it, read as an
unsigned integer. There is no signed value anywhere (R7).
-/

namespace Sys2Proof

/-- A command word, `CMD_W` = 16 bits (R6, R90). -/
abbrev Word := BitVec 16

/-- A symbol, `SYM_W` = 8 bits, 0 to 255 (R6). -/
abbrev Sym := BitVec 8

/-- A frequency counter, `FREQ_W` = 32 bits (R6, R22). -/
abbrev Count := BitVec 32

/-- A node weight, `W_W` = 40 bits (R6, R24). -/
abbrev Weight := BitVec 40

/-- A node index, `NIDX_W` = 9 bits (R6, R62). -/
abbrev NodeIx := BitVec 9

/-- The `data` field of a response, 40 bits (R100). -/
abbrev Data := BitVec 40

/-- A response word, `RSP_W` = 44 bits (R6, R100). -/
abbrev RspWord := BitVec 44

/-- A beat on BITOUT, `BITBEAT_W` = 2 bits (R6, R103). -/
abbrev BitWord := BitVec 2

/-- A beat on SYMOUT, `SYMBEAT_W` = 10 bits (R6, R104). -/
abbrev SymWord := BitVec 10

end Sys2Proof
end

