-- ==== Sys2Proof/Config.lean ====
section
/-!
DEFINITION. What an implementation fixes. The spec leaves one parameter open, `FREQ_W`, the width
of a frequency counter (spec/00_scope.md R6: 1 to 32, default 32; 93_implementation_defined.md U14).
Every other parameter of R6 is fixed by the encodings and stands in the types of Word.lean.
There is no free value in this model: the spec leaves no result of any command open.
-/

namespace Sys2Proof

/-- `FREQ_W` of the machine `exec` and `step` run: the default of R6.
DESIGN CHOICE (log entry 6): the counting operation `Machine.countOne` takes the width as an
argument and this is the one it is given. -/
def Config.freqW : Nat := 32

/-- The greatest value a counter of width `w` can hold, `2^w - 1` (R120, R122), for `w` from 1 to 32. -/
def Config.freqMax (w : Nat) : Count := BitVec.ofNat 32 (2 ^ w - 1)

end Sys2Proof
end

