-- ==== Sys2Proof/Syntax.lean ====
section
/-!
DEFINITION. The vocabulary of the four channels (spec/30_encoding.md): the fourteen commands, the
error kinds and status codes of a response, and the beats of the two output channels. Bit layouts
stand in Decode.lean.
-/

namespace Sys2Proof

/-- The fourteen commands, one constructor per row of spec/opcode_table.json (R91), each with the
operand R92 gives it. -/
inductive Instr where
  /-- `CLR` (R210) -/
  | clr
  /-- `CNT s` (R120) -/
  | cnt (y : Sym)
  /-- `BLD` (R130) -/
  | bld
  /-- `GEN` (R160) -/
  | gen
  /-- `ENC s` (R175) -/
  | enc (y : Sym)
  /-- `ENCEND` (R176) -/
  | encend
  /-- `DEC b` (R190) -/
  | dec (b : Bool)
  /-- `DECEND` (R191) -/
  | decend
  /-- `FAIL k` (R211): `false` is k = 0 (source), `true` is k = 1 (sink) -/
  | fail (k : Bool)
  /-- `RDS` (R212) -/
  | rds
  /-- `RDF s` (R213) -/
  | rdf (y : Sym)
  /-- `RDL s` (R214) -/
  | rdl (y : Sym)
  /-- `RDNW i` (R215) -/
  | rdnw (i : NodeIx)
  /-- `RDNL i` (R216) -/
  | rdnl (i : NodeIx)
  deriving DecidableEq, Repr

/-- The three fields of the one command format `CMD16` (R90). -/
structure Fields where
  /-- bits 15:12, the major opcode -/
  opc : BitVec 4
  /-- bits 11:9, the function within the opcode -/
  fn : BitVec 3
  /-- bits 8:0, the operand -/
  arg : BitVec 9
  deriving DecidableEq, Repr

/-- Why a word decodes to no command: the six items of R94, in its order. -/
inductive Reject where
  /-- item 1: `opc` = 0x0, or 0xB to 0xF -/
  | opcodeUnassigned
  /-- item 2: `opc` = 0x1 to 0x9 with `fn` ≠ 0 -/
  | functionNotZero
  /-- item 3: `opc` = 0xA with `fn` = 5, 6 or 7 -/
  | functionUnassigned
  /-- item 4: a command with no operand, with `arg` ≠ 0 -/
  | operandNotZero
  /-- item 5: a command with a symbol operand, with `W[8]` = 1 -/
  | symbolTooWide
  /-- item 6: `DEC` or `FAIL` with any of `W[8:1]` set -/
  | bitTooWide
  deriving DecidableEq, Repr

/-- The eight error kinds, in the order of their codes 1 to 8 (R240). -/
inductive ErrorKind where
  | sourceUnavailable
  | sinkUnavailable
  | emptyAlphabet
  | unknownSymbol
  | malformedStream
  | illegalCommand
  | badPhase
  | countOverflow
  deriving DecidableEq, Repr

/-- The status of a response (R101): OK, one of the error kinds, or FAULTED. -/
inductive Status where
  | ok
  | error (e : ErrorKind)
  | faulted
  deriving DecidableEq, Repr

/-- A response (R100). -/
structure Response where
  st : Status
  data : Data
  deriving DecidableEq, Repr

/-- A beat on BITOUT (R103). -/
inductive BitBeat where
  | bit (b : Bool)
  | close
  | abort
  deriving DecidableEq, Repr

/-- A beat on SYMOUT (R104). `finish` is the spec's `END`. -/
inductive SymBeat where
  | sym (y : Sym)
  | finish
  | abort
  deriving DecidableEq, Repr

end Sys2Proof
end

