-- ==== Sys2Proof/WellFormed.lean ====
section
/-!
DEFINITION. Which fields make a legal command word, written from the list of illegal words
(spec/30_encoding.md R94) alone, without the match and mask columns of R91. That the two descriptions
agree is an obligation. An `Instr` carries operands of exactly the range R92 gives them, so every
`Instr` is well formed; what can be ill formed is a word's fields.
-/

namespace Sys2Proof

/-- The first item of R94 that makes these fields illegal, if any does. -/
def Fields.violation (f : Fields) : Option Reject :=
  if f.opc = 0x0 ∨ 0xB ≤ f.opc then some .opcodeUnassigned
  else if f.opc ≠ 0xA ∧ f.fn ≠ 0 then some .functionNotZero
  else if f.opc = 0xA ∧ 5 ≤ f.fn then some .functionUnassigned
  else if (f.opc = 0x1 ∨ f.opc = 0x3 ∨ f.opc = 0x4 ∨ f.opc = 0x6 ∨ f.opc = 0x8
      ∨ (f.opc = 0xA ∧ f.fn = 0)) ∧ f.arg ≠ 0 then some .operandNotZero
  else if (f.opc = 0x2 ∨ f.opc = 0x5 ∨ (f.opc = 0xA ∧ (f.fn = 1 ∨ f.fn = 2))) ∧ 256 ≤ f.arg then
    some .symbolTooWide
  else if (f.opc = 0x7 ∨ f.opc = 0x9) ∧ 2 ≤ f.arg then some .bitTooWide
  else none

/-- The fields of a legal command word (R94). -/
def Fields.wellFormed (f : Fields) : Bool := f.violation.isNone

end Sys2Proof
end

