-- ==== Sys2Proof/Decode.lean ====
section
/-!
DEFINITION. The decoder of command words, the encoder after it, and the layouts of responses and
beats (spec/30_encoding.md R90 to R95, R100 to R104). Everything is a whole word: nothing is split
into bytes (R64), and every command is one word (R95).
-/

namespace Sys2Proof

/-! ## The decoder -/

/-- The fields of a word (R90). -/
def Fields.ofWord (w : Word) : Fields :=
  { opc := w.extractLsb' 12 4, fn := w.extractLsb' 9 3, arg := w.extractLsb' 0 9 }

/-- The symbol operand `W[7:0]` (R92). -/
def symOperand (w : Word) : Sym := w.extractLsb' 0 8

/-- The one-bit operand `W[0]` (R92). -/
def bitOperand (w : Word) : Bool := w.getLsbD 0

/-- The node-index operand `W[8:0]` (R92). -/
def ixOperand (w : Word) : NodeIx := w.extractLsb' 0 9

/-- One row of the opcode map (R91): a word selects the row when `(W AND mask) = match`. -/
structure OpRow where
  mnemonic : String
  mtch : Word
  mask : Word
  build : Word → Instr

/-- The opcode map, row by row as R91 lists it. -/
def opcodeMap : List OpRow :=
  [ ⟨"CLR",    0x1000, 0xFFFF, fun _ => .clr⟩,
    ⟨"CNT",    0x2000, 0xFF00, fun w => .cnt (symOperand w)⟩,
    ⟨"BLD",    0x3000, 0xFFFF, fun _ => .bld⟩,
    ⟨"GEN",    0x4000, 0xFFFF, fun _ => .gen⟩,
    ⟨"ENC",    0x5000, 0xFF00, fun w => .enc (symOperand w)⟩,
    ⟨"ENCEND", 0x6000, 0xFFFF, fun _ => .encend⟩,
    ⟨"DEC",    0x7000, 0xFFFE, fun w => .dec (bitOperand w)⟩ ] ++
  [ ⟨"DECEND", 0x8000, 0xFFFF, fun _ => .decend⟩,
    ⟨"FAIL",   0x9000, 0xFFFE, fun w => .fail (bitOperand w)⟩,
    ⟨"RDS",    0xA000, 0xFFFF, fun _ => .rds⟩,
    ⟨"RDF",    0xA200, 0xFF00, fun w => .rdf (symOperand w)⟩,
    ⟨"RDL",    0xA400, 0xFF00, fun w => .rdl (symOperand w)⟩,
    ⟨"RDNW",   0xA600, 0xFE00, fun w => .rdnw (ixOperand w)⟩,
    ⟨"RDNL",   0xA800, 0xFE00, fun w => .rdnl (ixOperand w)⟩ ]

/-- Whether a word selects a row (R91). -/
def OpRow.selects (r : OpRow) (w : Word) : Bool := w &&& r.mask == r.mtch

/-- The decode function (R93): total, reads no state. A word that no row selects is ILLEGAL, and is
rejected under the name of the item of R94 that rules it out. -/
def decode (w : Word) : Except Reject Instr :=
  match opcodeMap.find? (·.selects w) with
  | some r => .ok (r.build w)
  | none => .error ((Fields.ofWord w).violation.getD .opcodeUnassigned)

/-! ## The encoder -/

/-- The bit `b` as an `arg` field `{8'b0, b}` (R91). -/
def bitArg (b : Bool) : BitVec 9 := (BitVec.ofBool b).setWidth 9

/-- A symbol as an `arg` field `{0, s[7:0]}` (R91). -/
def symArg (y : Sym) : BitVec 9 := y.setWidth 9

/-- The `opc`, `fn` and `arg` columns of R91. -/
def Fields.ofInstr : Instr → Fields
  | .clr => ⟨0x1, 0, 0⟩
  | .cnt y => ⟨0x2, 0, symArg y⟩
  | .bld => ⟨0x3, 0, 0⟩
  | .gen => ⟨0x4, 0, 0⟩
  | .enc y => ⟨0x5, 0, symArg y⟩
  | .encend => ⟨0x6, 0, 0⟩
  | .dec b => ⟨0x7, 0, bitArg b⟩
  | .decend => ⟨0x8, 0, 0⟩
  | .fail k => ⟨0x9, 0, bitArg k⟩
  | .rds => ⟨0xA, 0, 0⟩
  | .rdf y => ⟨0xA, 1, symArg y⟩
  | .rdl y => ⟨0xA, 2, symArg y⟩
  | .rdnw i => ⟨0xA, 3, i⟩
  | .rdnl i => ⟨0xA, 4, i⟩

/-- The word of a set of fields, `{opc, fn, arg}` (R90). -/
def Fields.word (f : Fields) : Word := f.opc ++ f.fn ++ f.arg

/-- The word of a command (R91). -/
def encode (i : Instr) : Word := (Fields.ofInstr i).word

/-- The instruction the decoder reads from an opcode-table word of `nbits` bits (every row of
spec/opcode_table.json has 16); the bits above `nbits` are 0. -/
def decodeTableWord (nbits w : Nat) : Option Instr :=
  match decode (BitVec.ofNat 16 (w % 2 ^ nbits)) with
  | .ok i => some i
  | .error _ => none

/-! ## Responses -/

/-- The code of an error kind (R240), as stored in ERR and sent as a status. -/
def ErrorKind.code : ErrorKind → BitVec 4
  | .sourceUnavailable => 1
  | .sinkUnavailable => 2
  | .emptyAlphabet => 3
  | .unknownSymbol => 4
  | .malformedStream => 5
  | .illegalCommand => 6
  | .badPhase => 7
  | .countOverflow => 8

/-- The status codes (R101). -/
def Status.code : Status → BitVec 4
  | .ok => 0
  | .error e => e.code
  | .faulted => 15

/-- The 44-bit response word `{st[3:0], data[39:0]}` (R100). -/
def Response.word (q : Response) : RspWord := q.st.code ++ q.data

/-- The error kind of a code (R240): codes 1 to 8. -/
def ErrorKind.ofCode (c : BitVec 4) : Option ErrorKind :=
  if c = 1 then some .sourceUnavailable
  else if c = 2 then some .sinkUnavailable
  else if c = 3 then some .emptyAlphabet
  else if c = 4 then some .unknownSymbol
  else if c = 5 then some .malformedStream
  else if c = 6 then some .illegalCommand
  else if c = 7 then some .badPhase
  else if c = 8 then some .countOverflow
  else none

/-- How the host reads a status code (R101); 9 to 14 are never produced. -/
def Status.ofCode (c : BitVec 4) : Option Status :=
  if c = 0 then some .ok
  else if c = 15 then some .faulted
  else (ErrorKind.ofCode c).map .error

/-- How the host reads a response word (R100). -/
def Response.ofWord (w : RspWord) : Option Response :=
  (Status.ofCode (w.extractLsb' 40 4)).map fun st => { st := st, data := w.extractLsb' 0 40 }

/-! ## Beats -/

/-- The 2-bit beats of BITOUT (R103). -/
def BitBeat.word : BitBeat → BitWord
  | .bit b => (BitVec.ofBool b).setWidth 2
  | .close => 2
  | .abort => 3

/-- How the sink reads a BITOUT beat (R103): every 2-bit value is a beat. -/
def BitBeat.ofWord (w : BitWord) : BitBeat :=
  if w.getLsbD 1 then (if w.getLsbD 0 then .abort else .close) else .bit (w.getLsbD 0)

/-- The 10-bit beats of SYMOUT (R104). -/
def SymBeat.word : SymBeat → SymWord
  | .sym y => y.setWidth 10
  | .finish => 0x200
  | .abort => 0x300

/-- How the consumer reads a SYMOUT beat (R104): the values 0x100 to 0x1FF and the markers with
`Y[7:0]` ≠ 0 are never produced. -/
def SymBeat.ofWord (w : SymWord) : Option SymBeat :=
  if w < 0x100 then some (.sym (w.extractLsb' 0 8))
  else if w = 0x200 then some .finish
  else if w = 0x300 then some .abort
  else none

end Sys2Proof
end

