-- ==== Sys2Proof/Machine/State.lean ====
section
/-!
DEFINITION. The state of one HTB instance as plain data (spec/10_state.md R20 to R40), the reasons a
step can stop, and the state after reset (R39). The engine's tables and registers come first, the four
channels (spec/20_memory.md R61) after them. There is no program counter (R21), no register file (R20)
and no byte-addressed memory (R63).
-/

namespace Sys2Proof.Machine

/-- PHASE (R30). The value 3 is not a legal value and is not a value of this type. -/
inductive Phase where
  | count
  | tree
  | ready
  deriving DecidableEq, Repr

/-- A node record (R24), a sum of the two kinds, so that a leaf has no children and an internal node
no symbol. -/
inductive Node where
  | leaf (sym : Sym) (weight : Weight)
  | internal (weight : Weight) (left right : NodeIx)
  deriving DecidableEq, Repr

/-- A code record (R26). `bits` is in emission order. The field `len` is the number of these bits and
is computed from them (`codeLen`, log entry 5). -/
structure CodeRec where
  bits : List Bool
  deriving DecidableEq, Repr

/-- A member of the priority queue inside `BLD` (R35, R132): a node index and the weight of that node,
the two parts of its key (R12). It is no part of `State`. -/
structure PqEntry where
  weight : Weight
  index : NodeIx
  deriving DecidableEq, Repr

/-- The state of one instance. -/
@[ext]
structure State where
  /-- FREQ, 256 counters indexed by symbol (R22) -/
  freq : Vector Count 256
  /-- NODE: its valid entries, NODE[0] first (R23). An index at or past the end names an entry that is
  not valid and that holds nothing (R40). -/
  nodes : List Node
  /-- CODE, 256 code records indexed by symbol (R25) -/
  code : Vector CodeRec 256
  /-- PHASE (R30) -/
  phase : Phase
  /-- ERR (R31): `none` is 0, not in fault -/
  err : Option ErrorKind
  /-- NLEAF (R27) -/
  nleaf : NodeIx
  /-- ROOT (R28) -/
  root : NodeIx
  /-- CUR (R29) -/
  cur : NodeIx
  /-- ENCOPEN (R32) -/
  encOpen : Bool
  /-- DECOPEN (R33) -/
  decOpen : Bool
  /-- CMD: the words pushed and not yet executed, the head first (R61, R37) -/
  cmd : List Word
  /-- RSP: the responses appended and not yet taken, oldest first (R61, R37) -/
  rsp : List RspWord
  /-- BITOUT: the beats appended and not yet taken, oldest first (R61, R37) -/
  bitOut : List BitWord
  /-- SYMOUT: the beats appended and not yet taken, oldest first (R61, R37) -/
  symOut : List SymWord
  deriving DecidableEq, Repr

/-- Why the machine may stop. Every constructor is SAFE: the spec gives no effect there, and no state
that meets R41 reaches one (obligation `InvariantStatesNeverStop`). -/
inductive Fault where
  /-- Raised by `DEC` when it must read a NODE entry that is not valid: "it must not let any command
  read them" (R40). Safe. -/
  | nodeNotValid
  /-- Raised by `DEC` when it must read a field that the entry's kind does not have: "No rule of this
  spec reads `sym` of an internal node or `left`, `right` of a leaf" (R24). Safe. -/
  | nodeFieldUndefined
  /-- Raised by `GEN` when the links from ROOT do not form a tree, so that `path` is not defined: it is
  defined "for the valid nodes of a tree" (R161). Safe. -/
  | pathUndefined
  deriving DecidableEq, Repr

/-- Why the model may decline an instruction. -/
inductive Refusal where
  /-- Answered by `exec` for an instruction that has no meaning yet. Safe. No arm uses it. -/
  | notModelled (mnemonic : String)
  deriving DecidableEq, Repr

/-- The outcome of a command. -/
abbrev Outcome := Host.Outcome State Fault Refusal

/-- The state after reset (R39, R280): counters and registers 0, PHASE = COUNT, no valid node, the four
channels empty. The stored content of CODE is unspecified and unobservable there (R40).
DESIGN CHOICE (log entry 4): the model lets every record say "no code". -/
def State.reset : State where
  freq := Vector.replicate 256 0
  nodes := []
  code := Vector.replicate 256 ⟨[]⟩
  phase := .count
  err := none
  nleaf := 0
  root := 0
  cur := 0
  encOpen := false
  decOpen := false
  cmd := []
  rsp := []
  bitOut := []
  symOut := []

end Sys2Proof.Machine
end

