-- ==== Sys2Proof/Machine/Operands.lean ====
section
/-!
DEFINITION. How an operand reaches a table: the three index spaces of spec/20_memory.md R62 and the one
addressing mode of R73 ("the operand is the index", or CUR is), and the fields of a node record.
-/

namespace Sys2Proof.Machine

/-- FREQ[y] (R22). -/
def getFreq (s : State) (y : Sym) : Count := s.freq[y.toNat]'(y.isLt)

/-- FREQ[y] <- v (R9). -/
def setFreq (y : Sym) (v : Count) (s : State) : State :=
  { s with freq := s.freq.set y.toNat v y.isLt }

/-- CODE[y] (R25). -/
def getCode (s : State) (y : Sym) : CodeRec := s.code[y.toNat]'(y.isLt)

/-- A code table with CODE[y] <- c (R9). -/
def setCode (y : Sym) (c : CodeRec) (t : Vector CodeRec 256) : Vector CodeRec 256 :=
  t.set y.toNat c y.isLt

/-- A code table in which no symbol has a code (R163). -/
def noCodes : Vector CodeRec 256 := Vector.replicate 256 ⟨[]⟩

/-- `len` of a code record, the number of its bits (R26). -/
def codeLen (c : CodeRec) : BitVec 8 := BitVec.ofNat 8 c.bits.length

/-- NODE[i], if entry i is valid in this table (R23). -/
def nodeAt (nodes : List Node) (i : NodeIx) : Option Node := nodes[i.toNat]?

/-- The valid entry i as the read-back commands see it: `PHASE != COUNT and i <= 2*NLEAF - 2`
(R215, R216), and nothing for an index that names no valid node (R40, R65). -/
def readableNode (s : State) (i : NodeIx) : Option Node :=
  if s.phase ≠ .count ∧ i.toNat ≤ 2 * s.nleaf.toNat - 2 then nodeAt s.nodes i else none

/-- `weight`, which both kinds have (R24). -/
def Node.weight : Node → Weight
  | .leaf _ w => w
  | .internal w _ _ => w

end Sys2Proof.Machine
end

