-- ==== Sys2Proof/Machine/Flags.lean ====
section
/-!
DEFINITION. The status side of the machine: the codes of PHASE and ERR, the STATUS view of the registers
(spec/10_state.md R30, R31, R34), the phases each command allows (spec/60_exceptions.md R241), and the
`data` fields of OK responses that pack more than one value (spec/30_encoding.md R102).
-/

namespace Sys2Proof.Machine

/-- The 2-bit value of PHASE (R30). -/
def Phase.code : Phase → BitVec 2
  | .count => 0
  | .tree => 1
  | .ready => 2

/-- The 4-bit value of ERR (R31): 0, or the code of the latched error. -/
def errCode : Option ErrorKind → BitVec 4
  | none => 0
  | some e => e.code

/-- The level `ERR != 0` that an implementation may drive (R242). -/
def faultLevel (s : State) : Bool := s.err.isSome

/-- `STATUS = {5'b0, CUR, ROOT, NLEAF, ERR, DECOPEN, ENCOPEN, PHASE}` (R34). -/
def statusWord (s : State) : Data :=
  (0 : BitVec 5) ++ s.cur ++ s.root ++ s.nleaf ++ errCode s.err ++
    BitVec.ofBool s.decOpen ++ BitVec.ofBool s.encOpen ++ s.phase.code

/-- The phase check of `CNT` and `BLD` (R241). -/
def inCount (s : State) : Bool := s.phase == .count

/-- The phase check of `GEN` (R241). -/
def inTree (s : State) : Bool := s.phase == .tree

/-- The phase check of `ENC` and `ENCEND` (R241). -/
def inReady (s : State) : Bool := s.phase == .ready

/-- The phase check of `DEC` and `DECEND` (R241). -/
def hasTree (s : State) : Bool := s.phase != .count

/-- `BLD`: `data[8:0]` = NLEAF, `data[17:9]` = ROOT (R102). -/
def buildData (nleaf root : NodeIx) : Data := (root ++ nleaf).setWidth 40

/-- `DEC` with a symbol emitted: `data[8]` = 1, `data[7:0]` = the symbol (R102). -/
def symbolData (y : Sym) : Data := ((1 : BitVec 1) ++ y).setWidth 40

/-- `RDNL` (R102, R216): kind in `[1:0]`, `sym` in `[9:2]`, `left` in `[18:10]`, `right` in `[27:19]`, and 0
for an entry that is not valid. -/
def linksData : Option Node → Data
  | none => 0
  | some (.leaf y _) => (y ++ (1 : BitVec 2)).setWidth 40
  | some (.internal _ l r) => (r ++ l ++ (0 : BitVec 8) ++ (2 : BitVec 2)).setWidth 40

end Sys2Proof.Machine
end

