-- ==== Sys2Proof/Machine/Ops.lean ====
section
/-!
DEFINITION. The operations the meanings share: appending to the output channels (spec/00_scope.md R10),
fault entry and the way out of it (spec/60_exceptions.md R244, R246), and the front part every command
passes through (R243).
-/

namespace Sys2Proof.Machine

/-! ## Output (R10) -/

/-- `respond(st, data)`: one word at the tail of RSP (R100). -/
def respond (st : Status) (data : Data) (s : State) : State :=
  { s with rsp := s.rsp ++ [Response.word { st := st, data := data }] }

/-- `emit BITOUT(x)` (R103). -/
def emitBit (x : BitBeat) (s : State) : State := { s with bitOut := s.bitOut ++ [x.word] }

/-- `emit SYMOUT(x)` (R104). -/
def emitSym (x : SymBeat) (s : State) : State := { s with symOut := s.symOut ++ [x.word] }

/-- The bits of a code, first-emitted bit first (R175, R8). -/
def emitBits (bs : List Bool) (s : State) : State :=
  { s with bitOut := s.bitOut ++ bs.map fun b => (BitBeat.bit b).word }

/-! ## Fault entry and exit -/

/-- Mark the open serializer session as partial output (R244, R210). -/
def abortEnc (s : State) : State :=
  if s.encOpen then emitBit .abort { s with encOpen := false } else s

/-- Mark the open deserializer session as partial output (R244, R210). -/
def abortDec (s : State) : State :=
  if s.decOpen then emitSym .abort { s with decOpen := false } else s

/-- `raise E`, fault entry (R244): ERR latches the code, open sessions are aborted, the BITOUT marker
before the SYMOUT one, and the response carries the code. Everything else is kept. -/
def raise (e : ErrorKind) (s : State) : State :=
  respond (.error e) 0 (abortDec (abortEnc { s with err := some e }))

/-- The reset values (R39), with the channels as they are in `s` (R281). -/
def clearEngine (s : State) : State :=
  { State.reset with cmd := s.cmd, rsp := s.rsp, bitOut := s.bitOut, symOut := s.symOut }

/-! ## The front part of every command (R243) -/

/-- Step 3: in fault the command gets FAULTED and has no other effect (R245). -/
def unlessFault (s : State) (k : Outcome) : Outcome :=
  if s.err.isSome then .next (respond .faulted 0 s) else k

/-- Step 6: a command outside its phases raises BadPhase (R241). -/
def inPhase (ok : Bool) (s : State) (k : Outcome) : Outcome :=
  if ok then k else .next (raise .badPhase s)

/-- Steps 3 and 4 for a word that decodes to no command (R94, R243). -/
def illegalWord (s : State) : Outcome := unlessFault s (.next (raise .illegalCommand s))

end Sys2Proof.Machine
end

