-- ==== Sys2Proof/Machine/Build.lean ====
section
/-!
DEFINITION. The tree builder and its priority queue: `BLD` (spec/41_build.md R130 to R145). The queue is
local to the command (R35) and is held as a list of its members, in no particular order.
-/

namespace Sys2Proof.Machine

/-- The leaf scan (R131): one leaf per symbol with a non-zero count, in ascending order of symbol. -/
def leafScan (freq : Vector Count 256) : List Node :=
  freq.toList.zipIdx.filterMap fun (c, y) =>
    if c = 0 then none else some (.leaf (BitVec.ofNat 8 y) (c.setWidth 40))

/-- The queue as it starts (R132): every leaf, by index. -/
def initQueue (leaves : List Node) : List PqEntry :=
  leaves.zipIdx.map fun (n, i) => { weight := n.weight, index := BitVec.ofNat 9 i }

/-- `key(a) < key(b)` (R12): the lesser weight, and the lesser index among equal weights (R137). -/
def keyLt (a b : PqEntry) : Bool :=
  decide (a.weight < b.weight ∨ (a.weight = b.weight ∧ a.index < b.index))

/-- The member of least key among `m` and the list. -/
def leastOf : PqEntry → List PqEntry → PqEntry
  | m, [] => m
  | m, e :: rest => leastOf (if keyLt e m then e else m) rest

/-- `extractMin(PQ)` (R135): the member of least key and the queue without it. Its precondition is that
the queue is not empty. -/
def extractMin : List PqEntry → Option (PqEntry × List PqEntry)
  | [] => none
  | e :: rest => some (leastOf e rest, (e :: rest).erase (leastOf e rest))

/-- `insert(PQ, i)` (R145). -/
def insertPq (e : PqEntry) (pq : List PqEntry) : List PqEntry := pq ++ [e]

/-- The merge loop (R133, R136, R138): while the queue has two members, the two of least key become the
left and the right child of the next node. The first argument bounds the number of merges; `BLD` gives it
one merge per leaf, and R136 needs one fewer. -/
def mergeLoop : Nat → List Node → List PqEntry → List Node
  | 0, nodes, _ => nodes
  | k + 1, nodes, pq =>
    match extractMin pq with
    | none => nodes
    | some (a, pq₁) =>
      match extractMin pq₁ with
      | none => nodes
      | some (b, pq₂) =>
        mergeLoop k (nodes ++ [.internal (a.weight + b.weight) a.index b.index])
          (insertPq { weight := a.weight + b.weight, index := BitVec.ofNat 9 nodes.length } pq₂)

/-- The node table `BLD` makes from the leaves of the scan (R130). -/
def buildNodes (leaves : List Node) : List Node :=
  mergeLoop leaves.length leaves (initQueue leaves)

/-- The registers and the table that a successful `BLD` writes, with the response (R130, R102). -/
def installTree (nleaf root : NodeIx) (nodes : List Node) (s : State) : State :=
  respond .ok (buildData nleaf root)
    { s with nodes := nodes, nleaf := nleaf, root := root, cur := root, phase := .tree }

/-- The own check and the effect of `BLD` (R130, R143). -/
def buildTree (leaves : List Node) (s : State) : Outcome :=
  if leaves.isEmpty then .next (raise .emptyAlphabet s)
  else .next (installTree (BitVec.ofNat 9 leaves.length)
    (BitVec.ofNat 9 ((buildNodes leaves).length - 1)) (buildNodes leaves) s)

/-- `BLD` (R130). -/
def execBld (s : State) : Outcome :=
  unlessFault s <| inPhase (inCount s) s <| buildTree (leafScan s.freq) s

end Sys2Proof.Machine
end

