-- ==== Sys2Proof/Machine/CodeGen.lean ====
section
/-!
DEFINITION. The code-table generator: `GEN` (spec/42_codegen.md R160 to R166).
-/

namespace Sys2Proof.Machine

/-- The depth-first walk of R161 and R165 from node `i`, whose path is `p`: each leaf below with its
path, "0" appended on a left descent and "1" on a right one. The first argument bounds the depth. It
answers nothing where the links lead to an entry that is not valid or do not end within the bound. -/
def walk (nodes : List Node) : Nat → NodeIx → List Bool → Option (List (Sym × List Bool))
  | 0, _, _ => none
  | f + 1, i, p =>
    match nodeAt nodes i with
    | none => none
    | some (.leaf y _) => some [(y, p)]
    | some (.internal _ l r) =>
      match walk nodes f l (p ++ [false]) with
      | none => none
      | some below =>
        match walk nodes f r (p ++ [true]) with
        | none => none
        | some below' => some (below ++ below')

/-- The code table with the given entries and no other (R160, R163). -/
def tableOf (entries : List (Sym × List Bool)) : Vector CodeRec 256 :=
  entries.foldl (fun t e => setCode e.1 ⟨e.2⟩ t) noCodes

/-- The entries of the code table (R160): the 1-bit code "0" for the symbol of a single leaf (R162), and
the path of every leaf otherwise. -/
def codeEntries (s : State) : Option (List (Sym × List Bool)) :=
  if s.nleaf = 1 then
    match nodeAt s.nodes 0 with
    | some (.leaf y _) => some [(y, [false])]
    | _ => none
  else walk s.nodes s.nodes.length s.root []

/-- What a successful `GEN` writes, with the response (R160). -/
def installCodes (entries : List (Sym × List Bool)) (s : State) : State :=
  respond .ok 0 { s with code := tableOf entries, phase := .ready }

/-- The effect of `GEN` (R160). -/
def generateCodes (s : State) : Outcome :=
  match codeEntries s with
  | some entries => .next (installCodes entries s)
  | none => .fault .pathUndefined

/-- `GEN` (R160). -/
def execGen (s : State) : Outcome :=
  unlessFault s <| inPhase (inTree s) s <| generateCodes s

end Sys2Proof.Machine
end

