-- ==== Sys2Proof/Machine/Control.lean ====
section
/-!
DEFINITION. Control and read-back: `CLR`, `FAIL`, `RDS`, `RDF`, `RDL`, `RDNW`, `RDNL` (spec/45_control.md
R210 to R216).
-/

namespace Sys2Proof.Machine

/-- `CLR` (R210): runs in fault too, aborts the open sessions, then every table and register takes its
reset value. -/
def execClr (s : State) : Outcome := .next (respond .ok 0 (clearEngine (abortDec (abortEnc s))))

/-- `FAIL k` (R211), step 5 of R243. -/
def execFail (k : Bool) (s : State) : Outcome :=
  unlessFault s <| .next (raise (if k then .sinkUnavailable else .sourceUnavailable) s)

/-- `RDS` (R212): runs in fault too. -/
def execRds (s : State) : Outcome := .next (respond .ok (statusWord s) s)

/-- `RDF y` (R213). -/
def execRdf (y : Sym) (s : State) : Outcome :=
  unlessFault s <| .next (respond .ok ((getFreq s y).setWidth 40) s)

/-- `RDL y` (R214). -/
def execRdl (y : Sym) (s : State) : Outcome :=
  unlessFault s <| .next <|
    respond .ok (if inReady s then (codeLen (getCode s y)).setWidth 40 else 0) s

/-- `RDNW i` (R215). -/
def execRdnw (i : NodeIx) (s : State) : Outcome :=
  unlessFault s <| .next (respond .ok (((readableNode s i).map Node.weight).getD 0) s)

/-- `RDNL i` (R216). -/
def execRdnl (i : NodeIx) (s : State) : Outcome :=
  unlessFault s <| .next (respond .ok (linksData (readableNode s i)) s)

end Sys2Proof.Machine
end

