-- ==== Sys2Proof/Machine/Count.lean ====
section
/-!
DEFINITION. Frequency counting: `CNT` (spec/40_count.md R120 to R123).
-/

namespace Sys2Proof.Machine

/-- The own check and the effect of `CNT y` for counters of width `w` (R120, R122): the increment that
would leave the range is refused with CountOverflow, and never wraps. -/
def countOne (w : Nat) (y : Sym) (s : State) : Outcome :=
  if getFreq s y = Config.freqMax w then .next (raise .countOverflow s)
  else .next (respond .ok ((getFreq s y + 1).setWidth 40) (setFreq y (getFreq s y + 1) s))

/-- `CNT y` for counters of width `w`, with the front part of R243. -/
def countCommand (w : Nat) (y : Sym) (s : State) : Outcome :=
  unlessFault s <| inPhase (inCount s) s <| countOne w y s

/-- `CNT y` (R120). -/
def execCnt (y : Sym) (s : State) : Outcome := countCommand Config.freqW y s

end Sys2Proof.Machine
end

