-- ==== Sys2Proof/Machine/Deserial.lean ====
section
/-!
DEFINITION. The deserializer: `DEC` and `DECEND` (spec/44_decode.md R190 to R198). It reads NODE and never
CODE.
-/

namespace Sys2Proof.Machine

/-- The cursor lands on a leaf (R190): its symbol is emitted and CUR goes back to ROOT. -/
def landOnLeaf (y : Sym) (s : State) : State :=
  respond .ok (symbolData y) { emitSym (.sym y) s with cur := s.root, decOpen := true }

/-- The cursor lands on an internal node (R190). -/
def landInside (c : NodeIx) (s : State) : State :=
  respond .ok 0 { s with cur := c, decOpen := true }

/-- `DEC` on a single-leaf tree (R190, R192): the leaf's symbol, whatever the bit; CUR stays. -/
def decodeSingle (s : State) : Outcome :=
  match nodeAt s.nodes s.root with
  | some (.leaf y _) =>
    .next (respond .ok (symbolData y) { emitSym (.sym y) s with decOpen := true })
  | some (.internal _ _ _) => .fault .nodeFieldUndefined
  | none => .fault .nodeNotValid

/-- One step of the descent (R190): the child of NODE[CUR] that bit b selects. -/
def descend (b : Bool) (s : State) : Outcome :=
  match nodeAt s.nodes s.cur with
  | none => .fault .nodeNotValid
  | some (.leaf _ _) => .fault .nodeFieldUndefined
  | some (.internal _ l r) =>
    match nodeAt s.nodes (if b then r else l) with
    | none => .fault .nodeNotValid
    | some (.leaf y _) => .next (landOnLeaf y s)
    | some (.internal _ _ _) => .next (landInside (if b then r else l) s)

/-- The effect of `DEC b` (R190). -/
def decodeBit (b : Bool) (s : State) : Outcome :=
  if s.nleaf = 1 then decodeSingle s else descend b s

/-- `DEC b` (R190). -/
def execDec (b : Bool) (s : State) : Outcome :=
  unlessFault s <| inPhase (hasTree s) s <| decodeBit b s

/-- The own check and the effect of `DECEND` (R191). -/
def finishSymbols (s : State) : Outcome :=
  if s.cur ≠ s.root then .next (raise .malformedStream s)
  else .next (respond .ok 0 { emitSym .finish s with decOpen := false })

/-- `DECEND` (R191). -/
def execDecend (s : State) : Outcome :=
  unlessFault s <| inPhase (hasTree s) s <| finishSymbols s

end Sys2Proof.Machine
end

