-- ==== Sys2Proof/Machine/Serial.lean ====
section
/-!
DEFINITION. The serializer: `ENC` and `ENCEND` (spec/43_encode.md R175 to R180).
-/

namespace Sys2Proof.Machine

/-- The own check and the effect of `ENC y` (R175). -/
def encodeSymbol (y : Sym) (s : State) : Outcome :=
  if codeLen (getCode s y) = 0 then .next (raise .unknownSymbol s)
  else .next (respond .ok ((codeLen (getCode s y)).setWidth 40)
    { emitBits (getCode s y).bits s with encOpen := true })

/-- `ENC y` (R175). -/
def execEnc (y : Sym) (s : State) : Outcome :=
  unlessFault s <| inPhase (inReady s) s <| encodeSymbol y s

/-- The effect of `ENCEND` (R176). -/
def closeBits (s : State) : State := respond .ok 0 { emitBit .close s with encOpen := false }

/-- `ENCEND` (R176). -/
def execEncend (s : State) : Outcome :=
  unlessFault s <| inPhase (inReady s) s <| .next (closeBits s)

end Sys2Proof.Machine
end

