-- ==== Sys2Proof/Machine/Dispatch.lean ====
section
/-! DEFINITION. The meaning of each command, one arm per row of spec/opcode_table.json (R91). -/

namespace Sys2Proof.Machine

def exec (i : Instr) (s : State) : Host.Outcome State Fault Refusal :=
  match i with
  | .clr => Sys2Proof.Machine.execClr s
  | .cnt y => Sys2Proof.Machine.execCnt y s
  | .bld => Sys2Proof.Machine.execBld s
  | .gen => Sys2Proof.Machine.execGen s
  | .enc y => Sys2Proof.Machine.execEnc y s
  | .encend => Sys2Proof.Machine.execEncend s
  | .dec b => Sys2Proof.Machine.execDec b s
  | .decend => Sys2Proof.Machine.execDecend s
  | .fail k => Sys2Proof.Machine.execFail k s
  | .rds => Sys2Proof.Machine.execRds s
  | .rdf y => Sys2Proof.Machine.execRdf y s
  | .rdl y => Sys2Proof.Machine.execRdl y s
  | .rdnw k => Sys2Proof.Machine.execRdnw k s
  | .rdnl k => Sys2Proof.Machine.execRdnl k s

end Sys2Proof.Machine
end

