-- ==== Sys2Proof/Machine/Fetch.lean ====
section
/-!
DEFINITION. Taking a command from the CMD channel (spec/20_memory.md R60, R68, R72), and running a word
once it is taken (spec/60_exceptions.md R243).
-/

namespace Sys2Proof.Machine

/-- The word at the head of CMD and the state without it; nothing when CMD is empty (R60). -/
def takeCommand (s : State) : Option (Word × State) :=
  match s.cmd with
  | [] => none
  | w :: rest => some (w, { s with cmd := rest })

/-- The step function of R243 on one command word. -/
def runWord (w : Word) (s : State) : Outcome :=
  match decode w with
  | .ok i => exec i s
  | .error _ => illegalWord s

/-- A word placed at the head of CMD. -/
def pushFront (w : Word) (s : State) : State := { s with cmd := w :: s.cmd }

/-- The fold of the per-command step over a sequence of commands (R68), stopping at the first fault or
refusal. -/
def execAll : List Instr → State → Outcome
  | [], s => .next s
  | i :: rest, s =>
    match exec i s with
    | .next t => execAll rest t
    | .fault r => .fault r
    | .refused r => .refused r

end Sys2Proof.Machine
end

