-- ==== Sys2Proof/Machine/Step.lean ====
section
/-!
DEFINITION. One step of the engine (spec/20_memory.md R68, R72): the command at the head of CMD is taken
and executed as one atomic step, and with CMD empty the engine waits, which changes no state.
-/

namespace Sys2Proof.Machine

/-- One step of the engine. -/
def step (s : State) : Host.Outcome State Fault Refusal :=
  match takeCommand s with
  | none => .next s
  | some (w, t) => runWord w t

/-- The state with an opcode-table word of `nbits` bits as the next command of CMD (log entry 10): the
very next step runs exactly it. -/
def State.withFetchWord (s : State) (nbits w : Nat) : State :=
  pushFront (BitVec.ofNat 16 (w % 2 ^ nbits)) s

end Sys2Proof.Machine
end

