-- ==== Sys2Proof/Machine/Job.lean ====
section
/-!
DEFINITION. Sequences of commands the spec gives a name: the pseudo-commands (spec/30_encoding.md R97) and
the shape of a job (spec/70_reset_and_hazards.md R283).
-/

namespace Sys2Proof.Machine

/-- `CNTS "c1c2...cm"` (R97). -/
def cnts (input : List Sym) : List Instr := input.map .cnt

/-- `ENCS "c1c2...cm"` (R97). -/
def encs (input : List Sym) : List Instr := input.map .enc

/-- `DECS "b1b2...bm"` (R97). -/
def decs (bits : List Bool) : List Instr := bits.map .dec

/-- compress: `CLR ; CNT s_1 ... CNT s_m ; BLD ; GEN ; ENC s_1 ... ENC s_m ; ENCEND` (R283). -/
def compressJob (input : List Sym) : List Instr :=
  [.clr] ++ cnts input ++ [.bld, .gen] ++ encs input ++ [.encend]

/-- decompress, with the tree of the same instance still in place: `DEC e_1 ... DEC e_L ; DECEND` (R283). -/
def decompressJob (bits : List Bool) : List Instr := decs bits ++ [.decend]

end Sys2Proof.Machine
end

