-- ==== Sys2Proof/Machine/Asm.lean ====
section
/-!
DEFINITION. The written form of commands (spec/30_encoding.md R96, R97): one command or pseudo-command per
line, a mnemonic in capitals, then the operand if any, separated by a space, and a comment from `;` to the
end of the line. A line is a list of characters. What R96 does not say (more than one space, spaces before
a mnemonic, hexadecimal digits in either case) is log entry 12.
-/

namespace Sys2Proof.Asm

/-- The text without its leading spaces. -/
def skipSpaces : List Char → List Char
  | ' ' :: rest => skipSpaces rest
  | cs => cs

/-- Nothing but spaces and a comment is left (R96). -/
def atEnd (cs : List Char) : Bool :=
  match skipSpaces cs with
  | [] => true
  | c :: _ => c == ';'

/-- The value of a decimal digit. -/
def decDigit (c : Char) : Option Nat :=
  if 48 ≤ c.toNat ∧ c.toNat ≤ 57 then some (c.toNat - 48) else none

/-- The value of a hexadecimal digit. -/
def hexDigit (c : Char) : Option Nat :=
  if 65 ≤ c.toNat ∧ c.toNat ≤ 70 then some (c.toNat - 55)
  else if 97 ≤ c.toNat ∧ c.toNat ≤ 102 then some (c.toNat - 87)
  else decDigit c

/-- The digits at the front of the text, after the value `acc` of those before them. -/
def readDigits (base : Nat) (digit : Char → Option Nat) (acc : Nat) : List Char → Nat × List Char
  | [] => (acc, [])
  | c :: rest =>
    match digit c with
    | some d => readDigits base digit (acc * base + d) rest
    | none => (acc, c :: rest)

/-- A number of at least one digit. -/
def readNumber (base : Nat) (digit : Char → Option Nat) (cs : List Char) : Option (Nat × List Char) :=
  match cs with
  | [] => none
  | c :: rest => (digit c).map fun d => readDigits base digit d rest

/-- An operand (R96): a decimal number, a hexadecimal number, or for a symbol a character in single
quotes standing for its code. -/
def readOperand (symbol : Bool) : List Char → Option (Nat × List Char)
  | '\'' :: c :: '\'' :: rest => if symbol then some (c.toNat, rest) else none
  | '0' :: 'x' :: rest => readNumber 16 hexDigit rest
  | cs => readNumber 10 decDigit cs

/-- The rest of a line whose command has no operand. -/
def noOperand (i : Instr) (rest : List Char) : Option (List Instr) :=
  if atEnd rest then some [i] else none

/-- The rest of a line whose command has an operand below `bound`. -/
def oneOperand (symbol : Bool) (bound : Nat) (build : Nat → Instr) (rest : List Char) :
    Option (List Instr) :=
  match rest with
  | ' ' :: cs =>
    match readOperand symbol (skipSpaces cs) with
    | some (v, after) => if v < bound ∧ atEnd after then some [build v] else none
    | none => none
  | _ => none

/-- The characters up to a closing double quote, and the text after it. -/
def readString : List Char → Option (List Char × List Char)
  | [] => none
  | '"' :: rest => some ([], rest)
  | c :: rest => (readString rest).map fun (cs, after) => (c :: cs, after)

/-- The rest of a line whose pseudo-command has a string operand (R97): one command per character. -/
def stringOperand (build : Char → Option Instr) (rest : List Char) : Option (List Instr) :=
  match rest with
  | ' ' :: cs =>
    match skipSpaces cs with
    | '"' :: text =>
      match readString text with
      | some (chars, after) => if atEnd after then chars.mapM build else none
      | none => none
    | _ => none
  | _ => none

/-- A character as a symbol: its code, when it is one of the 256 values (R6). -/
def charSym (build : Sym → Instr) (c : Char) : Option Instr :=
  if c.toNat < 256 then some (build (BitVec.ofNat 8 c.toNat)) else none

/-- A character as a bit (R97). -/
def charBit (c : Char) : Option Instr :=
  if c = '0' then some (.dec false) else if c = '1' then some (.dec true) else none

/-- The commands of a line with the given mnemonic and rest (R91, R96, R97). -/
def lineOf (mnemonic rest : List Char) : Option (List Instr) :=
  if mnemonic = ['C', 'L', 'R'] then noOperand .clr rest
  else if mnemonic = ['C', 'N', 'T'] then oneOperand true 256 (fun v => .cnt (BitVec.ofNat 8 v)) rest
  else if mnemonic = ['B', 'L', 'D'] then noOperand .bld rest
  else if mnemonic = ['G', 'E', 'N'] then noOperand .gen rest
  else if mnemonic = ['E', 'N', 'C'] then oneOperand true 256 (fun v => .enc (BitVec.ofNat 8 v)) rest
  else if mnemonic = ['E', 'N', 'C', 'E', 'N', 'D'] then noOperand .encend rest
  else if mnemonic = ['D', 'E', 'C'] then oneOperand false 2 (fun v => .dec (v == 1)) rest
  else if mnemonic = ['D', 'E', 'C', 'E', 'N', 'D'] then noOperand .decend rest
  else if mnemonic = ['F', 'A', 'I', 'L'] then oneOperand false 2 (fun v => .fail (v == 1)) rest
  else if mnemonic = ['R', 'D', 'S'] then noOperand .rds rest
  else if mnemonic = ['R', 'D', 'F'] then oneOperand true 256 (fun v => .rdf (BitVec.ofNat 8 v)) rest
  else if mnemonic = ['R', 'D', 'L'] then oneOperand true 256 (fun v => .rdl (BitVec.ofNat 8 v)) rest
  else if mnemonic = ['R', 'D', 'N', 'W'] then oneOperand false 512 (fun v => .rdnw (BitVec.ofNat 9 v)) rest
  else if mnemonic = ['R', 'D', 'N', 'L'] then oneOperand false 512 (fun v => .rdnl (BitVec.ofNat 9 v)) rest
  else if mnemonic = ['C', 'N', 'T', 'S'] then stringOperand (charSym .cnt) rest
  else if mnemonic = ['E', 'N', 'C', 'S'] then stringOperand (charSym .enc) rest
  else if mnemonic = ['D', 'E', 'C', 'S'] then stringOperand charBit rest
  else none

/-- The capitals at the front of the text, and the text after them. -/
def readCapitals : List Char → List Char × List Char
  | [] => ([], [])
  | c :: rest =>
    if 65 ≤ c.toNat ∧ c.toNat ≤ 90 then ((c :: (readCapitals rest).1), (readCapitals rest).2)
    else ([], c :: rest)

/-- The commands of one line; nothing where the line is not of the form R96 and R97 give. A line that is
empty or holds only a comment has no command. -/
def assembleLine (cs : List Char) : Option (List Instr) :=
  if atEnd cs then some []
  else lineOf (readCapitals (skipSpaces cs)).1 (readCapitals (skipSpaces cs)).2

/-- The commands of a text, line by line. -/
def assemble (lines : List (List Char)) : Option (List Instr) :=
  (lines.mapM assembleLine).map List.flatten

/-- A number in decimal. -/
def showNat (n : Nat) : List Char := Nat.toDigits 10 n

/-- A bit as an operand. -/
def showBit (b : Bool) : List Char := if b then ['1'] else ['0']

/-- A command in the written form of R96, with a decimal operand. -/
def showInstr : Instr → List Char
  | .clr => ['C', 'L', 'R']
  | .cnt y => ['C', 'N', 'T', ' '] ++ showNat y.toNat
  | .bld => ['B', 'L', 'D']
  | .gen => ['G', 'E', 'N']
  | .enc y => ['E', 'N', 'C', ' '] ++ showNat y.toNat
  | .encend => ['E', 'N', 'C', 'E', 'N', 'D']
  | .dec b => ['D', 'E', 'C', ' '] ++ showBit b
  | .decend => ['D', 'E', 'C', 'E', 'N', 'D']
  | .fail k => ['F', 'A', 'I', 'L', ' '] ++ showBit k
  | .rds => ['R', 'D', 'S']
  | .rdf y => ['R', 'D', 'F', ' '] ++ showNat y.toNat
  | .rdl y => ['R', 'D', 'L', ' '] ++ showNat y.toNat
  | .rdnw i => ['R', 'D', 'N', 'W', ' '] ++ showNat i.toNat
  | .rdnl i => ['R', 'D', 'N', 'L', ' '] ++ showNat i.toNat

end Sys2Proof.Asm
end

