-- ==== Sys2Proof/Machine/Env.lean ====
section
/-!
DEFINITION. What the outside world does to an instance (spec/70_reset_and_hazards.md R280, R299;
spec/20_memory.md R60): the host pushes commands and takes words from the three output channels, reset may
be asserted at any time; how the host reads the output channels; and several instances share nothing (R75, R250).
-/

namespace Sys2Proof.Machine

/-- The host's liberties of R299. -/
inductive HostAction where
  /-- push a 16-bit word on CMD -/
  | push (w : Word)
  /-- take the oldest word of RSP -/
  | takeRsp
  /-- take the oldest beat of BITOUT -/
  | takeBit
  /-- take the oldest beat of SYMOUT -/
  | takeSym
  /-- assert reset (R280) -/
  | assertReset
  deriving DecidableEq, Repr

/-- An event of an instance: one step of the engine, or one action of the host. -/
inductive Event where
  | engine
  | host (a : HostAction)
  deriving DecidableEq, Repr

/-- The effect of a host action. A writer appends at the tail and a reader takes from the head (R60).
Taking from an empty channel changes nothing (log entry 13). Reset gives the reset state and empties the
four channels (R280). -/
def hostAct : HostAction → State → State
  | .push w, s => { s with cmd := s.cmd ++ [w] }
  | .takeRsp, s => { s with rsp := s.rsp.tail }
  | .takeBit, s => { s with bitOut := s.bitOut.tail }
  | .takeSym, s => { s with symOut := s.symOut.tail }
  | .assertReset, _ => State.reset

/-- The effect of an event. -/
def happen : Event → State → Outcome
  | .engine, s => step s
  | .host a, s => .next (hostAct a s)

/-- How the bit sink reads BITOUT (R103, R252): the bit streams that a `CLOSE` completed, and the bits after the
last marker. The bits before an `ABORT` are discarded. `pending` are the bits since the previous marker. -/
def readBits (pending : List Bool) : List BitWord → List (List Bool) × List Bool
  | [] => ([], pending)
  | b :: rest =>
    match BitBeat.ofWord b with
    | .bit v => readBits (pending ++ [v]) rest
    | .close => (pending :: (readBits [] rest).1, (readBits [] rest).2)
    | .abort => readBits [] rest

/-- How the consumer reads SYMOUT (R104, R252): the sequences that an `END` completed, and the symbols after
the last marker; nothing when a word is no beat (93_implementation_defined.md U8). -/
def readSymbols (pending : List Sym) : List SymWord → Option (List (List Sym) × List Sym)
  | [] => some ([], pending)
  | b :: rest =>
    match SymBeat.ofWord b with
    | none => none
    | some (.sym y) => readSymbols (pending ++ [y]) rest
    | some .finish => (readSymbols [] rest).map fun r => (pending :: r.1, r.2)
    | some .abort => readSymbols [] rest

/-- An event of the k-th of several instances (R75, R250). An instance whose step gives no next state
stays as it is. -/
def happenAt (k : Nat) (e : Event) (instances : List State) : List State :=
  match instances[k]? with
  | none => instances
  | some s =>
    match happen e s with
    | .next t => instances.set k t
    | _ => instances

end Sys2Proof.Machine
end

