-- ==== Sys2Proof/Safety.lean ====
section
/-!
DEFINITION. The terms in which statements about the machine are made: the words the spec writes out, fault
entry as spec/60_exceptions.md R244 lists it, the table of phases of R241, the tree and the path of a node
(spec/42_codegen.md R161), and the invariants of spec/10_state.md R41. Nothing here is run by the machine.
-/

namespace Sys2Proof.Machine

/-! ## Words as the spec writes them -/

/-- The response `{0, data}` (R100, R101). -/
def okWord (data : Data) : RspWord := (0 : BitVec 4) ++ data

/-- The response `{code, 0}` of an error (R100, R240). -/
def errorWord (e : ErrorKind) : RspWord := e.code ++ (0 : Data)

/-- The response `{15, 0}`, FAULTED (R245). -/
def faultedWord : RspWord := (15 : BitVec 4) ++ (0 : Data)

/-- The beats `BIT(0)` = 00 and `BIT(1)` = 01 (R103). -/
def bitWord (b : Bool) : BitWord := if b then 1 else 0

/-- The beat `CLOSE` = 10 (R103). -/
def closeWord : BitWord := 2

/-- The beat `ABORT` = 11 on BITOUT (R103). -/
def abortBitWord : BitWord := 3

/-- The beat `SYM(y)` = 0x000 + y (R104). -/
def symWord (y : Sym) : SymWord := y.setWidth 10

/-- The beat `END` = 0x200 (R104). -/
def endWord : SymWord := 0x200

/-- The beat `ABORT` = 0x300 on SYMOUT (R104). -/
def abortSymWord : SymWord := 0x300

/-- The state after `raise e` as R244 lists it: ERR takes the code, an open session gets its `ABORT` and
its flag is cleared, the response is `{code, 0}`, and everything else keeps its value. -/
def afterError (e : ErrorKind) (s : State) : State :=
  { s with
    err := some e
    encOpen := false
    decOpen := false
    bitOut := s.bitOut ++ (if s.encOpen then [abortBitWord] else [])
    symOut := s.symOut ++ (if s.decOpen then [abortSymWord] else [])
    rsp := s.rsp ++ [errorWord e] }

/-- The table of R241, complete: the error a command raises when ERR = 0, if it raises one. -/
def tableError : Instr → State → Option ErrorKind
  | .clr, _ => none
  | .cnt y, s =>
    if s.phase ≠ .count then some .badPhase
    else if (s.freq[y.toNat]'(y.isLt)).toNat = 2 ^ 32 - 1 then some .countOverflow
    else none
  | .bld, s =>
    if s.phase ≠ .count then some .badPhase
    else if ∀ y : Sym, s.freq[y.toNat]'(y.isLt) = 0 then some .emptyAlphabet
    else none
  | .gen, s => if s.phase ≠ .tree then some .badPhase else none
  | .enc y, s =>
    if s.phase ≠ .ready then some .badPhase
    else if codeLen (s.code[y.toNat]'(y.isLt)) = 0 then some .unknownSymbol
    else none
  | .encend, s => if s.phase ≠ .ready then some .badPhase else none
  | .dec _, s => if s.phase = .count then some .badPhase else none
  | .decend, s =>
    if s.phase = .count then some .badPhase
    else if s.cur ≠ s.root then some .malformedStream
    else none
  | .fail false, _ => some .sourceUnavailable
  | .fail true, _ => some .sinkUnavailable
  | .rds, _ => none
  | .rdf _, _ => none
  | .rdl _, _ => none
  | .rdnw _, _ => none
  | .rdnl _, _ => none

/-- The five read-back commands (R66). -/
def isRead : Instr → Bool
  | .clr => false
  | .cnt _ => false
  | .bld => false
  | .gen => false
  | .enc _ => false
  | .encend => false
  | .dec _ => false
  | .decend => false
  | .fail _ => false
  | .rds => true
  | .rdf _ => true
  | .rdl _ => true
  | .rdnw _ => true
  | .rdnl _ => true

/-! ## Counts -/

/-- The number of symbols with a non-zero count (R41 item 3). -/
def presentCount (freq : Vector Count 256) : Nat := freq.toList.countP (· ≠ 0)

/-- The sum of all counters as an exact number (R121, R41 item 7). -/
def freqSum (freq : Vector Count 256) : Nat := (freq.toList.map BitVec.toNat).sum

/-- FREQ[y] of a table of counters. -/
def countOf (freq : Vector Count 256) (y : Sym) : Count := freq[y.toNat]'(y.isLt)

/-- How many `CNT y` commands of a sequence, run from `s`, returned OK: the last response has `st` = 0
(R121). -/
def okCounts (y : Sym) : List Instr → State → Nat
  | [], _ => 0
  | i :: rest, s =>
    match exec i s with
    | .next t =>
      (if i = .cnt y ∧ (t.rsp.getLast?.getD faultedWord).extractLsb' 40 4 = 0 then 1 else 0) +
        okCounts y rest t
    | _ => 0

/-! ## The tree -/

/-- All `left` and `right` fields of the internal nodes (R41 item 6). -/
def links : List Node → List NodeIx
  | [] => []
  | .leaf _ _ :: rest => links rest
  | .internal _ l r :: rest => l :: r :: links rest

/-- `path` (R161), as a relation between a node and a bit string: `path(ROOT) = ""`, and a child's path is
its parent's with 0 (left) or 1 (right) appended. -/
inductive PathTo (nodes : List Node) (root : NodeIx) : NodeIx → List Bool → Prop where
  | root : PathTo nodes root root []
  | left {i : NodeIx} {p : List Bool} {w : Weight} {l r : NodeIx} :
      PathTo nodes root i p → nodeAt nodes i = some (.internal w l r) →
        PathTo nodes root l (p ++ [false])
  | right {i : NodeIx} {p : List Bool} {w : Weight} {l r : NodeIx} :
      PathTo nodes root i p → nodeAt nodes i = some (.internal w l r) →
        PathTo nodes root r (p ++ [true])

/-- Items 3 to 7 of R41: `nodes` is a tree over the counts `freq` with `n` leaves. -/
structure TreeOver (freq : Vector Count 256) (nodes : List Node) (n : Nat) : Prop where
  one_le : 1 ≤ n
  le_nsym : n ≤ 256
  /-- item 3 -/
  leaf_count : n = presentCount freq
  /-- item 3 -/
  length_eq : nodes.length = 2 * n - 1
  /-- item 4 -/
  leaf : ∀ j < n, ∃ y : Sym,
    nodes[j]? = some (.leaf y ((countOf freq y).setWidth 40)) ∧ countOf freq y ≠ 0
  /-- item 4 -/
  ascending : ∀ j, j + 1 < n → ∀ y z : Sym, ∀ v w : Weight,
    nodes[j]? = some (.leaf y v) → nodes[j + 1]? = some (.leaf z w) → y < z
  /-- item 5 -/
  internal : ∀ i, n ≤ i → i < nodes.length → ∃ (w : Weight) (l r : NodeIx) (a b : Node),
    nodes[i]? = some (.internal w l r) ∧ l.toNat < i ∧ r.toNat < i ∧ l ≠ r ∧
      nodeAt nodes l = some a ∧ nodeAt nodes r = some b ∧
      w.toNat = a.weight.toNat + b.weight.toNat
  /-- item 6 -/
  one_parent : ∀ j, j + 1 < nodes.length → (links nodes).count (BitVec.ofNat 9 j) = 1
  /-- item 6 -/
  root_no_parent : BitVec.ofNat 9 (nodes.length - 1) ∉ links nodes
  /-- item 7 -/
  total : ∃ a : Node, nodes[nodes.length - 1]? = some a ∧ a.weight.toNat = freqSum freq

/-- Item 11 of R41, with the codes themselves (R160 to R163). -/
structure CodesOf (s : State) : Prop where
  /-- the code of a single leaf is "0" (R162) -/
  single : s.nleaf = 1 → ∀ (y : Sym) (w : Weight),
    nodeAt s.nodes 0 = some (.leaf y w) → (getCode s y).bits = [false]
  /-- the code of a leaf is its path (R161) -/
  path : s.nleaf ≠ 1 → ∀ (j : NodeIx) (y : Sym) (w : Weight),
    nodeAt s.nodes j = some (.leaf y w) → PathTo s.nodes s.root j (getCode s y).bits
  /-- a symbol that is not a leaf has no code (R163) -/
  absent : ∀ y : Sym, getFreq s y = 0 → (getCode s y).bits = []

/-- The invariants of R41, items 1 to 11. Item 1 is the type of PHASE. -/
structure Inv (s : State) : Prop where
  /-- item 2 -/
  count_iff : s.phase = .count ↔ s.nleaf = 0
  /-- item 2, with "When PHASE = COUNT no entry is valid" (R23) -/
  count_clear : s.phase = .count →
    s.root = 0 ∧ s.cur = 0 ∧ s.encOpen = false ∧ s.decOpen = false ∧ s.nodes = []
  /-- items 3 to 7 -/
  tree : s.phase ≠ .count → TreeOver s.freq s.nodes s.nleaf.toNat
  /-- item 3 -/
  root_eq : s.phase ≠ .count → s.root.toNat = 2 * s.nleaf.toNat - 2
  /-- item 8 -/
  cursor : s.phase ≠ .count → s.cur = s.root ∨
    ∃ (w : Weight) (l r : NodeIx), nodeAt s.nodes s.cur = some (.internal w l r)
  /-- item 8 -/
  cursor_single : s.nleaf = 1 → s.cur = 0 ∧ s.root = 0
  /-- item 9 -/
  fault_closed : s.err ≠ none → s.encOpen = false ∧ s.decOpen = false
  /-- item 10 -/
  enc_ready : s.encOpen = true → s.phase = .ready
  /-- item 10 -/
  dec_tree : s.decOpen = true → s.phase ≠ .count
  /-- item 11 -/
  codes : s.phase = .ready → CodesOf s

/-- What ENCOPEN and DECOPEN say about the channels (R32, R33), as far as a channel that the host may have
emptied shows it, and that the cursor leaves the root only in an open session (R191). -/
structure Sessions (s : State) : Prop where
  enc_flag : ∀ b : BitWord, s.bitOut.getLast? = some b →
    (s.encOpen = true ↔ b = bitWord false ∨ b = bitWord true)
  dec_flag : ∀ y : Sym, s.symOut.getLast? = some (symWord y) → s.decOpen = true
  cursor_open : s.cur ≠ s.root → s.decOpen = true ∨ s.err ≠ none

/-- Every word on an output channel is one the spec lists (R100, R101, R104): no reserved status, no data
beside a status other than OK, no SYMOUT value that is never produced. (Every 2-bit value is a BITOUT beat.) -/
structure OutputsLegal (s : State) : Prop where
  rsp : ∀ q ∈ s.rsp, (∃ d, q = okWord d) ∨ (∃ e, q = errorWord e) ∨ q = faultedWord
  sym : ∀ b ∈ s.symOut, (∃ y, b = symWord y) ∨ b = endWord ∨ b = abortSymWord

/-! ## Comparisons used by the statements -/

/-- An alternative assignment of leaves: a strictly binary tree that carries weights (R142). -/
inductive AltTree where
  | leaf (w : Nat)
  | node (l r : AltTree)
  deriving DecidableEq, Repr

/-- The weights of the leaves, from left to right. -/
def AltTree.weights : AltTree → List Nat
  | .leaf w => [w]
  | .node l r => l.weights ++ r.weights

/-- `Σ leaf.weight × leaf.depth` with the root of the tree at depth `d` (R142). -/
def AltTree.wpl (d : Nat) : AltTree → Nat
  | .leaf w => w * d
  | .node l r => l.wpl (d + 1) + r.wpl (d + 1)

/-- Put an entry in its place in a queue kept in order of key: the sorted list of R144. -/
def insertSorted (e : PqEntry) : List PqEntry → List PqEntry
  | [] => [e]
  | x :: rest => if keyLt e x then e :: x :: rest else x :: insertSorted e rest

/-- The merge loop over a sorted list, which extracts from the front (R144). -/
def mergeSorted : Nat → List Node → List PqEntry → List Node
  | 0, nodes, _ => nodes
  | k + 1, nodes, a :: b :: rest =>
    mergeSorted k (nodes ++ [.internal (a.weight + b.weight) a.index b.index])
      (insertSorted { weight := a.weight + b.weight, index := BitVec.ofNat 9 nodes.length } rest)
  | _ + 1, nodes, [] => nodes
  | _ + 1, nodes, [_] => nodes

/-- The indices in the queue when node `i` is made: the earlier nodes that are not yet a child (R132, R133). -/
def waiting (nodes : List Node) (i : Nat) (j : NodeIx) : Prop :=
  j.toNat < i ∧ j ∉ links (nodes.take i)

/-- `key(i) < key(j)` (R12), read from the node table. -/
def nodeKeyLt (nodes : List Node) (i j : NodeIx) : Prop :=
  ∃ a b : Node, nodeAt nodes i = some a ∧ nodeAt nodes j = some b ∧
    (a.weight < b.weight ∨ (a.weight = b.weight ∧ i < j))

end Sys2Proof.Machine
end

