-- ==== Sys2Proof/Certificates/Slice0/Obligations.lean ====
section
/-!
DEFINITION. The statements about the machine, each a formalisation of a rule of spec/ or of what follows
from several of them. OBLIGATIONS.json lists them with the rules.
-/

open Sys2Proof Sys2Proof.Machine

/-! ## Encodings -/

/-- One word per command, and some illegal ones, as 95_test_vectors.md section 2.1 writes them (R91, R94). -/
def Obligations.SpecWordsDecode : Prop :=
  decode 0x1000 = .ok .clr ∧ decode 0x2061 = .ok (.cnt 0x61) ∧ decode 0x3000 = .ok .bld ∧
  decode 0x4000 = .ok .gen ∧ decode 0x5000 = .ok (.enc 0x00) ∧ decode 0x6000 = .ok .encend ∧
  decode 0x7001 = .ok (.dec true) ∧ decode 0x8000 = .ok .decend ∧ decode 0x9001 = .ok (.fail true) ∧
  decode 0xA000 = .ok .rds ∧ decode 0xA27A = .ok (.rdf 0x7A) ∧ decode 0xA472 = .ok (.rdl 0x72) ∧
  decode 0xA7FF = .ok (.rdnw 511) ∧ decode 0xA9FE = .ok (.rdnl 510) ∧
  decode 0x0000 = .error .opcodeUnassigned ∧ decode 0x2261 = .error .functionNotZero ∧
  decode 0xAA00 = .error .functionUnassigned ∧ decode 0x3001 = .error .operandNotZero ∧
  decode 0xA300 = .error .symbolTooWide ∧ decode 0x7002 = .error .bitTooWide

/-- Decode and encode agree in both directions: no operand bit is dropped (R91, R92), and no bit of a
command word is ignored (R94). -/
def Obligations.DecodeEncodeAgree : Prop :=
  (∀ i : Instr, decode (encode i) = .ok i) ∧
  (∀ (w : Word) (i : Instr), decode w = .ok i → encode i = w)

/-- R94: the illegal words are exactly the six kinds listed; an illegal word raises IllegalCommand, or gets
FAULTED in fault; every bit of a legal word counts. -/
def Obligations.IllegalWords : Prop :=
  ∀ w : Word,
    ((∃ r, decode w = .error r) ↔
      (w.extractLsb' 12 4 = 0x0 ∨ 0xB ≤ w.extractLsb' 12 4) ∨
      (0x1 ≤ w.extractLsb' 12 4 ∧ w.extractLsb' 12 4 ≤ 0x9 ∧ w.extractLsb' 9 3 ≠ 0) ∨
      (w.extractLsb' 12 4 = 0xA ∧ (w.extractLsb' 9 3 = 5 ∨ w.extractLsb' 9 3 = 6 ∨ w.extractLsb' 9 3 = 7)) ∨
      ((w.extractLsb' 9 7 ∈ ([0x08, 0x18, 0x20, 0x30, 0x40, 0x50] : List (BitVec 7))) ∧
        w.extractLsb' 0 9 ≠ 0) ∨
      ((w.extractLsb' 9 7 ∈ ([0x10, 0x28, 0x51, 0x52] : List (BitVec 7))) ∧ w.getLsbD 8 = true) ∨
      ((w.extractLsb' 9 7 ∈ ([0x38, 0x48] : List (BitVec 7))) ∧ w.extractLsb' 1 8 ≠ 0)) ∧
    (∀ (s : State) (r : Reject), decode w = .error r →
      (s.err = none → runWord w s = .next (afterError .illegalCommand s)) ∧
      (s.err ≠ none → runWord w s = .next { s with rsp := s.rsp ++ [faultedWord] })) ∧
    (∀ (v : Word) (i : Instr), decode w = .ok i → decode v = .ok i → v = w)

/-- R91: the fourteen rows with their match and mask, and no word selects two of them. -/
def Obligations.OpcodeRowsDisjoint : Prop :=
  opcodeMap.map (fun r => (r.mnemonic, r.mtch, r.mask)) =
    [("CLR", 0x1000, 0xFFFF), ("CNT", 0x2000, 0xFF00), ("BLD", 0x3000, 0xFFFF), ("GEN", 0x4000, 0xFFFF),
     ("ENC", 0x5000, 0xFF00), ("ENCEND", 0x6000, 0xFFFF), ("DEC", 0x7000, 0xFFFE), ("DECEND", 0x8000, 0xFFFF),
     ("FAIL", 0x9000, 0xFFFE), ("RDS", 0xA000, 0xFFFF), ("RDF", 0xA200, 0xFF00), ("RDL", 0xA400, 0xFF00),
     ("RDNW", 0xA600, 0xFE00), ("RDNL", 0xA800, 0xFE00)] ∧
  ∀ w : Word, ∀ r₁ ∈ opcodeMap, ∀ r₂ ∈ opcodeMap,
    w &&& r₁.mask = r₁.mtch → w &&& r₂.mask = r₂.mtch → r₁.mnemonic = r₂.mnemonic

/-- R93: of the 65536 words, 2058 decode to a command. -/
def Obligations.LegalWordCount : Prop :=
  (Finset.univ.filter fun w : Word => (decode w).toOption.isSome = true).card = 2058

/-- R101: the status codes; 9 to 14 are never produced, and 15 is never stored in ERR. -/
def Obligations.StatusCodes : Prop :=
  Status.ok.code = 0 ∧ (Status.error .sourceUnavailable).code = 1 ∧ (Status.error .sinkUnavailable).code = 2 ∧
  (Status.error .emptyAlphabet).code = 3 ∧ (Status.error .unknownSymbol).code = 4 ∧
  (Status.error .malformedStream).code = 5 ∧ (Status.error .illegalCommand).code = 6 ∧
  (Status.error .badPhase).code = 7 ∧ (Status.error .countOverflow).code = 8 ∧ Status.faulted.code = 15 ∧
  (∀ st : Status, ¬ (9 ≤ st.code ∧ st.code ≤ 14)) ∧ (∀ s : State, errCode s.err ≤ 8)

/-- R103, R104: the beats of the two output channels, and the SYMOUT values that no beat has. -/
def Obligations.BeatWords : Prop :=
  (BitBeat.bit false).word = 0b00 ∧ (BitBeat.bit true).word = 0b01 ∧ BitBeat.close.word = 0b10 ∧
  BitBeat.abort.word = 0b11 ∧ (∀ y : Sym, (SymBeat.sym y).word = (0 : BitVec 2) ++ y) ∧
  SymBeat.finish.word = 0x200 ∧ SymBeat.abort.word = 0x300 ∧
  (∀ x : SymBeat, ¬ (0x100 ≤ x.word ∧ x.word ≤ 0x1FF) ∧
    (x.word.getLsbD 9 = true → x.word.extractLsb' 0 8 = 0))

/-- The words of the three output channels can be read back: a response word is `{st[3:0], data[39:0]}`
(R100), and no two responses or beats share a word (R100 to R104). -/
def Obligations.ChannelWordsReadBack : Prop :=
  (∀ q : Response, q.word.extractLsb' 40 4 = q.st.code ∧ q.word.extractLsb' 0 40 = q.data ∧
    Response.ofWord q.word = some q) ∧
  (∀ x : BitBeat, BitBeat.ofWord x.word = x) ∧ (∀ b : BitWord, (BitBeat.ofWord b).word = b) ∧
  (∀ x : SymBeat, SymBeat.ofWord x.word = some x) ∧
  (∀ (b : SymWord) (x : SymBeat), SymBeat.ofWord b = some x → x.word = b)

/-- R96: a command written in capitals with a decimal operand is read as that command. (The reader's details
that R96 leaves open are log entry 12.) -/
def Obligations.WrittenFormReadsBack : Prop :=
  ∀ i : Instr, Asm.assembleLine (Asm.showInstr i) = some [i]

/-- R97: a pseudo-command stands for one command per character of its string, in order, and an empty
string for no command. Two things here are the model's and not the spec's. That a character stands for its code
point is log entry 19 (PRESUMED; the spec says ASCII, so the codes 128 to 255 have no ground in it). That the
string ends at the next double quote, and that `;` and control characters inside the quotes are characters like
any other, is log entry 12 (DESIGN CHOICE). -/
def Obligations.PseudoCommandsExpand : Prop :=
  (∀ text : List Char, (∀ c ∈ text, c ≠ '"' ∧ c.toNat < 256) →
    Asm.assembleLine (['C', 'N', 'T', 'S', ' ', '"'] ++ text ++ ['"']) =
      some (text.map fun c => .cnt (BitVec.ofNat 8 c.toNat)) ∧
    Asm.assembleLine (['E', 'N', 'C', 'S', ' ', '"'] ++ text ++ ['"']) =
      some (text.map fun c => .enc (BitVec.ofNat 8 c.toNat))) ∧
  (∀ bits : List Bool,
    Asm.assembleLine (['D', 'E', 'C', 'S', ' ', '"'] ++ bits.flatMap Asm.showBit ++ ['"']) =
      some (bits.map .dec))

/-! ## The step and fault entry -/

/-- A step takes the word at the head of CMD and runs the decoded command (R68, R243); an illegal word
raises IllegalCommand, or gets FAULTED in fault (R94); with CMD empty the engine waits (R72). -/
def Obligations.StepRunsHeadCommand : Prop :=
  ∀ s : State,
    (s.cmd = [] → step s = .next s) ∧
    (∀ (w : Word) (rest : List Word), s.cmd = w :: rest →
      (∀ i : Instr, decode w = .ok i → step s = exec i { s with cmd := rest }) ∧
      (∀ r : Reject, decode w = .error r → s.err = none →
        step s = .next (afterError .illegalCommand { s with cmd := rest })) ∧
      (∀ r : Reject, decode w = .error r → s.err ≠ none →
        step s = .next { s with cmd := rest, rsp := s.rsp ++ [faultedWord] }))

/-- The model's own device (log entry 10): `withFetchWord` puts a word at the HEAD of CMD, where the host of R60
appends only at the tail, and the next step runs that word. -/
def Obligations.PlacedWordRunsNext : Prop :=
  ∀ (s : State) (i : Instr), step (s.withFetchWord 16 (encode i).toNat) = exec i s

/-- R244: what `raise E` does to every part of the state. -/
def Obligations.FaultEntry : Prop :=
  ∀ (e : ErrorKind) (s : State), raise e s = afterError e s

/-- R245: in fault every word other than a well-formed `CLR` or `RDS` gets `{15, 0}`, changes no state and
emits no beat. -/
def Obligations.FaultRefusesEveryWord : Prop :=
  ∀ (w : Word) (s : State), s.err ≠ none → decode w ≠ .ok .clr → decode w ≠ .ok .rds →
    runWord w s = .next { s with rsp := s.rsp ++ [faultedWord] }

/-- R241 with the order of checks of R243: the table of errors is complete. A cell with an error is that
error's fault entry; a cell without one answers OK and leaves ERR = 0; in fault only `CLR` and `RDS` run, and
every other word, an illegal one too, gets FAULTED. -/
def Obligations.ErrorTable : Prop :=
  (∀ (w : Word) (r : Reject) (s : State), decode w = .error r →
    (s.err = none → runWord w s = .next (afterError .illegalCommand s)) ∧
    (s.err ≠ none → runWord w s = .next { s with rsp := s.rsp ++ [faultedWord] })) ∧
  ∀ (i : Instr) (s : State),
    (s.err = none → ∀ e : ErrorKind, tableError i s = some e → exec i s = .next (afterError e s)) ∧
    (s.err = none → tableError i s = none → ∀ t : State, exec i s = .next t →
      t.err = none ∧ ∃ d : Data, t.rsp = s.rsp ++ [okWord d]) ∧
    (s.err ≠ none → i ≠ .clr → i ≠ .rds →
      exec i s = .next { s with rsp := s.rsp ++ [faultedWord] }) ∧
    (s.err ≠ none → i = .clr ∨ i = .rds → ∃ (t : State) (d : Data),
      exec i s = .next t ∧ t.rsp = s.rsp ++ [okWord d])

/-- R248: a command that does not answer OK has had no effect but fault entry, or, in fault, none at all. -/
def Obligations.FaultsArePrecise : Prop :=
  ∀ (w : Word) (s t : State), runWord w s = .next t →
    (∃ d : Data, t.rsp = s.rsp ++ [okWord d]) ∨
    (∃ e : ErrorKind, s.err = none ∧ t = afterError e s) ∨
    (s.err ≠ none ∧ t = { s with rsp := s.rsp ++ [faultedWord] })

/-- R31, R246, R247: a latched error is never overwritten; of the commands only `CLR` clears it; ERR becomes
non-zero only together with a response that carries its code. -/
def Obligations.ErrorIsLatched : Prop :=
  ∀ (w : Word) (s t : State), runWord w s = .next t →
    (∀ e : ErrorKind, s.err = some e →
      (decode w = .ok .clr → t.err = none) ∧ (decode w ≠ .ok .clr → t.err = some e)) ∧
    (∀ e : ErrorKind, s.err = none → t.err = some e → t.rsp = s.rsp ++ [errorWord e])

/-- R10, R69, R100: a command appends exactly one response, takes back nothing from a channel, and leaves
the commands behind it alone. -/
def Obligations.OneResponsePerCommand : Prop :=
  ∀ (w : Word) (s t : State), runWord w s = .next t →
    (∃ q : RspWord, t.rsp = s.rsp ++ [q]) ∧ (∃ bs : List BitWord, t.bitOut = s.bitOut ++ bs) ∧
    (∃ ys : List SymWord, t.symOut = s.symOut ++ ys) ∧ t.cmd = s.cmd

/-! ## Counting -/

/-- R120: `CNT y`, its word and what it does. -/
def Obligations.CntEffect : Prop :=
  (∀ y : Sym, decode (0x2000 + y.setWidth 16) = .ok (.cnt y)) ∧
  ∀ (y : Sym) (s : State), s.err = none →
    (s.phase ≠ .count → exec (.cnt y) s = .next (afterError .badPhase s)) ∧
    (s.phase = .count → countOf s.freq y = 0xFFFFFFFF →
      exec (.cnt y) s = .next (afterError .countOverflow s)) ∧
    (s.phase = .count → countOf s.freq y ≠ 0xFFFFFFFF →
      exec (.cnt y) s = .next { s with
        freq := s.freq.set y.toNat (countOf s.freq y + 1) y.isLt
        rsp := s.rsp ++ [okWord ((0 : BitVec 8) ++ (countOf s.freq y + 1))] })

/-- R122 for every value of the parameter FREQ_W (R6): a counter of width `w` counts exactly up to
`2^w - 1` and the increment past it is refused. -/
def Obligations.CountersNeverWrap : Prop :=
  ∀ w : Nat, 1 ≤ w → w ≤ 32 → ∀ (y : Sym) (s : State), s.err = none → s.phase = .count →
    (∀ z : Sym, (countOf s.freq z).toNat < 2 ^ w) →
    ((countOf s.freq y).toNat + 1 < 2 ^ w → ∃ t : State, countCommand w y s = .next t ∧
      t = { s with freq := t.freq, rsp := s.rsp ++ [okWord (BitVec.ofNat 40 ((countOf s.freq y).toNat + 1))] } ∧
      (countOf t.freq y).toNat = (countOf s.freq y).toNat + 1 ∧
      (∀ z : Sym, z ≠ y → countOf t.freq z = countOf s.freq z) ∧
      (∀ z : Sym, (countOf t.freq z).toNat < 2 ^ w)) ∧
    (2 ^ w ≤ (countOf s.freq y).toNat + 1 →
      countCommand w y s = .next (afterError .countOverflow s))

/-- R121: over any sequence of commands without `CLR`, each counter grows by the number of its `CNT`
commands that returned OK, and the sum of all counters by the number of all of them. -/
def Obligations.CountersCountOkCommands : Prop :=
  ∀ (is : List Instr) (s t : State), Instr.clr ∉ is → execAll is s = .next t →
    (∀ y : Sym, (countOf t.freq y).toNat = (countOf s.freq y).toNat + okCounts y is s) ∧
    freqSum t.freq = freqSum s.freq + ((List.range 256).map fun n => okCounts (BitVec.ofNat 8 n) is s).sum

/-! ## Building -/

/-- R143: `BLD` with every count 0. -/
def Obligations.BldEmptyAlphabet : Prop :=
  ∀ s : State, s.err = none → s.phase = .count → (∀ y : Sym, countOf s.freq y = 0) →
    exec .bld s = .next (afterError .emptyAlphabet s)

/-- R130, R131, R136, R139, R140, R141 item 1: with n >= 1 symbols present `BLD` completes, and what it
leaves is a tree over the counts with n leaves; everything it does not write is kept. -/
def Obligations.BldBuildsTree : Prop :=
  ∀ s : State, s.err = none → s.phase = .count → (∃ y : Sym, countOf s.freq y ≠ 0) →
    ∃ nodes : List Node,
      exec .bld s = .next { s with
        nodes := nodes
        nleaf := BitVec.ofNat 9 (presentCount s.freq)
        root := BitVec.ofNat 9 (2 * presentCount s.freq - 2)
        cur := BitVec.ofNat 9 (2 * presentCount s.freq - 2)
        phase := .tree
        rsp := s.rsp ++ [okWord ((0 : BitVec 22) ++ BitVec.ofNat 9 (2 * presentCount s.freq - 2) ++
          BitVec.ofNat 9 (presentCount s.freq))] } ∧
      TreeOver s.freq nodes (presentCount s.freq)

/-- R12, R132, R133, R135, R137, R138: when node i is made, its left child has the least key of all nodes
waiting in the queue, and its right child the least key of the others. -/
def Obligations.BldMergesTwoLeastKeys : Prop :=
  ∀ s t : State, s.err = none → s.phase = .count → exec .bld s = .next t → t.err = none →
    ∀ (i : Nat) (w : Weight) (l r : NodeIx), t.nodes[i]? = some (.internal w l r) →
      waiting t.nodes i l ∧ waiting t.nodes i r ∧ nodeKeyLt t.nodes l r ∧
      (∀ j : NodeIx, waiting t.nodes i j → j ≠ l → j ≠ r → nodeKeyLt t.nodes r j)

/-- R141 item 4: weights of internal nodes do not decrease in creation order. -/
def Obligations.BldWeightsDoNotDecrease : Prop :=
  ∀ s t : State, s.err = none → s.phase = .count → exec .bld s = .next t → t.err = none →
    ∀ (i : Nat) (v w : Weight) (a b c d : NodeIx),
      t.nodes[i]? = some (.internal v a b) → t.nodes[i + 1]? = some (.internal w c d) → v ≤ w

/-- R141 item 5: the tree is a function of FREQ only. -/
def Obligations.BldDependsOnCountsOnly : Prop :=
  ∀ s t u v : State, s.freq = t.freq → s.err = none → t.err = none → s.phase = .count → t.phase = .count →
    (∃ y : Sym, countOf s.freq y ≠ 0) → exec .bld s = .next u → exec .bld t = .next v →
    u.nodes = v.nodes ∧ u.nleaf = v.nleaf ∧ u.root = v.root ∧ u.cur = v.cur ∧ u.freq = v.freq

/-- R142: the weighted path length of the tree `BLD` leaves is at most that of any other strictly binary
tree whose leaves carry the same weights. `depth` is the length of each leaf's path (R161). -/
def Obligations.BldIsOptimal : Prop :=
  ∀ s t : State, s.err = none → s.phase = .count → exec .bld s = .next t → t.err = none →
    ∀ depth : Nat → Nat,
      (∀ j < t.nleaf.toNat, ∃ p : List Bool,
        PathTo t.nodes t.root (BitVec.ofNat 9 j) p ∧ p.length = depth j) →
      ∀ alt : AltTree,
        alt.weights.Perm ((t.nodes.take t.nleaf.toNat).map fun n => n.weight.toNat) →
        ((List.range t.nleaf.toNat).map fun j =>
          ((t.nodes[j]?.map fun n => n.weight.toNat).getD 0) * depth j).sum ≤ alt.wpl 0

/-- R144: a list kept in order of key and extracted from its front is a correct realisation of the queue:
it gives the same node table. -/
def Obligations.SortedListQueueIsCorrect : Prop :=
  ∀ freq : Vector Count 256,
    mergeSorted (leafScan freq).length (leafScan freq)
      ((initQueue (leafScan freq)).foldr insertSorted []) = buildNodes (leafScan freq)

/-! ## Code generation -/

/-- R160 to R163: `GEN` completes on the tree of phase TREE, writes all of CODE as the rules say, and keeps
everything else; in another phase it raises BadPhase. -/
def Obligations.GenWritesPaths : Prop :=
  decode 0x4000 = .ok .gen ∧
  ∀ s : State, s.err = none →
    (s.phase ≠ .tree → exec .gen s = .next (afterError .badPhase s)) ∧
    (s.phase = .tree → Inv s → ∃ code : Vector CodeRec 256,
      exec .gen s = .next { s with code := code, phase := .ready, rsp := s.rsp ++ [okWord 0] } ∧
      CodesOf { s with code := code, phase := .ready })

/-- R161: `path` is well defined on the tree: every valid node has exactly one path. -/
def Obligations.EveryNodeHasOnePath : Prop :=
  ∀ s : State, Inv s → s.phase ≠ .count → ∀ i : NodeIx, i.toNat < s.nodes.length →
    ∃ p : List Bool, PathTo s.nodes s.root i p ∧ ∀ q : List Bool, PathTo s.nodes s.root i q → q = p

/-- R164: prefix-freedom. -/
def Obligations.CodesArePrefixFree : Prop :=
  ∀ s : State, Inv s → s.phase = .ready → ∀ y z : Sym, y ≠ z →
    (getCode s y).bits ≠ [] → (getCode s z).bits ≠ [] → ¬ (getCode s y).bits <+: (getCode s z).bits

/-- R166: the lengths of the codes and the Kraft sum, scaled by 2^255. -/
def Obligations.CodeLengthsAndKraftSum : Prop :=
  ∀ s : State, Inv s → s.phase = .ready →
    (∀ y : Sym, (codeLen (getCode s y)).toNat = (getCode s y).bits.length) ∧
    (2 ≤ s.nleaf.toNat →
      (∀ y : Sym, (getCode s y).bits ≠ [] →
        1 ≤ (getCode s y).bits.length ∧ (getCode s y).bits.length ≤ s.nleaf.toNat - 1) ∧
      ((s.code.toList.filter fun c => !c.bits.isEmpty).map fun c => 2 ^ (255 - c.bits.length)).sum = 2 ^ 255) ∧
    (s.nleaf = 1 →
      (∀ y : Sym, (getCode s y).bits ≠ [] → (getCode s y).bits.length = 1) ∧
      ((s.code.toList.filter fun c => !c.bits.isEmpty).map fun c => 2 ^ (255 - c.bits.length)).sum = 2 ^ 254)

/-- R41 item 11, R163, R178: with a code table in place the symbols that have a code are exactly those with a
non-zero count, so a symbol that was counted never raises UnknownSymbol. -/
def Obligations.CodesExactlyForCountedSymbols : Prop :=
  ∀ s : State, Inv s → s.phase = .ready → ∀ y : Sym,
    (codeLen (getCode s y) ≠ 0 ↔ countOf s.freq y ≠ 0) ∧
    (s.err = none → countOf s.freq y ≠ 0 → ∃ t : State, exec (.enc y) s = .next t ∧ t.err = none)

/-! ## Serializer -/

/-- R175: `ENC y`, its word and what it does. -/
def Obligations.EncEffect : Prop :=
  (∀ y : Sym, decode (0x5000 + y.setWidth 16) = .ok (.enc y)) ∧
  ∀ (y : Sym) (s : State), s.err = none →
    (s.phase ≠ .ready → exec (.enc y) s = .next (afterError .badPhase s)) ∧
    (s.phase = .ready → codeLen (getCode s y) = 0 →
      exec (.enc y) s = .next (afterError .unknownSymbol s)) ∧
    (s.phase = .ready → codeLen (getCode s y) ≠ 0 →
      exec (.enc y) s = .next { s with
        encOpen := true
        bitOut := s.bitOut ++ (getCode s y).bits.map bitWord
        rsp := s.rsp ++ [okWord ((0 : BitVec 32) ++ codeLen (getCode s y))] })

/-- R176: `ENCEND`, its word and what it does. -/
def Obligations.EncendEffect : Prop :=
  decode 0x6000 = .ok .encend ∧
  ∀ s : State, s.err = none →
    (s.phase ≠ .ready → exec .encend s = .next (afterError .badPhase s)) ∧
    (s.phase = .ready → exec .encend s = .next { s with
      encOpen := false, bitOut := s.bitOut ++ [closeWord], rsp := s.rsp ++ [okWord 0] })

/-- R177: the beats of a session are the codes of its symbols one after the other, and the responses give
their lengths. -/
def Obligations.SessionIsConcatenation : Prop :=
  ∀ (input : List Sym) (s : State), s.err = none → s.phase = .ready →
    (∀ y ∈ input, codeLen (getCode s y) ≠ 0) →
    execAll (encs input) s = .next { s with
      encOpen := s.encOpen || !input.isEmpty
      bitOut := s.bitOut ++ (input.flatMap fun y => (getCode s y).bits).map bitWord
      rsp := s.rsp ++ input.map fun y => okWord ((0 : BitVec 32) ++ codeLen (getCode s y)) }

/-! ## Deserializer -/

/-- R190, R192: `DEC b`, its word and what it does, by the entries it reads. -/
def Obligations.DecEffect : Prop :=
  decode 0x7000 = .ok (.dec false) ∧ decode 0x7001 = .ok (.dec true) ∧
  ∀ (b : Bool) (s : State), s.err = none →
    (s.phase = .count → exec (.dec b) s = .next (afterError .badPhase s)) ∧
    (∀ (y : Sym) (v : Weight), s.phase ≠ .count → s.nleaf = 1 → nodeAt s.nodes s.root = some (.leaf y v) →
      exec (.dec b) s = .next { s with
        decOpen := true
        symOut := s.symOut ++ [symWord y]
        rsp := s.rsp ++ [okWord ((0 : BitVec 31) ++ (1 : BitVec 1) ++ y)] }) ∧
    (∀ (w : Weight) (l r c : NodeIx), s.phase ≠ .count → s.nleaf ≠ 1 →
      nodeAt s.nodes s.cur = some (.internal w l r) → c = (if b = true then r else l) →
      (∀ (y : Sym) (v : Weight), nodeAt s.nodes c = some (.leaf y v) →
        exec (.dec b) s = .next { s with
          cur := s.root
          decOpen := true
          symOut := s.symOut ++ [symWord y]
          rsp := s.rsp ++ [okWord ((0 : BitVec 31) ++ (1 : BitVec 1) ++ y)] }) ∧
      (∀ (v : Weight) (l' r' : NodeIx), nodeAt s.nodes c = some (.internal v l' r') →
        exec (.dec b) s = .next { s with
          cur := c, decOpen := true, rsp := s.rsp ++ [okWord 0] }))

/-- R191: `DECEND`, its word and what it does. -/
def Obligations.DecendEffect : Prop :=
  decode 0x8000 = .ok .decend ∧
  ∀ s : State, s.err = none →
    (s.phase = .count → exec .decend s = .next (afterError .badPhase s)) ∧
    (s.phase ≠ .count → s.cur ≠ s.root → exec .decend s = .next (afterError .malformedStream s)) ∧
    (s.phase ≠ .count → s.cur = s.root → exec .decend s = .next { s with
      decOpen := false, symOut := s.symOut ++ [endWord], rsp := s.rsp ++ [okWord 0] })

/-- R190, R193: from the root, the bits of a node's path lead the cursor to an internal node and emit
nothing, or to a leaf, whose symbol is emitted, and back to the root. -/
def Obligations.DecRetracesPaths : Prop :=
  ∀ s : State, Inv s → s.err = none → s.phase ≠ .count → s.nleaf ≠ 1 → s.cur = s.root →
    ∀ (i : NodeIx) (p : List Bool), PathTo s.nodes s.root i p → p ≠ [] →
      (∀ (w : Weight) (l r : NodeIx), nodeAt s.nodes i = some (.internal w l r) →
        ∃ t : State, execAll (decs p) s = .next t ∧
          t = { s with cur := i, decOpen := true, rsp := t.rsp }) ∧
      (∀ (y : Sym) (w : Weight), nodeAt s.nodes i = some (.leaf y w) →
        ∃ t : State, execAll (decs p) s = .next t ∧
          t = { s with decOpen := true, symOut := s.symOut ++ [symWord y], rsp := t.rsp })

/-- R191, R195 (a): a stream cut inside a code is detected: no symbol is emitted for it, and `DECEND`
raises MalformedStream. -/
def Obligations.TruncationInsideCodeIsDetected : Prop :=
  ∀ s : State, Inv s → s.err = none → s.phase = .ready → s.nleaf ≠ 1 → s.cur = s.root →
    ∀ (y : Sym) (p q : List Bool), (getCode s y).bits = p ++ q → p ≠ [] → q ≠ [] →
      ∃ t : State, execAll (decs p) s = .next t ∧ t.symOut = s.symOut ∧
        exec .decend t = .next (afterError .malformedStream t)

/-- R194: the round-trip law. -/
def Obligations.RoundTrip : Prop :=
  ∀ input : List Sym, input ≠ [] → (∀ y : Sym, input.count y ≤ 2 ^ 32 - 1) →
    ∃ (t : State) (bits : List Bool),
      execAll (compressJob input) State.reset = .next t ∧
      t.rsp.length = (compressJob input).length ∧ (∀ q ∈ t.rsp, ∃ d, q = okWord d) ∧
      t.bitOut = bits.map bitWord ++ [closeWord] ∧ t.symOut = [] ∧
      ∃ u : State, execAll (decompressJob bits) t = .next u ∧
        u.rsp.length = t.rsp.length + (decompressJob bits).length ∧ (∀ q ∈ u.rsp, ∃ d, q = okWord d) ∧
        u.symOut = input.map symWord ++ [endWord] ∧ u.bitOut = t.bitOut

/-- R74: an encoder command and a decoder command that both succeed can be exchanged: neither changes the
other's beats or response word, the two response words come in the order of the commands, and all else ends the
same. -/
def Obligations.SessionsAreIndependent : Prop :=
  ∀ (i j : Instr) (s t u : State), (∃ y, i = .enc y) ∨ i = .encend → (∃ b, j = .dec b) ∨ j = .decend →
    s.err = none → exec i s = .next t → t.err = none → exec j s = .next u → u.err = none →
    ∃ v w : State, exec j t = .next v ∧ exec i u = .next w ∧
      { v with rsp := [] } = { w with rsp := [] } ∧
      (∃ p q : RspWord, t.rsp = s.rsp ++ [p] ∧ u.rsp = s.rsp ++ [q] ∧
        v.rsp = s.rsp ++ [p, q] ∧ w.rsp = s.rsp ++ [q, p]) ∧ v.bitOut = t.bitOut ∧ v.symOut = u.symOut ∧
      t.nodes = s.nodes ∧ t.cur = s.cur ∧ t.decOpen = s.decOpen ∧ t.symOut = s.symOut ∧
      u.code = s.code ∧ u.encOpen = s.encOpen ∧ u.bitOut = s.bitOut

/-! ## Control and read-back -/

/-- R210: `CLR`, its word and what it does, in fault too. What CODE then holds is left open (R40). -/
def Obligations.ClrEffect : Prop :=
  decode 0x1000 = .ok .clr ∧
  ∀ s : State, ∃ code : Vector CodeRec 256, exec .clr s = .next { State.reset with
    code := code
    cmd := s.cmd
    bitOut := s.bitOut ++ (if s.encOpen = true then [abortBitWord] else [])
    symOut := s.symOut ++ (if s.decOpen = true then [abortSymWord] else [])
    rsp := s.rsp ++ [okWord 0] }

/-- R39, R280: the reset values the spec gives, and STATUS at reset. -/
def Obligations.ResetValues : Prop :=
  (∀ y : Sym, countOf State.reset.freq y = 0) ∧ State.reset.phase = .count ∧ State.reset.err = none ∧
  State.reset.nleaf = 0 ∧ State.reset.root = 0 ∧ State.reset.cur = 0 ∧ State.reset.encOpen = false ∧
  State.reset.decOpen = false ∧ statusWord State.reset = 0 ∧ State.reset.nodes = [] ∧
  State.reset.cmd = [] ∧ State.reset.rsp = [] ∧ State.reset.bitOut = [] ∧ State.reset.symOut = []

/-- R281: the engine state after `CLR` is that after reset; reset empties the channels, `CLR` only appends.
That CODE too is equal is the model's own choice (log entry 4). -/
def Obligations.ClearAndResetCompared : Prop :=
  ∀ s t : State, exec .clr s = .next t →
    { t with cmd := [], rsp := [], bitOut := [], symOut := [] } = hostAct .assertReset s ∧
    t.cmd = s.cmd ∧ s.rsp <+: t.rsp ∧ s.bitOut <+: t.bitOut ∧ s.symOut <+: t.symOut

/-- R211: `FAIL k`, its words and what it does: it raises its error in every phase, and is refused in fault. -/
def Obligations.FailRaises : Prop :=
  decode 0x9000 = .ok (.fail false) ∧ decode 0x9001 = .ok (.fail true) ∧
  ∀ s : State,
    (s.err = none → exec (.fail false) s = .next (afterError .sourceUnavailable s) ∧
      exec (.fail true) s = .next (afterError .sinkUnavailable s)) ∧
    (s.err ≠ none → ∀ k : Bool, exec (.fail k) s = .next { s with rsp := s.rsp ++ [faultedWord] })

/-- R212, R34: `RDS` answers STATUS, in fault too, and changes nothing; each field of STATUS is where R34
puts it. -/
def Obligations.RdsReadsStatus : Prop :=
  decode 0xA000 = .ok .rds ∧
  ∀ s : State, ∃ st : Data,
    exec .rds s = .next { s with rsp := s.rsp ++ [okWord st] } ∧
    st.extractLsb' 0 2 = s.phase.code ∧ st.getLsbD 2 = s.encOpen ∧ st.getLsbD 3 = s.decOpen ∧
    st.extractLsb' 4 4 = errCode s.err ∧ st.extractLsb' 8 9 = s.nleaf ∧ st.extractLsb' 17 9 = s.root ∧
    st.extractLsb' 26 9 = s.cur ∧ st.extractLsb' 35 5 = 0

/-- R213, R214: `RDF y` and `RDL y`, their words and what they do. -/
def Obligations.RdfRdlEffect : Prop :=
  (∀ y : Sym, decode (0xA200 + y.setWidth 16) = .ok (.rdf y) ∧
    decode (0xA400 + y.setWidth 16) = .ok (.rdl y)) ∧
  ∀ (y : Sym) (s : State),
    (s.err = none →
      exec (.rdf y) s = .next { s with rsp := s.rsp ++ [okWord ((0 : BitVec 8) ++ countOf s.freq y)] }) ∧
    (s.err = none → s.phase = .ready →
      exec (.rdl y) s = .next { s with rsp := s.rsp ++ [okWord ((0 : BitVec 32) ++ codeLen (getCode s y))] }) ∧
    (s.err = none → s.phase ≠ .ready → exec (.rdl y) s = .next { s with rsp := s.rsp ++ [okWord 0] }) ∧
    (s.err ≠ none → exec (.rdf y) s = .next { s with rsp := s.rsp ++ [faultedWord] } ∧
      exec (.rdl y) s = .next { s with rsp := s.rsp ++ [faultedWord] })

/-- R215, R216: `RDNW i` and `RDNL i`, their words and what they do, for a valid entry of each kind and for an
index that names none; and, in a state that meets R41, every valid node weighs at least 1 and 511 is never
valid. -/
def Obligations.RdnwRdnlEffect : Prop :=
  (∀ i : NodeIx, decode (0xA600 + i.setWidth 16) = .ok (.rdnw i) ∧
    decode (0xA800 + i.setWidth 16) = .ok (.rdnl i)) ∧
  (∀ (i : NodeIx) (s : State), s.err ≠ none →
    exec (.rdnw i) s = .next { s with rsp := s.rsp ++ [faultedWord] } ∧
    exec (.rdnl i) s = .next { s with rsp := s.rsp ++ [faultedWord] }) ∧
  (∀ s : State, Inv s → s.err = none →
    exec (.rdnw 511) s = .next { s with rsp := s.rsp ++ [okWord 0] } ∧
    exec (.rdnl 511) s = .next { s with rsp := s.rsp ++ [okWord 0] } ∧
    ∀ i : NodeIx, s.phase ≠ .count → i.toNat ≤ 2 * s.nleaf.toNat - 2 → ∃ w : Weight, 1 ≤ w.toNat ∧
      exec (.rdnw i) s = .next { s with rsp := s.rsp ++ [okWord w] }) ∧
  ∀ (i : NodeIx) (s : State), s.err = none →
    (s.phase = .count ∨ 2 * s.nleaf.toNat - 2 < i.toNat →
      exec (.rdnw i) s = .next { s with rsp := s.rsp ++ [okWord 0] } ∧
      exec (.rdnl i) s = .next { s with rsp := s.rsp ++ [okWord 0] }) ∧
    (s.phase ≠ .count → i.toNat ≤ 2 * s.nleaf.toNat - 2 →
      (∀ (y : Sym) (w : Weight), s.nodes[i.toNat]? = some (.leaf y w) →
        exec (.rdnw i) s = .next { s with rsp := s.rsp ++ [okWord w] } ∧
        exec (.rdnl i) s = .next { s with
          rsp := s.rsp ++ [okWord ((0 : BitVec 30) ++ y ++ (1 : BitVec 2))] }) ∧
      (∀ (w : Weight) (l r : NodeIx), s.nodes[i.toNat]? = some (.internal w l r) →
        exec (.rdnw i) s = .next { s with rsp := s.rsp ++ [okWord w] } ∧
        exec (.rdnl i) s = .next { s with
          rsp := s.rsp ++ [okWord ((0 : BitVec 12) ++ r ++ l ++ (0 : BitVec 8) ++ (2 : BitVec 2))] }))

/-- R66: a read-back command changes nothing but RSP, and repeated it gives the same answer. -/
def Obligations.ReadsAreIdempotent : Prop :=
  ∀ (i : Instr) (s : State), isRead i = true → ∃ q : RspWord,
    exec i s = .next { s with rsp := s.rsp ++ [q] } ∧
    exec i { s with rsp := s.rsp ++ [q] } = .next { s with rsp := s.rsp ++ [q] ++ [q] }

/-! ## Rules about the whole machine -/

/-- R30: PHASE moves only COUNT to TREE by `BLD`, TREE to READY by `GEN`, and back to COUNT by `CLR`. -/
def Obligations.PhaseMoves : Prop :=
  ∀ (i : Instr) (s t : State), exec i s = .next t → t.phase ≠ s.phase →
    (i = .bld ∧ s.phase = .count ∧ t.phase = .tree) ∨ (i = .gen ∧ s.phase = .tree ∧ t.phase = .ready) ∨
    (i = .clr ∧ t.phase = .count)

/-- R22, R23, R25: which command may change which table. FREQ changes only in phase COUNT, by `CNT`, in one
entry; NODE is written only by `BLD`, CODE only by `GEN`; `CLR` wipes all. -/
def Obligations.TablesAreFrozen : Prop :=
  ∀ (i : Instr) (s t : State), exec i s = .next t → i ≠ .clr →
    (t.freq ≠ s.freq → s.phase = .count ∧ ∃ y : Sym, i = .cnt y ∧
      ∀ z : Sym, z ≠ y → countOf t.freq z = countOf s.freq z) ∧
    (t.nodes ≠ s.nodes → i = .bld ∧ s.phase = .count ∧ t.phase = .tree) ∧
    (t.code ≠ s.code → i = .gen ∧ s.phase = .tree ∧ t.phase = .ready)

/-- R40, R282: what NODE holds in phase COUNT and what CODE holds before phase READY cannot be observed, then
or later: it changes no response, no beat, no register and no table that is valid afterwards. -/
def Obligations.InvalidEntriesAreUnobservable : Prop :=
  ∀ (w : Word) (s t : State) (nodes : List Node) (code : Vector CodeRec 256),
    (s.phase ≠ .count → nodes = s.nodes) → (s.phase = .ready → code = s.code) → runWord w s = .next t →
    ∃ u : State, runWord w { s with nodes := nodes, code := code } = .next u ∧
      { u with nodes := t.nodes, code := t.code } = t ∧
      (t.phase ≠ .count → u.nodes = t.nodes) ∧ (t.phase = .ready → u.code = t.code)

/-- R41 at reset, with what the flags and the output channels satisfy there. -/
def Obligations.ResetMeetsInvariants : Prop :=
  Inv State.reset ∧ Sessions State.reset ∧ OutputsLegal State.reset

/-- R41, items 1 to 11: every step of the engine and every action of the host keeps the invariants. (A take
from an empty channel changes nothing: the model's choice, log entry 13.) -/
def Obligations.EventsKeepInvariant : Prop :=
  ∀ (e : Event) (s t : State), Inv s → happen e s = .next t → Inv t

/-- R32, R33, R191: every event keeps what ENCOPEN and DECOPEN say about the channels. (A take from an empty
channel changes nothing: the model's choice, log entry 13.) -/
def Obligations.EventsKeepSessions : Prop :=
  ∀ (e : Event) (s t : State), Sessions s → happen e s = .next t → Sessions t

/-- R101, R104: every event keeps the output channels to the words the spec lists. (A take from an empty channel
changes nothing: the model's choice, log entry 13.) -/
def Obligations.EventsKeepOutputsLegal : Prop :=
  ∀ (e : Event) (s t : State), OutputsLegal s → happen e s = .next t → OutputsLegal t

/-- R244, R252, R103, R104: whatever leaves the engine in fault completes no stream, and the partial output is
discarded: the sink and the consumer are left with the complete streams of before and nothing pending. -/
def Obligations.PartialOutputIsDiscarded : Prop :=
  ∀ (w : Word) (s t : State), Inv s → Sessions s → runWord w s = .next t → t.err ≠ none →
    readBits [] t.bitOut = ((readBits [] s.bitOut).1, []) ∧
    ∀ (done : List (List Sym)) (pending : List Sym), readSymbols [] s.symOut = some (done, pending) →
      readSymbols [] t.symOut = some (done, [])

/-- R296, with R193: in a state that meets the invariants every command word completes: no fault, no refusal. -/
def Obligations.InvariantStatesNeverStop : Prop :=
  ∀ (w : Word) (s : State), Inv s → ∃ t : State, runWord w s = .next t

/-- R75, R250: an event of one instance changes no other, and depends on no other. (That several instances are a
list of states is the model's form, log entry 17.) -/
def Obligations.InstancesAreIsolated : Prop :=
  ∀ (k m : Nat) (e : Event) (a b : List State),
    (m ≠ k → (happenAt k e a)[m]? = a[m]?) ∧
    (a[k]? = b[k]? → (happenAt k e a)[k]? = (happenAt k e b)[k]?)
end

