-- ==== Sys2Proof/Laws/Queue.lean ====
section
/-!
SUPPORT. The priority queue of `BLD` (spec/41_build.md R132, R135, R145): its order is a strict total order
on (weight, index), and `extractMin` takes the one member of least key.
-/

namespace Sys2Proof.Machine

theorem keyLt_iff (a b : PqEntry) : keyLt a b = true ↔
    a.weight.toNat < b.weight.toNat ∨
      (a.weight.toNat = b.weight.toNat ∧ a.index.toNat < b.index.toNat) := by
  simp [keyLt, BitVec.lt_def, BitVec.toNat_inj]

theorem keyLt_irrefl (a : PqEntry) : keyLt a a = false := by
  rw [← Bool.not_eq_true, keyLt_iff]; omega

theorem keyLt_trans {a b c : PqEntry} (h : keyLt a b = true) (h' : keyLt b c = true) :
    keyLt a c = true := by
  rw [keyLt_iff] at *; omega

/-- Two different members are ordered one way or the other (R12). -/
theorem keyLt_total {a b : PqEntry} (h : a ≠ b) : keyLt a b = true ∨ keyLt b a = true := by
  rw [keyLt_iff, keyLt_iff]
  by_contra hc
  have hw : a.weight = b.weight := BitVec.eq_of_toNat_eq (by omega)
  have hi : a.index = b.index := BitVec.eq_of_toNat_eq (by omega)
  exact h (by cases a; cases b; simp_all)

theorem keyLt_of_not {a b : PqEntry} (h : a ≠ b) (hn : keyLt b a = false) : keyLt a b = true := by
  rcases keyLt_total h with h' | h'
  · exact h'
  · simp [hn] at h'

theorem leastOf_mem (m : PqEntry) (l : List PqEntry) : leastOf m l ∈ m :: l := by
  induction l generalizing m with
  | nil => simp [leastOf]
  | cons e rest ih =>
    rw [leastOf]
    rcases List.mem_cons.1 (ih (if keyLt e m then e else m)) with h | h
    · rw [h]; split <;> simp
    · simp [h]

theorem leastOf_le (m : PqEntry) (l : List PqEntry) : ∀ x ∈ m :: l, keyLt x (leastOf m l) = false := by
  induction l generalizing m with
  | nil => simp [leastOf, keyLt_irrefl]
  | cons e rest ih =>
    intro x hx
    rw [leastOf]
    have hhead := ih (if keyLt e m then e else m) (if keyLt e m then e else m) (by simp)
    rcases List.mem_cons.1 hx with rfl | hx
    · by_cases he : keyLt e x = true
      · simp only [he, if_true] at hhead ⊢
        by_contra hc
        rw [Bool.not_eq_false] at hc
        exact absurd (keyLt_trans he hc) (by simp [hhead])
      · simpa [he] using hhead
    · rcases List.mem_cons.1 hx with rfl | hx
      · by_cases he : keyLt x m = true
        · simp only [he, if_true] at hhead ⊢; exact hhead
        · simp only [he] at hhead ⊢
          by_contra hc
          rw [Bool.not_eq_false] at hc
          rw [keyLt_iff] at hc he
          rw [← Bool.not_eq_true, keyLt_iff] at hhead
          simp only [Bool.false_eq_true, if_false] at hc hhead
          omega
      · exact ih _ x (by simp [hx])

/-- `extractMin` says which member it takes: one of the queue, with no other below it (R135). -/
theorem extractMin_spec {pq rest : List PqEntry} {a : PqEntry} (h : extractMin pq = some (a, rest)) :
    a ∈ pq ∧ rest = pq.erase a ∧ ∀ x ∈ pq, keyLt x a = false := by
  cases pq with
  | nil => simp [extractMin] at h
  | cons e l =>
    simp only [extractMin, Option.some.injEq, Prod.mk.injEq] at h
    obtain ⟨rfl, rfl⟩ := h
    exact ⟨leastOf_mem e l, rfl, leastOf_le e l⟩

theorem extractMin_perm {pq rest : List PqEntry} {a : PqEntry} (h : extractMin pq = some (a, rest)) :
    pq.Perm (a :: rest) := by
  obtain ⟨ha, rfl, -⟩ := extractMin_spec h
  exact List.perm_cons_erase ha

theorem extractMin_isSome {pq : List PqEntry} (h : pq ≠ []) : ∃ a rest, extractMin pq = some (a, rest) := by
  cases pq with
  | nil => exact absurd rfl h
  | cons e l => exact ⟨_, _, rfl⟩

end Sys2Proof.Machine
end

