-- ==== Sys2Proof/Laws/Build.lean ====
section
/-!
SUPPORT. The merge loop of `BLD` (spec/41_build.md R133 to R139): what one merge keeps, and so what the loop
ends with. `Merging` is the loop's invariant.
-/

namespace Sys2Proof.Machine

/-! ## Links and look-up under append -/

@[simp] theorem Node.weight_leaf (y : Sym) (w : Weight) : (Node.leaf y w).weight = w := rfl

@[simp] theorem Node.weight_internal (w : Weight) (l r : NodeIx) : (Node.internal w l r).weight = w := rfl

@[simp] theorem links_nil : links [] = [] := rfl

theorem links_append (a b : List Node) : links (a ++ b) = links a ++ links b := by
  induction a with
  | nil => rfl
  | cons n rest ih => cases n <;> simp [links, ih]

@[simp] theorem links_internal (w : Weight) (l r : NodeIx) : links [.internal w l r] = [l, r] := rfl

theorem links_of_leaves {ns : List Node} (h : ∀ n ∈ ns, ∃ y w, n = .leaf y w) : links ns = [] := by
  induction ns with
  | nil => rfl
  | cons n rest ih =>
    obtain ⟨y, w, rfl⟩ := h n (by simp)
    simpa [links] using ih fun m hm => h m (by simp [hm])

theorem nodeAt_append_left {ns : List Node} {i : NodeIx} {a : Node} (ms : List Node)
    (h : nodeAt ns i = some a) : nodeAt (ns ++ ms) i = some a := by
  unfold nodeAt at *
  rw [List.getElem?_append_left (List.getElem?_eq_some_iff.1 h).1]; exact h

theorem nodeAt_lt {ns : List Node} {i : NodeIx} {a : Node} (h : nodeAt ns i = some a) :
    i.toNat < ns.length := (List.getElem?_eq_some_iff.1 h).1

theorem mem_range_ix {j : NodeIx} {n : Nat} :
    j ∈ (List.range n).map (BitVec.ofNat 9) → n ≤ 512 → j.toNat < n := by
  intro h hn
  obtain ⟨k, hk, rfl⟩ := List.mem_map.1 h
  have := List.mem_range.1 hk
  rw [BitVec.toNat_ofNat, Nat.mod_eq_of_lt (by omega)]; exact this

theorem ix_mem_range {j : NodeIx} {n : Nat} (h : j.toNat < n) :
    j ∈ (List.range n).map (BitVec.ofNat 9) :=
  List.mem_map.2 ⟨j.toNat, List.mem_range.2 h, by simp⟩

theorem nodup_range_ix {n : Nat} (h : n ≤ 512) : ((List.range n).map (BitVec.ofNat 9)).Nodup := by
  refine List.Nodup.map_on ?_ List.nodup_range
  intro a ha b hb hab
  have ha := List.mem_range.1 ha
  have hb := List.mem_range.1 hb
  have := congrArg BitVec.toNat hab
  rwa [BitVec.toNat_ofNat, BitVec.toNat_ofNat, Nat.mod_eq_of_lt (by omega), Nat.mod_eq_of_lt (by omega)] at this

/-! ## The invariant of the loop -/

/-- What holds each time round the loop of R130, with `leaves` the result of the leaf scan. -/
structure Merging (leaves nodes : List Node) (pq : List PqEntry) : Prop where
  all_leaves : ∀ n ∈ leaves, ∃ y w, n = .leaf y w
  le_nsym : leaves.length ≤ 256
  no_overflow : (leaves.map fun n => n.weight.toNat).sum < 2 ^ 40
  starts : ∃ inner, nodes = leaves ++ inner
  pq_pos : 0 < pq.length
  size : nodes.length + pq.length = 2 * leaves.length
  entry : ∀ e ∈ pq, ∃ a, nodeAt nodes e.index = some a ∧ a.weight = e.weight
  used : (links nodes ++ pq.map PqEntry.index).Perm ((List.range nodes.length).map (BitVec.ofNat 9))
  weights : (pq.map fun e => e.weight.toNat).sum = (leaves.map fun n => n.weight.toNat).sum
  internal : ∀ i, leaves.length ≤ i → i < nodes.length →
    ∃ (w : Weight) (l r : NodeIx) (a b : Node), nodes[i]? = some (.internal w l r) ∧
      l.toNat < i ∧ r.toNat < i ∧ l ≠ r ∧ nodeAt nodes l = some a ∧ nodeAt nodes r = some b ∧
      w.toNat = a.weight.toNat + b.weight.toNat

namespace Merging

variable {leaves nodes : List Node} {pq : List PqEntry}

theorem length_lt (h : Merging leaves nodes pq) : nodes.length < 512 := by
  have := h.size; have := h.pq_pos; have := h.le_nsym; omega

theorem nodup (h : Merging leaves nodes pq) : (links nodes ++ pq.map PqEntry.index).Nodup :=
  h.used.nodup_iff.2 (nodup_range_ix (by have := h.length_lt; omega))

/-- The queue holds the nodes that are not yet a child (R132, R133). -/
theorem mem_queue_iff (h : Merging leaves nodes pq) (j : NodeIx) :
    j ∈ pq.map PqEntry.index ↔ j.toNat < nodes.length ∧ j ∉ links nodes := by
  have hd := List.nodup_append.1 h.nodup
  constructor
  · intro hj
    refine ⟨mem_range_ix (h.used.mem_iff.1 (List.mem_append_right _ hj)) (by have := h.length_lt; omega), ?_⟩
    exact fun hl => hd.2.2 _ hl _ hj rfl
  · rintro ⟨hlt, hn⟩
    exact (List.mem_append.1 (h.used.mem_iff.2 (ix_mem_range hlt))).resolve_left hn

/-- One merge keeps the invariant (R133, R138, R139, R145). -/
theorem step {a b : PqEntry} {rest : List PqEntry} (h : Merging leaves nodes pq)
    (hp : pq.Perm (a :: b :: rest)) :
    Merging leaves (nodes ++ [.internal (a.weight + b.weight) a.index b.index])
      (insertPq { weight := a.weight + b.weight, index := BitVec.ofNat 9 nodes.length } rest) := by
  have hlen := h.length_lt
  have hplen := hp.length_eq
  have hsum : a.weight.toNat + (b.weight.toNat + (rest.map fun e => e.weight.toNat).sum) =
      (leaves.map fun n => n.weight.toNat).sum := by
    rw [← h.weights, ((hp.map fun e => e.weight.toNat).sum_eq)]; simp
  have hadd : (a.weight + b.weight).toNat = a.weight.toNat + b.weight.toNat := by
    rw [BitVec.toNat_add, Nat.mod_eq_of_lt]; have := h.no_overflow; omega
  obtain ⟨na, hna, hwa⟩ := h.entry a (hp.mem_iff.2 (by simp))
  obtain ⟨nb, hnb, hwb⟩ := h.entry b (hp.mem_iff.2 (by simp))
  have hnd : ((a :: b :: rest).map PqEntry.index).Nodup :=
    (hp.map PqEntry.index).nodup_iff.1 (List.nodup_append.1 h.nodup).2.1
  have hab : a.index ≠ b.index := by
    simp only [List.map_cons, List.nodup_cons, List.mem_cons, not_or] at hnd
    exact hnd.1.1
  refine
    { all_leaves := h.all_leaves
      le_nsym := h.le_nsym
      no_overflow := h.no_overflow
      starts := ?_, pq_pos := by simp [insertPq], size := ?_, entry := ?_, used := ?_, weights := ?_,
      internal := ?_ }
  · obtain ⟨inner, hi⟩ := h.starts
    exact ⟨inner ++ [.internal (a.weight + b.weight) a.index b.index], by rw [hi, List.append_assoc]⟩
  · have := h.size
    simp only [insertPq, List.length_append, List.length_cons, List.length_nil] at hplen ⊢
    omega
  · intro e he
    rcases List.mem_append.1 he with he | he
    · obtain ⟨n, hn, hw⟩ := h.entry e (hp.mem_iff.2 (by simp [he]))
      exact ⟨n, nodeAt_append_left _ hn, hw⟩
    · rw [List.mem_singleton] at he
      subst he
      refine ⟨.internal (a.weight + b.weight) a.index b.index, ?_, rfl⟩
      simp [nodeAt, Nat.mod_eq_of_lt hlen]
  · rw [links_append, links_internal, List.length_append, List.length_singleton, List.range_succ,
      List.map_append, insertPq, List.map_append]
    simp only [List.map_cons, List.map_nil]
    rw [← List.append_assoc]
    refine List.Perm.append_right _ (List.Perm.trans ?_ h.used)
    rw [List.append_assoc]
    refine List.Perm.append_left _ ?_
    exact ((hp.map PqEntry.index).symm)
  · simp only [insertPq, List.map_append, List.sum_append, List.map_cons, List.map_nil, List.sum_cons,
      List.sum_nil, hadd]
    omega
  · intro i hi hlt
    rw [List.length_append, List.length_singleton] at hlt
    by_cases hin : i < nodes.length
    · obtain ⟨w, l, r, x, y, hw, hl, hr, hlr, hx, hy, hs⟩ := h.internal i hi hin
      exact ⟨w, l, r, x, y, by rw [List.getElem?_append_left hin, hw], hl, hr, hlr,
        nodeAt_append_left _ hx, nodeAt_append_left _ hy, hs⟩
    · have hieq : i = nodes.length := by omega
      subst hieq
      refine ⟨a.weight + b.weight, a.index, b.index, na, nb, by simp, nodeAt_lt hna, nodeAt_lt hnb, hab, nodeAt_append_left _ hna,
        nodeAt_append_left _ hnb, ?_⟩
      rw [hadd, hwa, hwb]

/-- The loop ends with one member in the queue (R136). -/
theorem loop (k : Nat) (h : Merging leaves nodes pq) (hk : pq.length ≤ k + 1) :
    ∃ e, Merging leaves (mergeLoop k nodes pq) [e] := by
  induction k generalizing nodes pq with
  | zero =>
    obtain ⟨e, rfl⟩ := List.length_eq_one_iff.1 (show pq.length = 1 by have := h.pq_pos; omega)
    exact ⟨e, h⟩
  | succ k ih =>
    have hne : pq ≠ [] := List.ne_nil_of_length_pos h.pq_pos
    obtain ⟨a, pq₁, ha⟩ := extractMin_isSome hne
    have hp₁ := extractMin_perm ha
    cases hb : extractMin pq₁ with
    | none =>
      have hnil : pq₁ = [] := by
        by_contra hc
        obtain ⟨b, pq₂, hb'⟩ := extractMin_isSome hc
        simp [hb] at hb'
      have hone : pq.length = 1 := by rw [hp₁.length_eq, hnil]; rfl
      obtain ⟨e, rfl⟩ := List.length_eq_one_iff.1 hone
      exact ⟨e, by simpa [mergeLoop, ha, hb] using h⟩
    | some v =>
      obtain ⟨b, pq₂⟩ := v
      have hp : pq.Perm (a :: b :: pq₂) := hp₁.trans ((extractMin_perm hb).cons a)
      have hl := hp.length_eq
      simp only [List.length_cons] at hl
      have := ih (h.step hp) (by simp only [insertPq, List.length_append, List.length_singleton]; omega)
      simpa [mergeLoop, ha, hb] using this

end Merging

/-! ## The leaf scan -/

theorem leafScan_all_leaves (freq : Vector Count 256) : ∀ n ∈ leafScan freq, ∃ y w, n = .leaf y w := by
  intro n hn
  obtain ⟨⟨c, y⟩, -, h⟩ := List.mem_filterMap.1 hn
  dsimp only at h
  split at h
  · simp at h
  · exact ⟨_, _, (Option.some.inj h).symm⟩

theorem filterMap_leaf_length (cs : List Count) (k : Nat) :
    ((cs.zipIdx k).filterMap fun (x : Count × Nat) =>
      if x.1 = 0 then none else some (Node.leaf (BitVec.ofNat 8 x.2) (x.1.setWidth 40))).length =
      cs.countP (· ≠ 0) := by
  induction cs generalizing k with
  | nil => rfl
  | cons c rest ih =>
    rw [List.zipIdx_cons, List.filterMap_cons, List.countP_cons]
    by_cases hc : c = 0
    · rw [if_pos hc, if_neg (by simpa using hc)]; exact ih (k + 1)
    · rw [if_neg hc, if_pos (by simpa using hc), List.length_cons, ih (k + 1)]

theorem filterMap_leaf_sum (cs : List Count) (k : Nat) :
    (((cs.zipIdx k).filterMap fun (x : Count × Nat) =>
      if x.1 = 0 then none else some (Node.leaf (BitVec.ofNat 8 x.2) (x.1.setWidth 40))).map
        fun n => n.weight.toNat).sum = (cs.map BitVec.toNat).sum := by
  induction cs generalizing k with
  | nil => rfl
  | cons c rest ih =>
    rw [List.zipIdx_cons, List.filterMap_cons]
    by_cases hc : c = 0
    · rw [if_pos hc, List.map_cons, List.sum_cons, hc]
      simpa using ih (k + 1)
    · rw [if_neg hc]
      simp only [List.map_cons, List.sum_cons, ih (k + 1), Node.weight_leaf, BitVec.toNat_setWidth]
      rw [Nat.mod_eq_of_lt (by have := c.isLt; omega)]

/-- One leaf per present symbol (R131). -/
theorem leafScan_length (freq : Vector Count 256) : (leafScan freq).length = presentCount freq :=
  filterMap_leaf_length freq.toList 0

/-- The leaves weigh what was counted (R131). -/
theorem leafScan_weight_sum (freq : Vector Count 256) :
    ((leafScan freq).map fun n => n.weight.toNat).sum = freqSum freq :=
  filterMap_leaf_sum freq.toList 0

theorem sum_count_le (cs : List Count) : (cs.map BitVec.toNat).sum ≤ cs.length * (2 ^ 32 - 1) := by
  induction cs with
  | nil => simp
  | cons c rest ih =>
    have := c.isLt
    simp only [List.map_cons, List.sum_cons, List.length_cons]
    omega

/-- The total of 256 counters fits in a weight (R139). -/
theorem freqSum_lt (freq : Vector Count 256) : freqSum freq < 2 ^ 40 := by
  have h := sum_count_le freq.toList
  rw [Vector.length_toList] at h
  unfold freqSum; omega

theorem presentCount_le (freq : Vector Count 256) : presentCount freq ≤ 256 := by
  have h := List.countP_le_length (p := fun c : Count => decide (c ≠ 0)) (l := freq.toList)
  rw [Vector.length_toList] at h
  exact h

theorem mem_leafScan_iff (freq : Vector Count 256) (n : Node) : n ∈ leafScan freq ↔
    ∃ y : Sym, countOf freq y ≠ 0 ∧ n = .leaf y ((countOf freq y).setWidth 40) := by
  unfold leafScan
  rw [List.mem_filterMap]
  constructor
  · rintro ⟨⟨c, k⟩, hm, h⟩
    rw [List.mem_zipIdx_iff_getElem?] at hm
    obtain ⟨hk, hc⟩ := List.getElem?_eq_some_iff.1 hm
    rw [Vector.length_toList] at hk
    dsimp only at h hk hc
    by_cases h0 : c = 0
    · simp [h0] at h
    · rw [if_neg h0] at h
      have hcount : countOf freq (BitVec.ofNat 8 k) = c := by
        simp only [countOf, BitVec.toNat_ofNat, Nat.mod_eq_of_lt (show k < 2 ^ 8 by omega)]
        rw [← hc, Vector.getElem_toList]
      exact ⟨BitVec.ofNat 8 k, by rw [hcount]; exact h0, by rw [hcount]; exact (Option.some.inj h).symm⟩
  · rintro ⟨y, hy, rfl⟩
    refine ⟨(countOf freq y, y.toNat), ?_, ?_⟩
    · rw [List.mem_zipIdx_iff_getElem?]
      dsimp only
      rw [List.getElem?_eq_getElem (by rw [Vector.length_toList]; exact y.isLt), Vector.getElem_toList]
      rfl
    · dsimp only
      rw [BitVec.ofNat_toNat, BitVec.setWidth_eq, if_neg hy]

/-- The leaves stand in ascending order of symbol (R131). -/
theorem leafScan_ascending (freq : Vector Count 256) : (leafScan freq).Pairwise fun a b =>
    ∀ y z v w, a = .leaf y v → b = .leaf z w → y < z := by
  unfold leafScan
  rw [List.pairwise_filterMap]
  have hz : (freq.toList.zipIdx).Pairwise fun a b => a.2 < b.2 := by
    rw [List.zipIdx_eq_zip_range']
    refine List.pairwise_iff_getElem.2 fun i j hi hj hij => ?_
    simp only [List.getElem_zip, List.getElem_range']
    omega
  refine hz.imp_of_mem ?_
  intro a b ha hb hlt x hx x' hx' y z v w h h'
  have hbl : b.2 < 256 := by
    have := List.mem_zipIdx_iff_getElem?.1 hb
    have := (List.getElem?_eq_some_iff.1 this).1
    rwa [Vector.length_toList] at this
  by_cases h0 : a.1 = 0
  · simp [h0] at hx
  · by_cases h1 : b.1 = 0
    · simp [h1] at hx'
    · simp only [h0, h1, if_false, Option.some.injEq] at hx hx'
      subst hx hx'
      simp only [Node.leaf.injEq] at h h'
      rw [← h.1, ← h'.1, BitVec.lt_def, BitVec.toNat_ofNat, BitVec.toNat_ofNat]
      omega

/-! ## The queue as it starts, and the whole build -/

/-- The loop's invariant holds when the loop starts (R131, R132). -/
theorem Merging.start (freq : Vector Count 256) (h : leafScan freq ≠ []) :
    Merging (leafScan freq) (leafScan freq) (initQueue (leafScan freq)) := by
  have hlen : (initQueue (leafScan freq)).length = (leafScan freq).length := by simp [initQueue]
  have hn : (leafScan freq).length ≤ 256 := by rw [leafScan_length]; exact presentCount_le freq
  have hidx : (initQueue (leafScan freq)).map PqEntry.index =
      (List.range (leafScan freq).length).map (BitVec.ofNat 9) := by
    apply List.ext_getElem <;> simp [initQueue]
  refine
    { all_leaves := leafScan_all_leaves freq
      le_nsym := hn
      no_overflow := by rw [leafScan_weight_sum]; exact freqSum_lt freq
      starts := ⟨[], by simp⟩
      pq_pos := by rw [hlen]; exact List.length_pos_iff.2 h
      size := by rw [hlen]; omega
      entry := ?_, used := ?_, weights := ?_, internal := ?_ }
  · intro e he
    obtain ⟨⟨n, i⟩, hm, rfl⟩ := List.mem_map.1 he
    rw [List.mem_zipIdx_iff_getElem?] at hm
    have hi := (List.getElem?_eq_some_iff.1 hm).1
    dsimp only at hm hi ⊢
    refine ⟨n, ?_, rfl⟩
    rw [nodeAt, BitVec.toNat_ofNat, Nat.mod_eq_of_lt (by omega)]; exact hm
  · rw [links_of_leaves (leafScan_all_leaves freq), List.nil_append, hidx]
  · have : (initQueue (leafScan freq)).map (fun e => e.weight.toNat) =
        (leafScan freq).map fun n => n.weight.toNat := by
      apply List.ext_getElem <;> simp [initQueue]
    rw [this]
  · intro i hi hlt; omega

/-- What the merge loop leaves (R136). -/
theorem buildNodes_merging (freq : Vector Count 256) (h : leafScan freq ≠ []) :
    ∃ e, Merging (leafScan freq) (buildNodes (leafScan freq)) [e] :=
  (Merging.start freq h).loop _ (by simp [initQueue])

theorem buildNodes_length (freq : Vector Count 256) (h : leafScan freq ≠ []) :
    (buildNodes (leafScan freq)).length = 2 * presentCount freq - 1 := by
  obtain ⟨e, he⟩ := buildNodes_merging freq h
  have := he.size
  rw [leafScan_length] at this
  simp only [List.length_singleton] at this
  omega

/-- The scan finds a leaf exactly when some symbol was counted (R131, R143). -/
theorem leafScan_eq_nil_iff (freq : Vector Count 256) : leafScan freq = [] ↔ ∀ y, countOf freq y = 0 := by
  rw [List.eq_nil_iff_forall_not_mem]
  constructor
  · intro h y
    by_contra hc
    exact h _ ((mem_leafScan_iff freq _).2 ⟨y, hc, rfl⟩)
  · intro h n hn
    obtain ⟨y, hy, -⟩ := (mem_leafScan_iff freq n).1 hn
    exact hy (h y)

end Sys2Proof.Machine
end

