-- ==== Sys2Proof/Laws/Env.lean ====
section
/-!
SUPPORT. How the host's reading of the output channels goes on over what is appended (spec/30_encoding.md R103,
R104), and what each host action leaves alone.
-/

namespace Sys2Proof.Machine

/-- Reading goes on from the bits that were pending. -/
theorem readBits_append (p : List Bool) (a b : List BitWord) : readBits p (a ++ b) =
    ((readBits p a).1 ++ (readBits (readBits p a).2 b).1, (readBits (readBits p a).2 b).2) := by
  induction a generalizing p with
  | nil => simp [readBits]
  | cons x rest ih => cases hx : BitBeat.ofWord x <;> simp [readBits, hx, ih]

/-- Reading goes on from the symbols that were pending. -/
theorem readSymbols_append {p q : List Sym} {a : List SymWord} {done : List (List Sym)} (b : List SymWord)
    (h : readSymbols p a = some (done, q)) :
    readSymbols p (a ++ b) = (readSymbols q b).map fun r => (done ++ r.1, r.2) := by
  induction a generalizing p done with
  | nil =>
    obtain ⟨rfl, rfl⟩ : [] = done ∧ p = q := by simpa [readSymbols] using h
    simp
  | cons x rest ih =>
    cases hx : SymBeat.ofWord x with
    | none => simp [readSymbols, hx] at h
    | some y =>
      cases y with
      | sym v => simp only [readSymbols, hx, List.cons_append] at h ⊢; exact ih h
      | abort => simp only [readSymbols, hx, List.cons_append] at h ⊢; exact ih h
      | finish =>
        simp only [readSymbols, hx, List.cons_append, Option.map_eq_some_iff] at h ⊢
        obtain ⟨⟨done', q'⟩, hr, he⟩ := h
        obtain ⟨rfl, rfl⟩ := Prod.mk.inj he
        rw [ih hr, Option.map_map]
        rfl

/-- An action of the host other than a reset leaves the tables and the registers alone. -/
theorem hostAct_engine (a : HostAction) (s : State) : a = .assertReset ∨
    { hostAct a s with cmd := [], rsp := [], bitOut := [], symOut := [] } =
      { s with cmd := [], rsp := [], bitOut := [], symOut := [] } := by
  cases a <;> first | exact .inl rfl | exact .inr rfl

end Sys2Proof.Machine
end

