-- ==== Sys2Proof/Laws/PerInstr.lean ====
section
/-!
SUPPORT. What holds of every command as syntax, one lemma per constructor of `Instr`.
-/

namespace Sys2Proof.Laws.FieldsWellFormed

open Sys2Proof

/-- The fields that R91 gives the command are none of the six kinds of illegal fields of R94. -/
def Statement (i : Instr) : Prop := (Fields.ofInstr i).wellFormed = true

theorem clr : Statement .clr := by unfold Statement; decide

theorem cnt : ∀ y : Sym, Statement (.cnt y) := by unfold Statement; decide +kernel

theorem bld : Statement .bld := by unfold Statement; decide

theorem gen : Statement .gen := by unfold Statement; decide

theorem enc : ∀ y : Sym, Statement (.enc y) := by unfold Statement; decide +kernel

theorem encend : Statement .encend := by unfold Statement; decide

theorem dec : ∀ b : Bool, Statement (.dec b) := by unfold Statement; decide

theorem decend : Statement .decend := by unfold Statement; decide

theorem fail : ∀ k : Bool, Statement (.fail k) := by unfold Statement; decide

theorem rds : Statement .rds := by unfold Statement; decide

theorem rdf : ∀ y : Sym, Statement (.rdf y) := by unfold Statement; decide +kernel

theorem rdl : ∀ y : Sym, Statement (.rdl y) := by unfold Statement; decide +kernel

theorem rdnw : ∀ i : NodeIx, Statement (.rdnw i) := by unfold Statement; decide +kernel

theorem rdnl : ∀ i : NodeIx, Statement (.rdnl i) := by unfold Statement; decide +kernel

end Sys2Proof.Laws.FieldsWellFormed
end

