-- ==== Sys2Proof/Laws/State.lean ====
section
/-!
SUPPORT. What each shared update does to each field of the state: one lemma per field and update, so that no
proof unfolds a record update.
-/

namespace Sys2Proof.Machine

variable (s : State)

/-! ## setFreq -/

@[simp] theorem setFreq_freq (y : Sym) (v : Count) : (setFreq y v s).freq = s.freq.set y.toNat v y.isLt := rfl
@[simp] theorem setFreq_nodes (y : Sym) (v : Count) : (setFreq y v s).nodes = s.nodes := rfl
@[simp] theorem setFreq_code (y : Sym) (v : Count) : (setFreq y v s).code = s.code := rfl
@[simp] theorem setFreq_phase (y : Sym) (v : Count) : (setFreq y v s).phase = s.phase := rfl
@[simp] theorem setFreq_err (y : Sym) (v : Count) : (setFreq y v s).err = s.err := rfl
@[simp] theorem setFreq_nleaf (y : Sym) (v : Count) : (setFreq y v s).nleaf = s.nleaf := rfl
@[simp] theorem setFreq_root (y : Sym) (v : Count) : (setFreq y v s).root = s.root := rfl
@[simp] theorem setFreq_cur (y : Sym) (v : Count) : (setFreq y v s).cur = s.cur := rfl
@[simp] theorem setFreq_encOpen (y : Sym) (v : Count) : (setFreq y v s).encOpen = s.encOpen := rfl
@[simp] theorem setFreq_decOpen (y : Sym) (v : Count) : (setFreq y v s).decOpen = s.decOpen := rfl
@[simp] theorem setFreq_cmd (y : Sym) (v : Count) : (setFreq y v s).cmd = s.cmd := rfl
@[simp] theorem setFreq_rsp (y : Sym) (v : Count) : (setFreq y v s).rsp = s.rsp := rfl
@[simp] theorem setFreq_bitOut (y : Sym) (v : Count) : (setFreq y v s).bitOut = s.bitOut := rfl
@[simp] theorem setFreq_symOut (y : Sym) (v : Count) : (setFreq y v s).symOut = s.symOut := rfl

/-! ## respond -/

@[simp] theorem respond_freq (st : Status) (d : Data) : (respond st d s).freq = s.freq := rfl
@[simp] theorem respond_nodes (st : Status) (d : Data) : (respond st d s).nodes = s.nodes := rfl
@[simp] theorem respond_code (st : Status) (d : Data) : (respond st d s).code = s.code := rfl
@[simp] theorem respond_phase (st : Status) (d : Data) : (respond st d s).phase = s.phase := rfl
@[simp] theorem respond_err (st : Status) (d : Data) : (respond st d s).err = s.err := rfl
@[simp] theorem respond_nleaf (st : Status) (d : Data) : (respond st d s).nleaf = s.nleaf := rfl
@[simp] theorem respond_root (st : Status) (d : Data) : (respond st d s).root = s.root := rfl
@[simp] theorem respond_cur (st : Status) (d : Data) : (respond st d s).cur = s.cur := rfl
@[simp] theorem respond_encOpen (st : Status) (d : Data) : (respond st d s).encOpen = s.encOpen := rfl
@[simp] theorem respond_decOpen (st : Status) (d : Data) : (respond st d s).decOpen = s.decOpen := rfl
@[simp] theorem respond_cmd (st : Status) (d : Data) : (respond st d s).cmd = s.cmd := rfl
@[simp] theorem respond_rsp (st : Status) (d : Data) : (respond st d s).rsp = s.rsp ++ [Response.word ⟨st, d⟩] := rfl
@[simp] theorem respond_bitOut (st : Status) (d : Data) : (respond st d s).bitOut = s.bitOut := rfl
@[simp] theorem respond_symOut (st : Status) (d : Data) : (respond st d s).symOut = s.symOut := rfl

/-! ## emitBit -/

@[simp] theorem emitBit_freq (x : BitBeat) : (emitBit x s).freq = s.freq := rfl
@[simp] theorem emitBit_nodes (x : BitBeat) : (emitBit x s).nodes = s.nodes := rfl
@[simp] theorem emitBit_code (x : BitBeat) : (emitBit x s).code = s.code := rfl
@[simp] theorem emitBit_phase (x : BitBeat) : (emitBit x s).phase = s.phase := rfl
@[simp] theorem emitBit_err (x : BitBeat) : (emitBit x s).err = s.err := rfl
@[simp] theorem emitBit_nleaf (x : BitBeat) : (emitBit x s).nleaf = s.nleaf := rfl
@[simp] theorem emitBit_root (x : BitBeat) : (emitBit x s).root = s.root := rfl
@[simp] theorem emitBit_cur (x : BitBeat) : (emitBit x s).cur = s.cur := rfl
@[simp] theorem emitBit_encOpen (x : BitBeat) : (emitBit x s).encOpen = s.encOpen := rfl
@[simp] theorem emitBit_decOpen (x : BitBeat) : (emitBit x s).decOpen = s.decOpen := rfl
@[simp] theorem emitBit_cmd (x : BitBeat) : (emitBit x s).cmd = s.cmd := rfl
@[simp] theorem emitBit_rsp (x : BitBeat) : (emitBit x s).rsp = s.rsp := rfl
@[simp] theorem emitBit_bitOut (x : BitBeat) : (emitBit x s).bitOut = s.bitOut ++ [x.word] := rfl
@[simp] theorem emitBit_symOut (x : BitBeat) : (emitBit x s).symOut = s.symOut := rfl

/-! ## emitSym -/

@[simp] theorem emitSym_freq (x : SymBeat) : (emitSym x s).freq = s.freq := rfl
@[simp] theorem emitSym_nodes (x : SymBeat) : (emitSym x s).nodes = s.nodes := rfl
@[simp] theorem emitSym_code (x : SymBeat) : (emitSym x s).code = s.code := rfl
@[simp] theorem emitSym_phase (x : SymBeat) : (emitSym x s).phase = s.phase := rfl
@[simp] theorem emitSym_err (x : SymBeat) : (emitSym x s).err = s.err := rfl
@[simp] theorem emitSym_nleaf (x : SymBeat) : (emitSym x s).nleaf = s.nleaf := rfl
@[simp] theorem emitSym_root (x : SymBeat) : (emitSym x s).root = s.root := rfl
@[simp] theorem emitSym_cur (x : SymBeat) : (emitSym x s).cur = s.cur := rfl
@[simp] theorem emitSym_encOpen (x : SymBeat) : (emitSym x s).encOpen = s.encOpen := rfl
@[simp] theorem emitSym_decOpen (x : SymBeat) : (emitSym x s).decOpen = s.decOpen := rfl
@[simp] theorem emitSym_cmd (x : SymBeat) : (emitSym x s).cmd = s.cmd := rfl
@[simp] theorem emitSym_rsp (x : SymBeat) : (emitSym x s).rsp = s.rsp := rfl
@[simp] theorem emitSym_bitOut (x : SymBeat) : (emitSym x s).bitOut = s.bitOut := rfl
@[simp] theorem emitSym_symOut (x : SymBeat) : (emitSym x s).symOut = s.symOut ++ [x.word] := rfl

/-! ## emitBits -/

@[simp] theorem emitBits_freq (bs : List Bool) : (emitBits bs s).freq = s.freq := rfl
@[simp] theorem emitBits_nodes (bs : List Bool) : (emitBits bs s).nodes = s.nodes := rfl
@[simp] theorem emitBits_code (bs : List Bool) : (emitBits bs s).code = s.code := rfl
@[simp] theorem emitBits_phase (bs : List Bool) : (emitBits bs s).phase = s.phase := rfl
@[simp] theorem emitBits_err (bs : List Bool) : (emitBits bs s).err = s.err := rfl
@[simp] theorem emitBits_nleaf (bs : List Bool) : (emitBits bs s).nleaf = s.nleaf := rfl
@[simp] theorem emitBits_root (bs : List Bool) : (emitBits bs s).root = s.root := rfl
@[simp] theorem emitBits_cur (bs : List Bool) : (emitBits bs s).cur = s.cur := rfl
@[simp] theorem emitBits_encOpen (bs : List Bool) : (emitBits bs s).encOpen = s.encOpen := rfl
@[simp] theorem emitBits_decOpen (bs : List Bool) : (emitBits bs s).decOpen = s.decOpen := rfl
@[simp] theorem emitBits_cmd (bs : List Bool) : (emitBits bs s).cmd = s.cmd := rfl
@[simp] theorem emitBits_rsp (bs : List Bool) : (emitBits bs s).rsp = s.rsp := rfl
@[simp] theorem emitBits_bitOut (bs : List Bool) :
    (emitBits bs s).bitOut = s.bitOut ++ bs.map fun b => (BitBeat.bit b).word := rfl
@[simp] theorem emitBits_symOut (bs : List Bool) : (emitBits bs s).symOut = s.symOut := rfl

/-! ## abortEnc -/

@[simp] theorem abortEnc_freq : (abortEnc s).freq = s.freq := by
  unfold abortEnc; split <;> simp_all [emitBit]
@[simp] theorem abortEnc_nodes : (abortEnc s).nodes = s.nodes := by
  unfold abortEnc; split <;> simp_all [emitBit]
@[simp] theorem abortEnc_code : (abortEnc s).code = s.code := by
  unfold abortEnc; split <;> simp_all [emitBit]
@[simp] theorem abortEnc_phase : (abortEnc s).phase = s.phase := by
  unfold abortEnc; split <;> simp_all [emitBit]
@[simp] theorem abortEnc_err : (abortEnc s).err = s.err := by
  unfold abortEnc; split <;> simp_all [emitBit]
@[simp] theorem abortEnc_nleaf : (abortEnc s).nleaf = s.nleaf := by
  unfold abortEnc; split <;> simp_all [emitBit]
@[simp] theorem abortEnc_root : (abortEnc s).root = s.root := by
  unfold abortEnc; split <;> simp_all [emitBit]
@[simp] theorem abortEnc_cur : (abortEnc s).cur = s.cur := by
  unfold abortEnc; split <;> simp_all [emitBit]
@[simp] theorem abortEnc_encOpen : (abortEnc s).encOpen = false := by
  unfold abortEnc; split <;> simp_all [emitBit]
@[simp] theorem abortEnc_decOpen : (abortEnc s).decOpen = s.decOpen := by
  unfold abortEnc; split <;> simp_all [emitBit]
@[simp] theorem abortEnc_cmd : (abortEnc s).cmd = s.cmd := by
  unfold abortEnc; split <;> simp_all [emitBit]
@[simp] theorem abortEnc_rsp : (abortEnc s).rsp = s.rsp := by
  unfold abortEnc; split <;> simp_all [emitBit]
@[simp] theorem abortEnc_bitOut :
    (abortEnc s).bitOut = s.bitOut ++ (if s.encOpen then [BitBeat.abort.word] else []) := by
  unfold abortEnc; split <;> simp_all [emitBit]
@[simp] theorem abortEnc_symOut : (abortEnc s).symOut = s.symOut := by
  unfold abortEnc; split <;> simp_all [emitBit]

/-! ## abortDec -/

@[simp] theorem abortDec_freq : (abortDec s).freq = s.freq := by
  unfold abortDec; split <;> simp_all [emitSym]
@[simp] theorem abortDec_nodes : (abortDec s).nodes = s.nodes := by
  unfold abortDec; split <;> simp_all [emitSym]
@[simp] theorem abortDec_code : (abortDec s).code = s.code := by
  unfold abortDec; split <;> simp_all [emitSym]
@[simp] theorem abortDec_phase : (abortDec s).phase = s.phase := by
  unfold abortDec; split <;> simp_all [emitSym]
@[simp] theorem abortDec_err : (abortDec s).err = s.err := by
  unfold abortDec; split <;> simp_all [emitSym]
@[simp] theorem abortDec_nleaf : (abortDec s).nleaf = s.nleaf := by
  unfold abortDec; split <;> simp_all [emitSym]
@[simp] theorem abortDec_root : (abortDec s).root = s.root := by
  unfold abortDec; split <;> simp_all [emitSym]
@[simp] theorem abortDec_cur : (abortDec s).cur = s.cur := by
  unfold abortDec; split <;> simp_all [emitSym]
@[simp] theorem abortDec_encOpen : (abortDec s).encOpen = s.encOpen := by
  unfold abortDec; split <;> simp_all [emitSym]
@[simp] theorem abortDec_decOpen : (abortDec s).decOpen = false := by
  unfold abortDec; split <;> simp_all [emitSym]
@[simp] theorem abortDec_cmd : (abortDec s).cmd = s.cmd := by
  unfold abortDec; split <;> simp_all [emitSym]
@[simp] theorem abortDec_rsp : (abortDec s).rsp = s.rsp := by
  unfold abortDec; split <;> simp_all [emitSym]
@[simp] theorem abortDec_bitOut : (abortDec s).bitOut = s.bitOut := by
  unfold abortDec; split <;> simp_all [emitSym]
@[simp] theorem abortDec_symOut :
    (abortDec s).symOut = s.symOut ++ (if s.decOpen then [SymBeat.abort.word] else []) := by
  unfold abortDec; split <;> simp_all [emitSym]

/-! ## raise -/

@[simp] theorem raise_freq (e : ErrorKind) : (raise e s).freq = s.freq := by
  simp [raise]
@[simp] theorem raise_nodes (e : ErrorKind) : (raise e s).nodes = s.nodes := by
  simp [raise]
@[simp] theorem raise_code (e : ErrorKind) : (raise e s).code = s.code := by
  simp [raise]
@[simp] theorem raise_phase (e : ErrorKind) : (raise e s).phase = s.phase := by
  simp [raise]
@[simp] theorem raise_err (e : ErrorKind) : (raise e s).err = some e := by
  simp [raise]
@[simp] theorem raise_nleaf (e : ErrorKind) : (raise e s).nleaf = s.nleaf := by
  simp [raise]
@[simp] theorem raise_root (e : ErrorKind) : (raise e s).root = s.root := by
  simp [raise]
@[simp] theorem raise_cur (e : ErrorKind) : (raise e s).cur = s.cur := by
  simp [raise]
@[simp] theorem raise_encOpen (e : ErrorKind) : (raise e s).encOpen = false := by
  simp [raise]
@[simp] theorem raise_decOpen (e : ErrorKind) : (raise e s).decOpen = false := by
  simp [raise]
@[simp] theorem raise_cmd (e : ErrorKind) : (raise e s).cmd = s.cmd := by
  simp [raise]
@[simp] theorem raise_rsp (e : ErrorKind) : (raise e s).rsp = s.rsp ++ [Response.word ⟨.error e, 0⟩] := by
  simp [raise]
@[simp] theorem raise_bitOut (e : ErrorKind) :
    (raise e s).bitOut = s.bitOut ++ (if s.encOpen then [BitBeat.abort.word] else []) := by
  simp [raise]
@[simp] theorem raise_symOut (e : ErrorKind) :
    (raise e s).symOut = s.symOut ++ (if s.decOpen then [SymBeat.abort.word] else []) := by
  simp [raise]

/-! ## clearEngine -/

@[simp] theorem clearEngine_freq : (clearEngine s).freq = State.reset.freq := rfl
@[simp] theorem clearEngine_nodes : (clearEngine s).nodes = State.reset.nodes := rfl
@[simp] theorem clearEngine_code : (clearEngine s).code = State.reset.code := rfl
@[simp] theorem clearEngine_phase : (clearEngine s).phase = State.reset.phase := rfl
@[simp] theorem clearEngine_err : (clearEngine s).err = State.reset.err := rfl
@[simp] theorem clearEngine_nleaf : (clearEngine s).nleaf = State.reset.nleaf := rfl
@[simp] theorem clearEngine_root : (clearEngine s).root = State.reset.root := rfl
@[simp] theorem clearEngine_cur : (clearEngine s).cur = State.reset.cur := rfl
@[simp] theorem clearEngine_encOpen : (clearEngine s).encOpen = State.reset.encOpen := rfl
@[simp] theorem clearEngine_decOpen : (clearEngine s).decOpen = State.reset.decOpen := rfl
@[simp] theorem clearEngine_cmd : (clearEngine s).cmd = s.cmd := rfl
@[simp] theorem clearEngine_rsp : (clearEngine s).rsp = s.rsp := rfl
@[simp] theorem clearEngine_bitOut : (clearEngine s).bitOut = s.bitOut := rfl
@[simp] theorem clearEngine_symOut : (clearEngine s).symOut = s.symOut := rfl

/-! ## installTree -/

@[simp] theorem installTree_freq (n r : NodeIx) (ns : List Node) : (installTree n r ns s).freq = s.freq := rfl
@[simp] theorem installTree_nodes (n r : NodeIx) (ns : List Node) : (installTree n r ns s).nodes = ns := rfl
@[simp] theorem installTree_code (n r : NodeIx) (ns : List Node) : (installTree n r ns s).code = s.code := rfl
@[simp] theorem installTree_phase (n r : NodeIx) (ns : List Node) : (installTree n r ns s).phase = .tree := rfl
@[simp] theorem installTree_err (n r : NodeIx) (ns : List Node) : (installTree n r ns s).err = s.err := rfl
@[simp] theorem installTree_nleaf (n r : NodeIx) (ns : List Node) : (installTree n r ns s).nleaf = n := rfl
@[simp] theorem installTree_root (n r : NodeIx) (ns : List Node) : (installTree n r ns s).root = r := rfl
@[simp] theorem installTree_cur (n r : NodeIx) (ns : List Node) : (installTree n r ns s).cur = r := rfl
@[simp] theorem installTree_encOpen (n r : NodeIx) (ns : List Node) :
    (installTree n r ns s).encOpen = s.encOpen := rfl
@[simp] theorem installTree_decOpen (n r : NodeIx) (ns : List Node) :
    (installTree n r ns s).decOpen = s.decOpen := rfl
@[simp] theorem installTree_cmd (n r : NodeIx) (ns : List Node) : (installTree n r ns s).cmd = s.cmd := rfl
@[simp] theorem installTree_rsp (n r : NodeIx) (ns : List Node) :
    (installTree n r ns s).rsp = s.rsp ++ [Response.word ⟨.ok, buildData n r⟩] := rfl
@[simp] theorem installTree_bitOut (n r : NodeIx) (ns : List Node) : (installTree n r ns s).bitOut = s.bitOut := rfl
@[simp] theorem installTree_symOut (n r : NodeIx) (ns : List Node) : (installTree n r ns s).symOut = s.symOut := rfl

/-! ## installCodes -/

@[simp] theorem installCodes_freq (es : List (Sym × List Bool)) : (installCodes es s).freq = s.freq := rfl
@[simp] theorem installCodes_nodes (es : List (Sym × List Bool)) : (installCodes es s).nodes = s.nodes := rfl
@[simp] theorem installCodes_code (es : List (Sym × List Bool)) : (installCodes es s).code = tableOf es := rfl
@[simp] theorem installCodes_phase (es : List (Sym × List Bool)) : (installCodes es s).phase = .ready := rfl
@[simp] theorem installCodes_err (es : List (Sym × List Bool)) : (installCodes es s).err = s.err := rfl
@[simp] theorem installCodes_nleaf (es : List (Sym × List Bool)) : (installCodes es s).nleaf = s.nleaf := rfl
@[simp] theorem installCodes_root (es : List (Sym × List Bool)) : (installCodes es s).root = s.root := rfl
@[simp] theorem installCodes_cur (es : List (Sym × List Bool)) : (installCodes es s).cur = s.cur := rfl
@[simp] theorem installCodes_encOpen (es : List (Sym × List Bool)) : (installCodes es s).encOpen = s.encOpen := rfl
@[simp] theorem installCodes_decOpen (es : List (Sym × List Bool)) : (installCodes es s).decOpen = s.decOpen := rfl
@[simp] theorem installCodes_cmd (es : List (Sym × List Bool)) : (installCodes es s).cmd = s.cmd := rfl
@[simp] theorem installCodes_rsp (es : List (Sym × List Bool)) :
    (installCodes es s).rsp = s.rsp ++ [Response.word ⟨.ok, 0⟩] := rfl
@[simp] theorem installCodes_bitOut (es : List (Sym × List Bool)) : (installCodes es s).bitOut = s.bitOut := rfl
@[simp] theorem installCodes_symOut (es : List (Sym × List Bool)) : (installCodes es s).symOut = s.symOut := rfl

/-! ## closeBits -/

@[simp] theorem closeBits_freq : (closeBits s).freq = s.freq := rfl
@[simp] theorem closeBits_nodes : (closeBits s).nodes = s.nodes := rfl
@[simp] theorem closeBits_code : (closeBits s).code = s.code := rfl
@[simp] theorem closeBits_phase : (closeBits s).phase = s.phase := rfl
@[simp] theorem closeBits_err : (closeBits s).err = s.err := rfl
@[simp] theorem closeBits_nleaf : (closeBits s).nleaf = s.nleaf := rfl
@[simp] theorem closeBits_root : (closeBits s).root = s.root := rfl
@[simp] theorem closeBits_cur : (closeBits s).cur = s.cur := rfl
@[simp] theorem closeBits_encOpen : (closeBits s).encOpen = false := rfl
@[simp] theorem closeBits_decOpen : (closeBits s).decOpen = s.decOpen := rfl
@[simp] theorem closeBits_cmd : (closeBits s).cmd = s.cmd := rfl
@[simp] theorem closeBits_rsp : (closeBits s).rsp = s.rsp ++ [Response.word ⟨.ok, 0⟩] := rfl
@[simp] theorem closeBits_bitOut : (closeBits s).bitOut = s.bitOut ++ [BitBeat.close.word] := rfl
@[simp] theorem closeBits_symOut : (closeBits s).symOut = s.symOut := rfl

/-! ## landOnLeaf -/

@[simp] theorem landOnLeaf_freq (y : Sym) : (landOnLeaf y s).freq = s.freq := rfl
@[simp] theorem landOnLeaf_nodes (y : Sym) : (landOnLeaf y s).nodes = s.nodes := rfl
@[simp] theorem landOnLeaf_code (y : Sym) : (landOnLeaf y s).code = s.code := rfl
@[simp] theorem landOnLeaf_phase (y : Sym) : (landOnLeaf y s).phase = s.phase := rfl
@[simp] theorem landOnLeaf_err (y : Sym) : (landOnLeaf y s).err = s.err := rfl
@[simp] theorem landOnLeaf_nleaf (y : Sym) : (landOnLeaf y s).nleaf = s.nleaf := rfl
@[simp] theorem landOnLeaf_root (y : Sym) : (landOnLeaf y s).root = s.root := rfl
@[simp] theorem landOnLeaf_cur (y : Sym) : (landOnLeaf y s).cur = s.root := rfl
@[simp] theorem landOnLeaf_encOpen (y : Sym) : (landOnLeaf y s).encOpen = s.encOpen := rfl
@[simp] theorem landOnLeaf_decOpen (y : Sym) : (landOnLeaf y s).decOpen = true := rfl
@[simp] theorem landOnLeaf_cmd (y : Sym) : (landOnLeaf y s).cmd = s.cmd := rfl
@[simp] theorem landOnLeaf_rsp (y : Sym) : (landOnLeaf y s).rsp = s.rsp ++ [Response.word ⟨.ok, symbolData y⟩] := rfl
@[simp] theorem landOnLeaf_bitOut (y : Sym) : (landOnLeaf y s).bitOut = s.bitOut := rfl
@[simp] theorem landOnLeaf_symOut (y : Sym) : (landOnLeaf y s).symOut = s.symOut ++ [(SymBeat.sym y).word] := rfl

/-! ## landInside -/

@[simp] theorem landInside_freq (c : NodeIx) : (landInside c s).freq = s.freq := rfl
@[simp] theorem landInside_nodes (c : NodeIx) : (landInside c s).nodes = s.nodes := rfl
@[simp] theorem landInside_code (c : NodeIx) : (landInside c s).code = s.code := rfl
@[simp] theorem landInside_phase (c : NodeIx) : (landInside c s).phase = s.phase := rfl
@[simp] theorem landInside_err (c : NodeIx) : (landInside c s).err = s.err := rfl
@[simp] theorem landInside_nleaf (c : NodeIx) : (landInside c s).nleaf = s.nleaf := rfl
@[simp] theorem landInside_root (c : NodeIx) : (landInside c s).root = s.root := rfl
@[simp] theorem landInside_cur (c : NodeIx) : (landInside c s).cur = c := rfl
@[simp] theorem landInside_encOpen (c : NodeIx) : (landInside c s).encOpen = s.encOpen := rfl
@[simp] theorem landInside_decOpen (c : NodeIx) : (landInside c s).decOpen = true := rfl
@[simp] theorem landInside_cmd (c : NodeIx) : (landInside c s).cmd = s.cmd := rfl
@[simp] theorem landInside_rsp (c : NodeIx) : (landInside c s).rsp = s.rsp ++ [Response.word ⟨.ok, 0⟩] := rfl
@[simp] theorem landInside_bitOut (c : NodeIx) : (landInside c s).bitOut = s.bitOut := rfl
@[simp] theorem landInside_symOut (c : NodeIx) : (landInside c s).symOut = s.symOut := rfl

/-! ## pushFront -/

@[simp] theorem pushFront_freq (w : Word) : (pushFront w s).freq = s.freq := rfl
@[simp] theorem pushFront_nodes (w : Word) : (pushFront w s).nodes = s.nodes := rfl
@[simp] theorem pushFront_code (w : Word) : (pushFront w s).code = s.code := rfl
@[simp] theorem pushFront_phase (w : Word) : (pushFront w s).phase = s.phase := rfl
@[simp] theorem pushFront_err (w : Word) : (pushFront w s).err = s.err := rfl
@[simp] theorem pushFront_nleaf (w : Word) : (pushFront w s).nleaf = s.nleaf := rfl
@[simp] theorem pushFront_root (w : Word) : (pushFront w s).root = s.root := rfl
@[simp] theorem pushFront_cur (w : Word) : (pushFront w s).cur = s.cur := rfl
@[simp] theorem pushFront_encOpen (w : Word) : (pushFront w s).encOpen = s.encOpen := rfl
@[simp] theorem pushFront_decOpen (w : Word) : (pushFront w s).decOpen = s.decOpen := rfl
@[simp] theorem pushFront_cmd (w : Word) : (pushFront w s).cmd = w :: s.cmd := rfl
@[simp] theorem pushFront_rsp (w : Word) : (pushFront w s).rsp = s.rsp := rfl
@[simp] theorem pushFront_bitOut (w : Word) : (pushFront w s).bitOut = s.bitOut := rfl
@[simp] theorem pushFront_symOut (w : Word) : (pushFront w s).symOut = s.symOut := rfl

end Sys2Proof.Machine
end

