-- ==== Sys2Proof/Laws/Step.lean ====
section
/-!
SUPPORT. What each command can do, said once (spec/60_exceptions.md R243): for every command the cases its
outcome falls into, so that a proof about all commands unfolds none of them.
-/

namespace Sys2Proof.Machine

variable {s t : State} {k : Outcome}

/-! ## The front part -/

theorem unlessFault_none (h : s.err = none) : unlessFault s k = k := by simp [unlessFault, h]

theorem unlessFault_some (h : s.err ≠ none) : unlessFault s k = .next (respond .faulted 0 s) := by
  cases he : s.err with
  | none => exact absurd he h
  | some e => simp [unlessFault, he]

@[simp] theorem inPhase_true : inPhase true s k = k := rfl

@[simp] theorem inPhase_false : inPhase false s k = .next (raise .badPhase s) := rfl

@[simp] theorem inCount_iff : inCount s = true ↔ s.phase = .count := by simp [inCount]

@[simp] theorem inTree_iff : inTree s = true ↔ s.phase = .tree := by simp [inTree]

@[simp] theorem inReady_iff : inReady s = true ↔ s.phase = .ready := by simp [inReady]

@[simp] theorem hasTree_iff : hasTree s = true ↔ s.phase ≠ .count := by simp [hasTree]

theorem unlessFault_next (h : unlessFault s k = .next t) :
    (s.err ≠ none ∧ t = respond .faulted 0 s) ∨ (s.err = none ∧ k = .next t) := by
  by_cases he : s.err = none
  · exact .inr ⟨he, by rwa [unlessFault_none he] at h⟩
  · rw [unlessFault_some he] at h
    exact .inl ⟨he, (Host.Outcome.next.inj h).symm⟩

theorem inPhase_next {ok : Bool} (h : inPhase ok s k = .next t) :
    (ok = false ∧ t = raise .badPhase s) ∨ (ok = true ∧ k = .next t) := by
  cases ok
  · exact .inl ⟨rfl, (Host.Outcome.next.inj h).symm⟩
  · exact .inr ⟨rfl, h⟩

/-- The two ways the front part ends a command that has a phase: refused in fault, or out of phase. -/
def Turned (ok : Bool) (s t : State) : Prop :=
  (s.err ≠ none ∧ t = respond .faulted 0 s) ∨ (s.err = none ∧ ok = false ∧ t = raise .badPhase s)

theorem front_next {ok : Bool} (h : unlessFault s (inPhase ok s k) = .next t) :
    Turned ok s t ∨ (s.err = none ∧ ok = true ∧ k = .next t) := by
  rcases unlessFault_next h with h | ⟨he, h⟩
  · exact .inl (.inl h)
  · rcases inPhase_next h with ⟨ho, rfl⟩ | ⟨ho, h⟩
    · exact .inl (.inr ⟨he, ho, rfl⟩)
    · exact .inr ⟨he, ho, h⟩

/-! ## The commands -/

theorem execClr_next (h : execClr s = .next t) :
    t = respond .ok 0 (clearEngine (abortDec (abortEnc s))) := (Host.Outcome.next.inj h).symm

theorem execCnt_next {y : Sym} (h : execCnt y s = .next t) :
    Turned (inCount s) s t ∨
    (s.err = none ∧ s.phase = .count ∧ getFreq s y = Config.freqMax Config.freqW ∧
      t = raise .countOverflow s) ∨
    (s.err = none ∧ s.phase = .count ∧ getFreq s y ≠ Config.freqMax Config.freqW ∧
      t = respond .ok ((getFreq s y + 1).setWidth 40) (setFreq y (getFreq s y + 1) s)) := by
  rcases front_next h with h | ⟨he, hp, h⟩
  · exact .inl h
  · unfold countOne at h
    split at h
    · rename_i hm
      exact .inr (.inl ⟨he, inCount_iff.1 hp, hm, (Host.Outcome.next.inj h).symm⟩)
    · rename_i hm
      exact .inr (.inr ⟨he, inCount_iff.1 hp, hm, (Host.Outcome.next.inj h).symm⟩)

theorem execBld_next (h : execBld s = .next t) :
    Turned (inCount s) s t ∨
    (s.err = none ∧ s.phase = .count ∧ leafScan s.freq = [] ∧ t = raise .emptyAlphabet s) ∨
    (s.err = none ∧ s.phase = .count ∧ leafScan s.freq ≠ [] ∧
      t = installTree (BitVec.ofNat 9 (leafScan s.freq).length)
        (BitVec.ofNat 9 ((buildNodes (leafScan s.freq)).length - 1)) (buildNodes (leafScan s.freq)) s) := by
  rcases front_next h with h | ⟨he, hp, h⟩
  · exact .inl h
  · unfold buildTree at h
    split at h
    · rename_i hm
      exact .inr (.inl ⟨he, inCount_iff.1 hp, List.isEmpty_iff.1 hm, (Host.Outcome.next.inj h).symm⟩)
    · rename_i hm
      exact .inr (.inr ⟨he, inCount_iff.1 hp, fun hn => hm (List.isEmpty_iff.2 hn),
        (Host.Outcome.next.inj h).symm⟩)

theorem execGen_next (h : execGen s = .next t) :
    Turned (inTree s) s t ∨
    (s.err = none ∧ s.phase = .tree ∧ ∃ es, codeEntries s = some es ∧ t = installCodes es s) := by
  rcases front_next h with h | ⟨he, hp, h⟩
  · exact .inl h
  · unfold generateCodes at h
    split at h
    · rename_i es hes
      exact .inr ⟨he, inTree_iff.1 hp, es, hes, (Host.Outcome.next.inj h).symm⟩
    · simp at h

theorem execEnc_next {y : Sym} (h : execEnc y s = .next t) :
    Turned (inReady s) s t ∨
    (s.err = none ∧ s.phase = .ready ∧ codeLen (getCode s y) = 0 ∧ t = raise .unknownSymbol s) ∨
    (s.err = none ∧ s.phase = .ready ∧ codeLen (getCode s y) ≠ 0 ∧
      t = respond .ok ((codeLen (getCode s y)).setWidth 40)
        { emitBits (getCode s y).bits s with encOpen := true }) := by
  rcases front_next h with h | ⟨he, hp, h⟩
  · exact .inl h
  · unfold encodeSymbol at h
    split at h
    · rename_i hm
      exact .inr (.inl ⟨he, inReady_iff.1 hp, hm, (Host.Outcome.next.inj h).symm⟩)
    · rename_i hm
      exact .inr (.inr ⟨he, inReady_iff.1 hp, hm, (Host.Outcome.next.inj h).symm⟩)

theorem execEncend_next (h : execEncend s = .next t) :
    Turned (inReady s) s t ∨ (s.err = none ∧ s.phase = .ready ∧ t = closeBits s) := by
  rcases front_next h with h | ⟨he, hp, h⟩
  · exact .inl h
  · exact .inr ⟨he, inReady_iff.1 hp, (Host.Outcome.next.inj h).symm⟩

theorem execDec_next {b : Bool} (h : execDec b s = .next t) :
    Turned (hasTree s) s t ∨
    (s.err = none ∧ s.phase ≠ .count ∧ s.nleaf = 1 ∧ ∃ y w, nodeAt s.nodes s.root = some (.leaf y w) ∧
      t = respond .ok (symbolData y) { emitSym (.sym y) s with decOpen := true }) ∨
    (s.err = none ∧ s.phase ≠ .count ∧ s.nleaf ≠ 1 ∧ ∃ w l r,
      nodeAt s.nodes s.cur = some (.internal w l r) ∧
      ((∃ y v, nodeAt s.nodes (if b then r else l) = some (.leaf y v) ∧ t = landOnLeaf y s) ∨
       (∃ v l' r', nodeAt s.nodes (if b then r else l) = some (.internal v l' r') ∧
          t = landInside (if b then r else l) s))) := by
  rcases front_next h with h | ⟨he, hp, h⟩
  · exact .inl h
  · have hp := hasTree_iff.1 hp
    unfold decodeBit at h
    split at h
    · rename_i hn
      unfold decodeSingle at h
      split at h
      · rename_i y w hr
        exact .inr (.inl ⟨he, hp, hn, y, w, hr, (Host.Outcome.next.inj h).symm⟩)
      · simp at h
      · simp at h
    · rename_i hn
      unfold descend at h
      split at h
      · simp at h
      · simp at h
      · rename_i w l r hc
        refine .inr (.inr ⟨he, hp, hn, w, l, r, hc, ?_⟩)
        split at h
        · simp at h
        · rename_i y v hk
          exact .inl ⟨y, v, hk, (Host.Outcome.next.inj h).symm⟩
        · rename_i v l' r' hk
          exact .inr ⟨v, l', r', hk, (Host.Outcome.next.inj h).symm⟩

theorem execDecend_next (h : execDecend s = .next t) :
    Turned (hasTree s) s t ∨
    (s.err = none ∧ s.phase ≠ .count ∧ s.cur ≠ s.root ∧ t = raise .malformedStream s) ∨
    (s.err = none ∧ s.phase ≠ .count ∧ s.cur = s.root ∧
      t = respond .ok 0 { emitSym .finish s with decOpen := false }) := by
  rcases front_next h with h | ⟨he, hp, h⟩
  · exact .inl h
  · have hp := hasTree_iff.1 hp
    unfold finishSymbols at h
    split at h
    · rename_i hm
      exact .inr (.inl ⟨he, hp, hm, (Host.Outcome.next.inj h).symm⟩)
    · rename_i hm
      exact .inr (.inr ⟨he, hp, not_not.1 hm, (Host.Outcome.next.inj h).symm⟩)

theorem execFail_next {b : Bool} (h : execFail b s = .next t) :
    (s.err ≠ none ∧ t = respond .faulted 0 s) ∨
    (s.err = none ∧ t = raise (if b then .sinkUnavailable else .sourceUnavailable) s) := by
  rcases unlessFault_next h with h | ⟨he, h⟩
  · exact .inl h
  · exact .inr ⟨he, (Host.Outcome.next.inj h).symm⟩

theorem execRds_next (h : execRds s = .next t) : t = respond .ok (statusWord s) s :=
  (Host.Outcome.next.inj h).symm

theorem execRdf_next {y : Sym} (h : execRdf y s = .next t) :
    (s.err ≠ none ∧ t = respond .faulted 0 s) ∨
    (s.err = none ∧ t = respond .ok ((getFreq s y).setWidth 40) s) := by
  rcases unlessFault_next h with h | ⟨he, h⟩
  · exact .inl h
  · exact .inr ⟨he, (Host.Outcome.next.inj h).symm⟩

theorem execRdl_next {y : Sym} (h : execRdl y s = .next t) :
    (s.err ≠ none ∧ t = respond .faulted 0 s) ∨
    (s.err = none ∧
      t = respond .ok (if inReady s then (codeLen (getCode s y)).setWidth 40 else 0) s) := by
  rcases unlessFault_next h with h | ⟨he, h⟩
  · exact .inl h
  · exact .inr ⟨he, (Host.Outcome.next.inj h).symm⟩

theorem execRdnw_next {i : NodeIx} (h : execRdnw i s = .next t) :
    (s.err ≠ none ∧ t = respond .faulted 0 s) ∨
    (s.err = none ∧ t = respond .ok (((readableNode s i).map Node.weight).getD 0) s) := by
  rcases unlessFault_next h with h | ⟨he, h⟩
  · exact .inl h
  · exact .inr ⟨he, (Host.Outcome.next.inj h).symm⟩

theorem execRdnl_next {i : NodeIx} (h : execRdnl i s = .next t) :
    (s.err ≠ none ∧ t = respond .faulted 0 s) ∨
    (s.err = none ∧ t = respond .ok (linksData (readableNode s i)) s) := by
  rcases unlessFault_next h with h | ⟨he, h⟩
  · exact .inl h
  · exact .inr ⟨he, (Host.Outcome.next.inj h).symm⟩

/-- A word's outcome: that of the command it decodes to, or of an illegal word (R93, R94). -/
theorem runWord_next {w : Word} (h : runWord w s = .next t) :
    (∃ i, decode w = .ok i ∧ exec i s = .next t) ∨
    (∃ r, decode w = .error r ∧ ((s.err ≠ none ∧ t = respond .faulted 0 s) ∨
      (s.err = none ∧ t = raise .illegalCommand s))) := by
  unfold runWord at h
  split at h
  · rename_i i hi
    exact .inl ⟨i, hi, h⟩
  · rename_i r hr
    refine .inr ⟨r, hr, ?_⟩
    rcases unlessFault_next h with h | ⟨he, h⟩
    · exact .inl h
    · exact .inr ⟨he, (Host.Outcome.next.inj h).symm⟩

/-! ## All commands at once -/

/-- What the commands do when they answer OK, one constructor per effect. -/
inductive Did (s : State) : Instr → State → Prop where
  | clr : Did s .clr (respond .ok 0 (clearEngine (abortDec (abortEnc s))))
  | cnt {y : Sym} : s.err = none → s.phase = .count → getFreq s y ≠ Config.freqMax Config.freqW →
      Did s (.cnt y) (respond .ok ((getFreq s y + 1).setWidth 40) (setFreq y (getFreq s y + 1) s))
  | bld : s.err = none → s.phase = .count → leafScan s.freq ≠ [] →
      Did s .bld (installTree (BitVec.ofNat 9 (leafScan s.freq).length)
        (BitVec.ofNat 9 ((buildNodes (leafScan s.freq)).length - 1)) (buildNodes (leafScan s.freq)) s)
  | gen {es : List (Sym × List Bool)} : s.err = none → s.phase = .tree → codeEntries s = some es →
      Did s .gen (installCodes es s)
  | enc {y : Sym} : s.err = none → s.phase = .ready → codeLen (getCode s y) ≠ 0 →
      Did s (.enc y) (respond .ok ((codeLen (getCode s y)).setWidth 40)
        { emitBits (getCode s y).bits s with encOpen := true })
  | encend : s.err = none → s.phase = .ready → Did s .encend (closeBits s)
  | decSingle {b : Bool} {y : Sym} {w : Weight} : s.err = none → s.phase ≠ .count → s.nleaf = 1 →
      nodeAt s.nodes s.root = some (.leaf y w) →
      Did s (.dec b) (respond .ok (symbolData y) { emitSym (.sym y) s with decOpen := true })
  | decLeaf {b : Bool} {w : Weight} {l r : NodeIx} {y : Sym} {v : Weight} : s.err = none →
      s.phase ≠ .count → s.nleaf ≠ 1 → nodeAt s.nodes s.cur = some (.internal w l r) →
      nodeAt s.nodes (if b then r else l) = some (.leaf y v) → Did s (.dec b) (landOnLeaf y s)
  | decInside {b : Bool} {w : Weight} {l r : NodeIx} {v : Weight} {l' r' : NodeIx} : s.err = none →
      s.phase ≠ .count → s.nleaf ≠ 1 → nodeAt s.nodes s.cur = some (.internal w l r) →
      nodeAt s.nodes (if b then r else l) = some (.internal v l' r') →
      Did s (.dec b) (landInside (if b then r else l) s)
  | decend : s.err = none → s.phase ≠ .count → s.cur = s.root →
      Did s .decend (respond .ok 0 { emitSym .finish s with decOpen := false })
  | rds : Did s .rds (respond .ok (statusWord s) s)
  | rdf {y : Sym} : s.err = none → Did s (.rdf y) (respond .ok ((getFreq s y).setWidth 40) s)
  | rdl {y : Sym} : s.err = none →
      Did s (.rdl y) (respond .ok (if inReady s then (codeLen (getCode s y)).setWidth 40 else 0) s)
  | rdnw {i : NodeIx} : s.err = none →
      Did s (.rdnw i) (respond .ok (((readableNode s i).map Node.weight).getD 0) s)
  | rdnl {i : NodeIx} : s.err = none → Did s (.rdnl i) (respond .ok (linksData (readableNode s i)) s)

/-- Every command that goes on is refused in fault, or raises an error, or does what it is for (R243). -/
theorem exec_next {i : Instr} (h : exec i s = .next t) :
    (s.err ≠ none ∧ i ≠ .clr ∧ i ≠ .rds ∧ t = respond .faulted 0 s) ∨
    (s.err = none ∧ ∃ e, t = raise e s) ∨ Did s i t := by
  cases i with
  | clr => rw [execClr_next h]; exact .inr (.inr .clr)
  | rds => rw [execRds_next h]; exact .inr (.inr .rds)
  | cnt y =>
    rcases execCnt_next h with (⟨he, rfl⟩ | ⟨he, -, rfl⟩) | ⟨he, -, -, rfl⟩ | ⟨he, hp, hm, rfl⟩
    · exact .inl ⟨he, by simp, by simp, rfl⟩
    · exact .inr (.inl ⟨he, _, rfl⟩)
    · exact .inr (.inl ⟨he, _, rfl⟩)
    · exact .inr (.inr (.cnt he hp hm))
  | bld =>
    rcases execBld_next h with (⟨he, rfl⟩ | ⟨he, -, rfl⟩) | ⟨he, -, -, rfl⟩ | ⟨he, hp, hm, rfl⟩
    · exact .inl ⟨he, by simp, by simp, rfl⟩
    · exact .inr (.inl ⟨he, _, rfl⟩)
    · exact .inr (.inl ⟨he, _, rfl⟩)
    · exact .inr (.inr (.bld he hp hm))
  | gen =>
    rcases execGen_next h with (⟨he, rfl⟩ | ⟨he, -, rfl⟩) | ⟨he, hp, es, hes, rfl⟩
    · exact .inl ⟨he, by simp, by simp, rfl⟩
    · exact .inr (.inl ⟨he, _, rfl⟩)
    · exact .inr (.inr (.gen he hp hes))
  | enc y =>
    rcases execEnc_next h with (⟨he, rfl⟩ | ⟨he, -, rfl⟩) | ⟨he, -, -, rfl⟩ | ⟨he, hp, hm, rfl⟩
    · exact .inl ⟨he, by simp, by simp, rfl⟩
    · exact .inr (.inl ⟨he, _, rfl⟩)
    · exact .inr (.inl ⟨he, _, rfl⟩)
    · exact .inr (.inr (.enc he hp hm))
  | encend =>
    rcases execEncend_next h with (⟨he, rfl⟩ | ⟨he, -, rfl⟩) | ⟨he, hp, rfl⟩
    · exact .inl ⟨he, by simp, by simp, rfl⟩
    · exact .inr (.inl ⟨he, _, rfl⟩)
    · exact .inr (.inr (.encend he hp))
  | dec b =>
    rcases execDec_next h with (⟨he, rfl⟩ | ⟨he, -, rfl⟩) | ⟨he, hp, hn, y, w, hr, rfl⟩ |
      ⟨he, hp, hn, w, l, r, hc, ⟨y, v, hv, rfl⟩ | ⟨v, l', r', hv, rfl⟩⟩
    · exact .inl ⟨he, by simp, by simp, rfl⟩
    · exact .inr (.inl ⟨he, _, rfl⟩)
    · exact .inr (.inr (.decSingle he hp hn hr))
    · exact .inr (.inr (.decLeaf he hp hn hc hv))
    · exact .inr (.inr (.decInside he hp hn hc hv))
  | decend =>
    rcases execDecend_next h with (⟨he, rfl⟩ | ⟨he, -, rfl⟩) | ⟨he, -, -, rfl⟩ | ⟨he, hp, hm, rfl⟩
    · exact .inl ⟨he, by simp, by simp, rfl⟩
    · exact .inr (.inl ⟨he, _, rfl⟩)
    · exact .inr (.inl ⟨he, _, rfl⟩)
    · exact .inr (.inr (.decend he hp hm))
  | fail k =>
    rcases execFail_next h with ⟨he, rfl⟩ | ⟨he, rfl⟩
    · exact .inl ⟨he, by simp, by simp, rfl⟩
    · exact .inr (.inl ⟨he, _, rfl⟩)
  | rdf y =>
    rcases execRdf_next h with ⟨he, rfl⟩ | ⟨he, rfl⟩
    · exact .inl ⟨he, by simp, by simp, rfl⟩
    · exact .inr (.inr (.rdf he))
  | rdl y =>
    rcases execRdl_next h with ⟨he, rfl⟩ | ⟨he, rfl⟩
    · exact .inl ⟨he, by simp, by simp, rfl⟩
    · exact .inr (.inr (.rdl he))
  | rdnw i =>
    rcases execRdnw_next h with ⟨he, rfl⟩ | ⟨he, rfl⟩
    · exact .inl ⟨he, by simp, by simp, rfl⟩
    · exact .inr (.inr (.rdnw he))
  | rdnl i =>
    rcases execRdnl_next h with ⟨he, rfl⟩ | ⟨he, rfl⟩
    · exact .inl ⟨he, by simp, by simp, rfl⟩
    · exact .inr (.inr (.rdnl he))

/-- The same of a command word. -/
theorem word_next {w : Word} (h : runWord w s = .next t) :
    (s.err ≠ none ∧ decode w ≠ .ok .clr ∧ decode w ≠ .ok .rds ∧ t = respond .faulted 0 s) ∨
    (s.err = none ∧ ∃ e, t = raise e s) ∨ ∃ i, decode w = .ok i ∧ Did s i t := by
  rcases runWord_next h with ⟨i, hi, h⟩ | ⟨r, hr, ⟨he, rfl⟩ | ⟨he, rfl⟩⟩
  · rcases exec_next h with ⟨he, h1, h2, rfl⟩ | h | h
    · exact .inl ⟨he, by rw [hi]; simpa using h1, by rw [hi]; simpa using h2, rfl⟩
    · exact .inr (.inl h)
    · exact .inr (.inr ⟨i, hi, h⟩)
  · exact .inl ⟨he, by simp [hr], by simp [hr], rfl⟩
  · exact .inr (.inl ⟨he, _, rfl⟩)

end Sys2Proof.Machine
end

