-- ==== Sys2Proof/Laws/Walk.lean ====
section
/-!
SUPPORT. Paths (spec/42_codegen.md R161), the walk of `GEN` that finds them (R165), and the code table it
fills (R160, R163).
-/

namespace Sys2Proof.Machine

/-! ## Paths -/

theorem PathTo.append {nodes : List Node} {a b c : NodeIx} {p q : List Bool} (h : PathTo nodes a b p)
    (h' : PathTo nodes b c q) : PathTo nodes a c (p ++ q) := by
  induction h' with
  | root => simpa using h
  | left _ hn ih => rw [← List.append_assoc]; exact .left ih hn
  | right _ hn ih => rw [← List.append_assoc]; exact .right ih hn

theorem PathTo.child {nodes : List Node} {i l r : NodeIx} {w : Weight} (b : Bool)
    (h : nodeAt nodes i = some (.internal w l r)) : PathTo nodes i (if b then r else l) [b] := by
  cases b
  · simpa using PathTo.left .root h
  · simpa using PathTo.right .root h

theorem pathTo_nil_iff {nodes : List Node} {i j : NodeIx} : PathTo nodes i j [] ↔ j = i := by
  constructor
  · intro h
    generalize hq : ([] : List Bool) = q at h
    cases h with
    | root => rfl
    | left => simp at hq
    | right => simp at hq
  · rintro rfl; exact .root

/-- A path, by its first branch. -/
theorem pathTo_cons_iff {nodes : List Node} {i j : NodeIx} {b : Bool} {p : List Bool} :
    PathTo nodes i j (b :: p) ↔ ∃ (w : Weight) (l r : NodeIx),
      nodeAt nodes i = some (.internal w l r) ∧ PathTo nodes (if b then r else l) j p := by
  constructor
  · intro h
    generalize hq : b :: p = q at h
    induction h generalizing p with
    | root => simp at hq
    | @left k p' w l r hk hn ih =>
      cases p' with
      | nil =>
        obtain ⟨rfl, rfl⟩ : b = false ∧ p = [] := by simpa using hq
        rw [pathTo_nil_iff.1 hk] at hn
        exact ⟨w, l, r, hn, .root⟩
      | cons c p'' =>
        obtain ⟨rfl, rfl⟩ : b = c ∧ p = p'' ++ [false] := by simpa using hq
        obtain ⟨w', l', r', h', hp⟩ := ih rfl
        exact ⟨w', l', r', h', .left hp hn⟩
    | @right k p' w l r hk hn ih =>
      cases p' with
      | nil =>
        obtain ⟨rfl, rfl⟩ : b = true ∧ p = [] := by simpa using hq
        rw [pathTo_nil_iff.1 hk] at hn
        exact ⟨w, l, r, hn, .root⟩
      | cons c p'' =>
        obtain ⟨rfl, rfl⟩ : b = c ∧ p = p'' ++ [true] := by simpa using hq
        obtain ⟨w', l', r', h', hp⟩ := ih rfl
        exact ⟨w', l', r', h', .right hp hn⟩
  · rintro ⟨w, l, r, hn, hp⟩
    exact (PathTo.child b hn).append hp

/-- A bit string leads to one node only. -/
theorem PathTo.functional {nodes : List Node} {i j k : NodeIx} {p : List Bool} (h : PathTo nodes i j p)
    (h' : PathTo nodes i k p) : j = k := by
  induction p generalizing i with
  | nil => rw [pathTo_nil_iff.1 h, pathTo_nil_iff.1 h']
  | cons b p ih =>
    obtain ⟨w, l, r, hn, hp⟩ := pathTo_cons_iff.1 h
    obtain ⟨w', l', r', hn', hp'⟩ := pathTo_cons_iff.1 h'
    obtain ⟨rfl, rfl, rfl⟩ : w = w' ∧ l = l' ∧ r = r' := by simpa using hn.symm.trans hn'
    exact ih hp hp'

/-! ## The walk -/

/-- The links of every internal node lead to valid nodes of lesser index (R41 item 5). -/
def Descending (nodes : List Node) : Prop :=
  ∀ (i : NodeIx) (w : Weight) (l r : NodeIx), nodeAt nodes i = some (.internal w l r) →
    l.toNat < i.toNat ∧ r.toNat < i.toNat

theorem walk_isSome {nodes : List Node} (hd : Descending nodes) (f : Nat) (i : NodeIx) (p : List Bool)
    (hf : i.toNat < f) (hi : i.toNat < nodes.length) : ∃ es, walk nodes f i p = some es := by
  induction f generalizing i p with
  | zero => omega
  | succ f ih =>
    have hn : nodeAt nodes i = some nodes[i.toNat] := List.getElem?_eq_getElem hi
    cases hc : nodes[i.toNat] with
    | leaf y w => exact ⟨_, by rw [walk, hn, hc]⟩
    | internal w l r =>
      rw [hc] at hn
      obtain ⟨hl, hr⟩ := hd i w l r hn
      obtain ⟨es, hes⟩ := ih l (p ++ [false]) (by omega) (by omega)
      obtain ⟨es', hes'⟩ := ih r (p ++ [true]) (by omega) (by omega)
      exact ⟨es ++ es', by simp only [walk, hn, hes, hes']⟩

/-- The walk from `i` finds the leaves below `i`, each with its path from `i` after `p` (R161, R165). -/
theorem mem_walk_iff {nodes : List Node} {f : Nat} {i : NodeIx} {p : List Bool}
    {es : List (Sym × List Bool)} (h : walk nodes f i p = some es) (y : Sym) (q : List Bool) :
    (y, q) ∈ es ↔ ∃ (j : NodeIx) (w : Weight) (c : List Bool),
      nodeAt nodes j = some (.leaf y w) ∧ PathTo nodes i j c ∧ q = p ++ c := by
  induction f generalizing i p es with
  | zero => simp [walk] at h
  | succ f ih =>
    rw [walk] at h
    split at h
    · simp at h
    · rename_i z w hn
      obtain rfl := Option.some.inj h
      rw [List.mem_singleton, Prod.mk.injEq]
      constructor
      · rintro ⟨rfl, rfl⟩; exact ⟨i, w, [], hn, .root, by simp⟩
      · rintro ⟨j, v, c, hj, hc, rfl⟩
        cases c with
        | nil =>
          rw [pathTo_nil_iff.1 hc, hn] at hj
          simp only [Option.some.injEq, Node.leaf.injEq] at hj
          exact ⟨hj.1.symm, by simp⟩
        | cons b c =>
          obtain ⟨w', l, r, hn', -⟩ := pathTo_cons_iff.1 hc
          simp [hn] at hn'
    · rename_i w l r hn
      split at h
      · simp at h
      · rename_i below hl
        split at h
        · simp at h
        · rename_i below' hr
          obtain rfl := Option.some.inj h
          rw [List.mem_append, ih hl, ih hr]
          constructor
          · rintro (⟨j, v, c, hj, hc, rfl⟩ | ⟨j, v, c, hj, hc, rfl⟩)
            · exact ⟨j, v, false :: c, hj, pathTo_cons_iff.2 ⟨w, l, r, hn, by simpa using hc⟩, by simp⟩
            · exact ⟨j, v, true :: c, hj, pathTo_cons_iff.2 ⟨w, l, r, hn, by simpa using hc⟩, by simp⟩
          · rintro ⟨j, v, c, hj, hc, rfl⟩
            cases c with
            | nil => rw [pathTo_nil_iff.1 hc, hn] at hj; simp at hj
            | cons b c =>
              obtain ⟨w', l', r', hn', hp⟩ := pathTo_cons_iff.1 hc
              obtain ⟨rfl, rfl, rfl⟩ : w = w' ∧ l = l' ∧ r = r' := by simpa using hn.symm.trans hn'
              cases b
              · exact .inl ⟨j, v, c, hj, by simpa using hp, by simp⟩
              · exact .inr ⟨j, v, c, hj, by simpa using hp, by simp⟩

/-! ## The tables -/

theorem getFreq_setFreq_same (s : State) (y : Sym) (v : Count) : getFreq (setFreq y v s) y = v := by
  simp [getFreq, setFreq]

theorem getFreq_setFreq_other (s : State) {y z : Sym} (v : Count) (h : z ≠ y) :
    getFreq (setFreq y v s) z = getFreq s z := by
  have hn : y.toNat ≠ z.toNat := fun e => h (BitVec.eq_of_toNat_eq e.symm)
  simp [getFreq, setFreq, Vector.getElem_set_ne, hn]

theorem setCode_same (t : Vector CodeRec 256) (y : Sym) (c : CodeRec) :
    (setCode y c t)[y.toNat]'(y.isLt) = c := by
  simp [setCode]

theorem setCode_other (t : Vector CodeRec 256) {y z : Sym} (c : CodeRec) (h : z ≠ y) :
    (setCode y c t)[z.toNat]'(z.isLt) = t[z.toNat]'(z.isLt) := by
  have hn : y.toNat ≠ z.toNat := fun e => h (BitVec.eq_of_toNat_eq e.symm)
  simp [setCode, Vector.getElem_set_ne, hn]

theorem foldl_setCode (es : List (Sym × List Bool)) (t : Vector CodeRec 256) (y : Sym)
    (c : List Bool) (hone : ∀ q, (y, q) ∈ es → q = c) :
    (es.foldl (fun t e => setCode e.1 ⟨e.2⟩ t) t)[y.toNat]'(y.isLt) =
      if (y, c) ∈ es then ⟨c⟩ else t[y.toNat]'(y.isLt) := by
  induction es generalizing t with
  | nil => simp
  | cons e rest ih =>
    rw [List.foldl_cons, ih _ (fun q hq => hone q (by simp [hq]))]
    obtain ⟨z, q⟩ := e
    by_cases hr : (y, c) ∈ rest
    · simp [hr]
    · by_cases hz : z = y
      · subst hz
        obtain rfl := hone q (by simp)
        simp [hr, setCode_same]
      · have hzc : (y, c) ≠ (z, q) := fun hc => hz (Prod.mk.inj hc).1.symm
        simp [hr, hzc, setCode_other t ⟨q⟩ (Ne.symm hz)]

/-- A symbol with one entry has that code (R160). -/
theorem tableOf_of_mem {es : List (Sym × List Bool)} {y : Sym} {c : List Bool} (hm : (y, c) ∈ es)
    (hone : ∀ q, (y, q) ∈ es → q = c) : (tableOf es)[y.toNat]'(y.isLt) = ⟨c⟩ := by
  rw [tableOf, foldl_setCode es noCodes y c hone, if_pos hm]

/-- A symbol with no entry has no code (R163). -/
theorem tableOf_of_not_mem {es : List (Sym × List Bool)} {y : Sym} (h : ∀ q, (y, q) ∉ es) :
    (tableOf es)[y.toNat]'(y.isLt) = ⟨[]⟩ := by
  rw [tableOf, foldl_setCode es noCodes y [] (fun q hq => absurd hq (h q)), if_neg (h [])]
  simp [noCodes]

end Sys2Proof.Machine
end

