-- ==== Sys2Proof/Laws/Words.lean ====
section
/-!
SUPPORT. The words the machine appends, written as the spec writes them (spec/30_encoding.md R100 to R104),
and the packed `data` fields of R102 and R34 as concatenations.
-/

namespace Sys2Proof.Machine

theorem respond_ok (d : Data) (s : State) : respond .ok d s = { s with rsp := s.rsp ++ [okWord d] } := rfl

theorem respond_faulted (s : State) :
    respond .faulted 0 s = { s with rsp := s.rsp ++ [faultedWord] } := rfl

@[simp] theorem errorWord_eq (e : ErrorKind) :
    Response.word { st := .error e, data := 0#40 } = errorWord e := rfl

@[simp] theorem okWord_eq (d : Data) : Response.word { st := .ok, data := d } = okWord d := rfl

@[simp] theorem faultedWord_eq : Response.word { st := .faulted, data := 0#40 } = faultedWord := rfl

@[simp] theorem bit_word (b : Bool) : (BitBeat.bit b).word = bitWord b := by cases b <;> rfl

@[simp] theorem close_word : BitBeat.close.word = closeWord := rfl

@[simp] theorem abort_word : BitBeat.abort.word = abortBitWord := rfl

@[simp] theorem sym_word (y : Sym) : (SymBeat.sym y).word = symWord y := rfl

@[simp] theorem finish_word : SymBeat.finish.word = endWord := rfl

@[simp] theorem abort_sym_word : SymBeat.abort.word = abortSymWord := rfl

/-- Widening with zeros on the left (R7) is concatenation with zeros. -/
theorem setWidth_eq_zero_append (n : Nat) {m : Nat} (x : BitVec m) :
    x.setWidth (n + m) = (0 : BitVec n) ++ x := by
  ext i hi
  simp only [BitVec.getElem_setWidth, BitVec.getElem_append]
  split
  · simp [BitVec.getLsbD_eq_getElem, *]
  · rw [BitVec.getLsbD_of_ge _ _ (by omega)]; simp

theorem count_data (c : Count) : (c.setWidth 40 : Data) = (0 : BitVec 8) ++ c :=
  setWidth_eq_zero_append 8 c

theorem length_data (n : BitVec 8) : (n.setWidth 40 : Data) = (0 : BitVec 32) ++ n :=
  setWidth_eq_zero_append 32 n

theorem append_assoc_cast {n m k : Nat} (x : BitVec n) (y : BitVec m) (z : BitVec k) :
    x ++ (y ++ z) = (x ++ y ++ z).cast (by omega) := by
  ext i hi
  simp only [BitVec.getElem_append, BitVec.getElem_cast]
  grind

theorem buildData_eq (n r : NodeIx) : buildData n r = (0 : BitVec 22) ++ r ++ n :=
  (setWidth_eq_zero_append 22 (r ++ n)).trans (append_assoc_cast _ _ _)

theorem symbolData_eq (y : Sym) : symbolData y = (0 : BitVec 31) ++ (1 : BitVec 1) ++ y :=
  (setWidth_eq_zero_append 31 ((1 : BitVec 1) ++ y)).trans (append_assoc_cast _ _ _)

theorem linksData_leaf (y : Sym) (w : Weight) :
    linksData (some (.leaf y w)) = (0 : BitVec 30) ++ y ++ (1 : BitVec 2) :=
  (setWidth_eq_zero_append 30 (y ++ (1 : BitVec 2))).trans (append_assoc_cast _ _ _)

theorem linksData_internal (w : Weight) (l r : NodeIx) : linksData (some (.internal w l r)) =
    (0 : BitVec 12) ++ r ++ l ++ (0 : BitVec 8) ++ (2 : BitVec 2) := by
  refine (setWidth_eq_zero_append 12 (r ++ l ++ (0 : BitVec 8) ++ (2 : BitVec 2))).trans ?_
  ext i hi
  simp only [BitVec.getElem_append]
  grind

/-- Where a field of a concatenation stands (R7). -/
theorem extractLsb'_append_high {m n : Nat} (a : BitVec m) (b : BitVec n) :
    (a ++ b).extractLsb' n m = a := by
  ext i hi
  simp only [BitVec.getElem_extractLsb', BitVec.getLsbD_append]
  rw [if_neg (by omega), show n + i - n = i by omega, BitVec.getLsbD_eq_getElem hi]

theorem extractLsb'_append_low {m n : Nat} (a : BitVec m) (b : BitVec n) :
    (a ++ b).extractLsb' 0 n = b := by
  ext i hi
  simp only [BitVec.getElem_extractLsb', BitVec.getLsbD_append]
  rw [if_pos (by omega), Nat.zero_add, BitVec.getLsbD_eq_getElem hi]

theorem extractLsb'_append_above {m n k : Nat} (a : BitVec m) (b : BitVec n) (j : Nat) :
    (a ++ b).extractLsb' (n + j) k = a.extractLsb' j k := by
  ext i hi
  simp only [BitVec.getElem_extractLsb', BitVec.getLsbD_append]
  rw [if_neg (by omega), show n + j + i - n = j + i by omega]

end Sys2Proof.Machine
end

