-- ==== Sys2Proof/Tests/Slice0.lean ====
section
/-!
SUPPORT. Tests whose expected results come from the spec (mostly spec/95_test_vectors.md), and for every
obligation with hypotheses a concrete state that meets them.
-/

namespace Sys2Proof.Tests

open Sys2Proof Sys2Proof.Machine

/-! ## Ill-formed fields (R94), one per check -/

theorem test_illformed_opcode_low : (⟨0x0, 0, 0⟩ : Fields).violation = some .opcodeUnassigned := by decide
theorem test_illformed_opcode_high : (⟨0xB, 0, 0⟩ : Fields).violation = some .opcodeUnassigned := by decide
theorem test_illformed_function : (⟨0x2, 1, 0x61⟩ : Fields).violation = some .functionNotZero := by decide
theorem test_illformed_read_function : (⟨0xA, 5, 0⟩ : Fields).violation = some .functionUnassigned := by decide
theorem test_illformed_operand : (⟨0xA, 0, 1⟩ : Fields).violation = some .operandNotZero := by decide
theorem test_illformed_symbol : (⟨0x5, 0, 0x100⟩ : Fields).violation = some .symbolTooWide := by decide
theorem test_illformed_bit : (⟨0x9, 0, 2⟩ : Fields).violation = some .bitTooWide := by decide
theorem test_illformed_refused : (⟨0x3, 0, 1⟩ : Fields).wellFormed = false := by decide

/-! ## Decoding: words written out from the opcode map of R91, field by field -/

theorem test_decode_clr : decode 0b0001_000_000000000 = .ok .clr := by rfl
theorem test_decode_cnt : decode 0b0010_000_0_01100001 = .ok (.cnt 0x61) := by rfl
theorem test_decode_bld : decode 0b0011_000_000000000 = .ok .bld := by rfl
theorem test_decode_gen : decode 0b0100_000_000000000 = .ok .gen := by rfl
theorem test_decode_enc : decode 0b0101_000_0_01100011 = .ok (.enc 0x63) := by rfl
theorem test_decode_encend : decode 0b0110_000_000000000 = .ok .encend := by rfl
theorem test_decode_dec : decode 0b0111_000_00000000_1 = .ok (.dec true) := by rfl
theorem test_decode_decend : decode 0b1000_000_000000000 = .ok .decend := by rfl
theorem test_decode_fail : decode 0b1001_000_00000000_0 = .ok (.fail false) := by rfl
theorem test_decode_rds : decode 0b1010_000_000000000 = .ok .rds := by rfl
theorem test_decode_rdf : decode 0b1010_001_0_01111010 = .ok (.rdf 0x7A) := by rfl
theorem test_decode_rdl : decode 0b1010_010_0_01110010 = .ok (.rdl 0x72) := by rfl
theorem test_decode_rdnw : decode 0b1010_011_111111111 = .ok (.rdnw 511) := by rfl
theorem test_decode_rdnl : decode 0b1010_100_111111110 = .ok (.rdnl 510) := by rfl
theorem test_decode_rejects : decode 0x1001 = .error .operandNotZero ∧ decode 0x1200 = .error .functionNotZero ∧
    decode 0xAE00 = .error .functionUnassigned ∧ decode 0xFFFF = .error .opcodeUnassigned := ⟨rfl, rfl, rfl, rfl⟩

/-- The examples of R96. -/
theorem test_assemble : Asm.assembleLine "CNT 'a'".toList = some [.cnt 0x61] ∧
    Asm.assembleLine "DEC 1".toList = some [.dec true] ∧
    Asm.assembleLine "RDNL 8 ; the root".toList = some [.rdnl 8] ∧
    Asm.assembleLine "CNT 0x61".toList = some [.cnt 0x61] := by decide +kernel

/-! ## Small states -/

/-- A state after a command that goes on. -/
def after (i : Instr) (s : State) : State :=
  match exec i s with
  | .next t => t
  | .fault _ => { State.reset with nleaf := 511 }
  | .refused _ => { State.reset with nleaf := 511 }

/-- Counting done: "abcc". -/
def abccCounted : State :=
  { State.reset with freq := ((State.reset.freq.set 0x61 1).set 0x62 1).set 0x63 2 }

/-- Trace 1 of 41_build.md: the tree of "abcc". -/
def abccTree : State :=
  { abccCounted with
    nodes := [.leaf 0x61 1, .leaf 0x62 1, .leaf 0x63 2, .internal 2 0 1, .internal 4 2 3]
    nleaf := 3, root := 4, cur := 4, phase := .tree }

/-- V-GEN-2: with its code table. -/
def abccReady : State :=
  { abccTree with
    code := ((State.reset.code.set 0x61 ⟨[true, false]⟩).set 0x62 ⟨[true, true]⟩).set 0x63 ⟨[false]⟩
    phase := .ready }

/-- E1: the single-leaf tree of "aaaa", with its code table. -/
def aaaaReady : State :=
  { State.reset with
    freq := State.reset.freq.set 0x61 4
    nodes := [.leaf 0x61 4], nleaf := 1
    code := State.reset.code.set 0x61 ⟨[false]⟩
    phase := .ready }

/-- V-CLR-1: both sessions open. -/
def abccOpen : State := { abccReady with encOpen := true, decOpen := true, cur := 3 }

/-- In fault after MalformedStream. -/
def abccFaulted : State := { abccReady with err := some .malformedStream, cur := 3 }

/-- A counter at its greatest value. -/
def fullCounter : State := { State.reset with freq := State.reset.freq.set 0x61 0xFFFFFFFF }

/-- A counter one below its greatest value. -/
def nearlyFull : State := { State.reset with freq := State.reset.freq.set 0x61 0xFFFFFFFE }

/-- Counters of 2 bits at their greatest value. -/
def fullTwoBits : State := { State.reset with freq := State.reset.freq.set 0x61 3 }

/-- PHASE, ERR, NLEAF, ROOT, CUR, ENCOPEN and DECOPEN. -/
def registers (s : State) : Phase × Option ErrorKind × NodeIx × NodeIx × NodeIx × Bool × Bool :=
  (s.phase, s.err, s.nleaf, s.root, s.cur, s.encOpen, s.decOpen)

/-- RSP, BITOUT and SYMOUT. -/
def outputs (s : State) : List RspWord × List BitWord × List SymWord := (s.rsp, s.bitOut, s.symOut)

/-- Trace 2 of 41_build.md: the tree of "abracadabra". -/
def abracadabraTree : State :=
  { State.reset with
    freq := ((((State.reset.freq.set 0x61 5).set 0x62 2).set 0x63 1).set 0x64 1).set 0x72 2
    nodes := [.leaf 0x61 5, .leaf 0x62 2, .leaf 0x63 1, .leaf 0x64 1, .leaf 0x72 2,
      .internal 2 2 3, .internal 4 1 4, .internal 6 5 6, .internal 11 0 7]
    nleaf := 5, root := 8, cur := 8, phase := .tree }

/-! ## One step of each command; a response `{st, data}` is written as `st` times 2^40 plus `data` -/

/-- V-CLR-1. -/
theorem test_clr : outputs (after .clr { abccOpen with bitOut := [1, 1] }) = ([0], [1, 1, 3], [0x300]) ∧
    registers (after .clr abccOpen) = (.count, none, 0, 0, 0, false, false) := by decide +kernel
/-- R120's example. -/
theorem test_cnt : countOf (after (.cnt 0x61) State.reset).freq 0x61 = 1 ∧
    outputs (after (.cnt 0x61) State.reset) = ([1], [], []) := by decide +kernel
/-- R120, R122: the increment past 2^32 - 1 is refused. -/
theorem test_cnt_overflow : countOf (after (.cnt 0x61) fullCounter).freq 0x61 = 0xFFFFFFFF ∧
    (after (.cnt 0x61) fullCounter).err = some .countOverflow ∧
    outputs (after (.cnt 0x61) fullCounter) = ([0x80000000000], [], []) := by decide +kernel
/-- R122 with FREQ_W = 2: 3 is the greatest value. -/
theorem test_cnt_width_two : (match countCommand 2 0x61 fullTwoBits with
    | .next t => t.err | _ => none) = some .countOverflow := by decide +kernel
/-- V-BLD-2. -/
theorem test_bld : (after .bld abccCounted).nodes = abccTree.nodes ∧
    registers (after .bld abccCounted) = (.tree, none, 3, 4, 4, false, false) ∧
    outputs (after .bld abccCounted) = ([0x803], [], []) := by decide +kernel
/-- The weight arithmetic vector of 95_test_vectors.md section 2.3 (R139). -/
theorem test_bld_wide_sum : (after .bld { State.reset with
    freq := (State.reset.freq.set 0 0xFFFFFFFF).set 1 0xFFFFFFFF }).nodes[2]? =
      some (.internal 0x01FFFFFFFE 0 1) := by decide +kernel
/-- V-GEN-2. -/
theorem test_gen : (getCode (after .gen abccTree) 0x61).bits = [true, false] ∧
    (getCode (after .gen abccTree) 0x62).bits = [true, true] ∧
    (getCode (after .gen abccTree) 0x63).bits = [false] ∧ (getCode (after .gen abccTree) 0x64).bits = [] ∧
    registers (after .gen abccTree) = (.ready, none, 3, 4, 4, false, false) ∧
    (after .gen abccTree).rsp = [0] := by decide +kernel
/-- V-GEN-7: GEN in phase COUNT. -/
theorem test_gen_phase : registers (after .gen State.reset) = (.count, some .badPhase, 0, 0, 0, false, false) ∧
    (after .gen State.reset).rsp = [0x70000000000] := by decide +kernel
/-- V-CLR-1: the code of 'b' is "11". -/
theorem test_enc : outputs (after (.enc 0x62) abccReady) = ([2], [1, 1], []) ∧
    registers (after (.enc 0x62) abccReady) = (.ready, none, 3, 4, 4, true, false) := by decide +kernel
/-- R175: a symbol without a code, in an open session. -/
theorem test_enc_unknown :
    outputs (after (.enc 0x64) { abccReady with encOpen := true, bitOut := [0] }) =
      ([0x40000000000], [0, 3], []) ∧
    registers (after (.enc 0x64) { abccReady with encOpen := true }) =
      (.ready, some .unknownSymbol, 3, 4, 4, false, false) := by decide +kernel
/-- V-ENC-6: the empty stream. -/
theorem test_encend : outputs (after .encend abccReady) = ([0], [2], []) ∧
    (after .encend { abccReady with encOpen := true }).encOpen = false := by decide +kernel
/-- V-DEC-1, its second command. -/
theorem test_dec : outputs (after (.dec false) { abccReady with cur := 3 }) = ([0x161], [], [0x61]) ∧
    registers (after (.dec false) { abccReady with cur := 3 }) = (.ready, none, 3, 4, 4, false, true) := by
  decide +kernel
/-- V-DEC-5, its second command: the bit is ignored. -/
theorem test_dec_single : outputs (after (.dec true) aaaaReady) = ([0x161], [], [0x61]) ∧
    registers (after (.dec true) aaaaReady) = (.ready, none, 1, 0, 0, false, true) := by decide +kernel
/-- R191. -/
theorem test_decend : outputs (after .decend { abccReady with decOpen := true }) = ([0], [], [0x200]) ∧
    (after .decend { abccReady with decOpen := true }).decOpen = false := by decide +kernel
/-- R191: the cursor is not at the root. -/
theorem test_decend_inside :
    outputs (after .decend { abccReady with cur := 3, decOpen := true }) = ([0x50000000000], [], [0x300]) ∧
    registers (after .decend { abccReady with cur := 3, decOpen := true }) =
      (.ready, some .malformedStream, 3, 4, 3, false, false) := by decide +kernel
/-- V-FAIL-2. -/
theorem test_fail : outputs (after (.fail true) abccOpen) = ([0x20000000000], [3], [0x300]) ∧
    registers (after (.fail true) abccOpen) = (.ready, some .sinkUnavailable, 3, 4, 3, false, false) := by
  decide +kernel
/-- P4, command 12. -/
theorem test_rds : (after .rds { abccOpen with cur := 4 }).rsp = [0x001008030E] := by decide +kernel
/-- R212's example: in fault after EmptyAlphabet. -/
theorem test_rds_faulted : (after .rds { State.reset with err := some .emptyAlphabet }).rsp = [0x30] := by
  decide +kernel
/-- V-BLD-3 with V-RD-5. -/
theorem test_rdf : (after (.rdf 0x61) abracadabraTree).rsp = [5] := by decide +kernel
/-- R245: refused in fault. -/
theorem test_rdf_faulted : (after (.rdf 0x61) abccFaulted).rsp = [0xF0000000000] := by decide +kernel
/-- The length of "10". -/
theorem test_rdl : (after (.rdl 0x61) abccReady).rsp = [2] := by decide +kernel
/-- R214: no table yet. -/
theorem test_rdl_early : (after (.rdl 0x61) abccTree).rsp = [0] := by decide +kernel
/-- R215's example. -/
theorem test_rdnw : (after (.rdnw 8) abracadabraTree).rsp = [0xB] := by decide +kernel
/-- R215: 511 is never valid. -/
theorem test_rdnw_invalid : (after (.rdnw 511) abracadabraTree).rsp = [0] := by decide +kernel
/-- R216's examples. -/
theorem test_rdnl : (after (.rdnl 0) abracadabraTree).rsp = [0x185] ∧
    (after (.rdnl 8) abracadabraTree).rsp = [0x380002] ∧
    (after (.rdnl 9) abracadabraTree).rsp = [0] := by decide +kernel
/-- The state after a step of the engine that goes on. -/
def afterStep (s : State) : State :=
  match step s with
  | .next t => t
  | .fault _ => { State.reset with nleaf := 511 }
  | .refused _ => { State.reset with nleaf := 511 }

/-- V-FLT-2: the all-zero word is illegal. -/
theorem test_step_illegal : (afterStep { State.reset with cmd := [0x0000] }).cmd = [] ∧
    registers (afterStep { State.reset with cmd := [0x0000] }) =
      (.count, some .illegalCommand, 0, 0, 0, false, false) ∧
    (afterStep { State.reset with cmd := [0x0000] }).rsp = [0x60000000000] := by decide +kernel
/-- V-FLT-1: in fault an illegal word gets FAULTED. -/
theorem test_step_illegal_faulted : (afterStep { abccFaulted with cmd := [0x0000, 0x1000] }).cmd = [0x1000] ∧
    (afterStep { abccFaulted with cmd := [0x0000, 0x1000] }).rsp = [0xF0000000000] ∧
    (afterStep { abccFaulted with cmd := [0x0000, 0x1000] }).err = some .malformedStream := by decide +kernel
/-- The host's reading of one opcode-table word. -/
theorem test_table_word : decodeTableWord 16 0x2061 = some (.cnt 0x61) := by rfl

/-! ## The invariants hold of the small states -/

theorem abcc_tree : TreeOver abccTree.freq abccTree.nodes 3 where
  one_le := by decide
  le_nsym := by decide
  leaf_count := by decide +kernel
  length_eq := by decide
  leaf := by decide +kernel
  ascending := by
    intro j hj y z v w h1 h2
    obtain rfl | rfl : j = 0 ∨ j = 1 := by omega
    all_goals
      simp [abccTree] at h1 h2
      obtain ⟨rfl, -⟩ := h1
      obtain ⟨rfl, -⟩ := h2
      decide
  internal := by
    intro i h1 h2
    obtain rfl | rfl : i = 3 ∨ i = 4 := by
      have : abccTree.nodes.length = 5 := rfl
      omega
    · exact ⟨2, 0, 1, .leaf 0x61 1, .leaf 0x62 1, by decide⟩
    · exact ⟨4, 2, 3, .leaf 0x63 2, .internal 2 0 1, by decide⟩
  one_parent := by
    intro j hj
    have h : j < 4 := by have : abccTree.nodes.length = 5 := rfl; omega
    interval_cases j <;> decide
  root_no_parent := by decide
  total := ⟨.internal 4 2 3, by decide +kernel⟩

theorem aaaa_tree : TreeOver aaaaReady.freq aaaaReady.nodes 1 where
  one_le := by decide
  le_nsym := by decide
  leaf_count := by decide +kernel
  length_eq := by decide
  leaf := by decide +kernel
  ascending := by intro j hj; omega
  internal := by
    intro i h1 h2
    have : aaaaReady.nodes.length = 1 := rfl
    omega
  one_parent := by
    intro j hj
    have : aaaaReady.nodes.length = 1 := rfl
    omega
  root_no_parent := by decide
  total := ⟨.leaf 0x61 4, by decide +kernel⟩

theorem abcc_path_a : PathTo abccTree.nodes 4 0 [true, false] :=
  (PathTo.root.right (w := 4) (l := 2) (r := 3) rfl).left (w := 2) (r := 1) rfl

theorem abcc_codes : CodesOf abccReady where
  single := by intro h; exact absurd h (by decide)
  path := by
    intro _ j y w h
    have hj : j.toNat < 5 := nodeAt_lt h
    have : j = 0 ∨ j = 1 ∨ j = 2 ∨ j = 3 ∨ j = 4 := by
      bv_omega
    rcases this with rfl | rfl | rfl | rfl | rfl <;> simp [nodeAt, abccReady, abccTree] at h
    all_goals obtain ⟨rfl, rfl⟩ := h
    · exact abcc_path_a
    · exact (PathTo.root.right (w := 4) (l := 2) (r := 3) rfl).right (w := 2) (l := 0) rfl
    · exact PathTo.root.left (w := 4) (r := 3) rfl
  absent := by
    intro y h
    simp [getCode, getFreq, abccReady, abccTree, abccCounted, State.reset, Vector.getElem_set] at h ⊢
    split_ifs at h ⊢ <;> first | rfl | exact absurd h (by decide)

theorem aaaa_codes : CodesOf aaaaReady where
  single := by
    intro _ y w h
    simp [nodeAt, aaaaReady] at h
    obtain ⟨rfl, rfl⟩ := h
    rfl
  path := by intro h; exact absurd rfl h
  absent := by
    intro y h
    simp [getCode, getFreq, aaaaReady, State.reset, Vector.getElem_set] at h ⊢
    split_ifs at h ⊢
    rfl

theorem witness_abccTree : Inv abccTree where
  count_iff := by decide
  count_clear := by decide
  tree := fun _ => abcc_tree
  root_eq := by decide
  cursor := fun _ => .inl rfl
  cursor_single := by decide
  fault_closed := by decide
  enc_ready := by decide
  dec_tree := by decide
  codes := fun h => absurd h (by decide)

theorem witness_abccReady : Inv abccReady where
  count_iff := by decide
  count_clear := by decide
  tree := fun _ => abcc_tree
  root_eq := by decide
  cursor := fun _ => .inl rfl
  cursor_single := by decide
  fault_closed := by decide
  enc_ready := by decide
  dec_tree := by decide
  codes := fun _ => abcc_codes

theorem witness_abccOpen : Inv abccOpen where
  count_iff := by decide
  count_clear := by decide
  tree := fun _ => abcc_tree
  root_eq := by decide
  cursor := fun _ => .inr ⟨2, 0, 1, rfl⟩
  cursor_single := by decide
  fault_closed := by decide
  enc_ready := by decide
  dec_tree := by decide
  codes := fun _ => ⟨abcc_codes.single, abcc_codes.path, abcc_codes.absent⟩

theorem witness_aaaaReady : Inv aaaaReady where
  count_iff := by decide
  count_clear := by decide
  tree := fun _ => aaaa_tree
  root_eq := by decide
  cursor := fun _ => .inl rfl
  cursor_single := by decide
  fault_closed := by decide
  enc_ready := by decide
  dec_tree := by decide
  codes := fun _ => aaaa_codes

/-! ## Witnesses: states and operands that meet the hypotheses of the obligations -/

/-- Whether a command goes on. -/
def goesOn : Outcome → Bool
  | .next _ => true
  | .fault _ => false
  | .refused _ => false

theorem exec_after {i : Instr} {s : State} (h : goesOn (exec i s) = true) : exec i s = .next (after i s) := by
  unfold after
  split
  · assumption
  · rename_i e; rw [e] at h; exact Bool.noConfusion h
  · rename_i e; rw [e] at h; exact Bool.noConfusion h

theorem word_after {w : Word} {i : Instr} {s : State} (hd : decode w = .ok i) (h : goesOn (exec i s) = true) :
    runWord w s = .next (after i s) := by
  unfold runWord
  rw [hd]
  exact exec_after h

theorem abcc_scan : leafScan abccCounted.freq = [.leaf 0x61 1, .leaf 0x62 1, .leaf 0x63 2] := by decide +kernel

theorem exec_bld_abcc : exec .bld abccCounted = .next { abccTree with rsp := [0x803] } := by
  show unlessFault abccCounted (inPhase (inCount abccCounted) abccCounted
    (buildTree (leafScan abccCounted.freq) abccCounted)) = _
  rw [abcc_scan]
  rfl

theorem witness_DecodeEncodeAgree : decode 0xA9FE = .ok (.rdnl 510) := rfl

theorem witness_IllegalWords : decode 0x0000 = .error .opcodeUnassigned ∧ State.reset.err = none ∧
    abccFaulted.err ≠ none ∧ decode 0x20FF = .ok (.cnt 255) := by
  refine ⟨rfl, rfl, ?_, rfl⟩; decide

theorem witness_ChannelWordsReadBack : SymBeat.ofWord 0x0FF = some (.sym 0xFF) ∧
    SymBeat.ofWord 0x200 = some .finish ∧ SymBeat.ofWord 0x300 = some .abort := by decide

theorem witness_OpcodeRowsDisjoint : ∃ r ∈ opcodeMap, (0x20FF : Word) &&& r.mask = r.mtch :=
  ⟨_, List.mem_cons_of_mem _ (List.mem_cons_self ..), by decide⟩

theorem witness_PseudoCommandsExpand : ∀ c ∈ ['a', ';'], c ≠ '"' ∧ c.toNat < 256 := by
  intro c hc
  simp only [List.mem_cons, List.not_mem_nil, or_false] at hc
  rcases hc with rfl | rfl <;> exact ⟨by simp, by simp⟩

theorem witness_StepRunsHeadCommand : State.reset.cmd = [] ∧
    { State.reset with cmd := [0x1000] }.cmd = 0x1000 :: [] ∧ decode 0x1000 = .ok .clr ∧
    decode 0xB000 = .error .opcodeUnassigned ∧ State.reset.err = none ∧ abccFaulted.err ≠ none := by
  refine ⟨rfl, rfl, rfl, rfl, rfl, ?_⟩; decide

theorem witness_FaultRefusesEveryWord : abccFaulted.err ≠ none ∧ decode 0xA200 ≠ .ok .clr ∧
    decode 0xA200 ≠ .ok .rds ∧ decode 0x1001 ≠ .ok .clr := by
  have h : decode 0xA200 = .ok (.rdf 0) := rfl
  have h' : decode 0x1001 = .error .operandNotZero := rfl
  rw [h, h']
  exact ⟨by decide, by simp, by simp, by simp⟩

/-- All four clauses; the second with a command of each kind is met by the tests above. -/
theorem witness_ErrorTable : decode 0x3001 = .error .operandNotZero ∧ tableError (.enc 0x64) abccReady = some .unknownSymbol ∧
    tableError (.enc 0x61) abccReady = none ∧
    exec (.enc 0x61) abccReady = .next (after (.enc 0x61) abccReady) ∧ abccReady.err = none ∧
    abccFaulted.err ≠ none ∧ (Instr.gen ≠ .clr ∧ Instr.gen ≠ .rds) ∧ (Instr.rds = .clr ∨ Instr.rds = .rds) :=
  ⟨rfl, by decide +kernel, by decide +kernel, exec_after (by decide +kernel), rfl, by decide, by decide, .inr rfl⟩

theorem witness_FaultsArePrecise :
    runWord 0x5061 abccReady = .next (after (.enc 0x61) abccReady) ∧
    runWord 0x5064 abccReady = .next (after (.enc 0x64) abccReady) ∧
    runWord 0x5061 abccFaulted = .next (after (.enc 0x61) abccFaulted) :=
  ⟨word_after rfl (by decide +kernel), word_after rfl (by decide +kernel), word_after rfl (by decide +kernel)⟩

theorem witness_ErrorIsLatched : abccFaulted.err = some .malformedStream ∧ decode 0x1000 = .ok .clr ∧
    runWord 0x1000 abccFaulted = .next (after .clr abccFaulted) ∧
    runWord 0x4000 abccFaulted = .next (after .gen abccFaulted) ∧ State.reset.err = none ∧
    runWord 0x4000 State.reset = .next (after .gen State.reset) ∧
    (after .gen State.reset).err = some .badPhase :=
  ⟨rfl, rfl, word_after rfl rfl, word_after rfl (by decide +kernel), rfl, word_after rfl (by decide +kernel),
    by decide +kernel⟩

theorem witness_OneResponsePerCommand : runWord 0x5061 abccReady = .next (after (.enc 0x61) abccReady) :=
  word_after rfl (by decide +kernel)

theorem witness_CntEffect : State.reset.err = none ∧ abccTree.phase ≠ .count ∧ abccTree.err = none ∧
    fullCounter.phase = .count ∧ countOf fullCounter.freq 0x61 = 0xFFFFFFFF ∧ fullCounter.err = none ∧
    nearlyFull.phase = .count ∧ countOf nearlyFull.freq 0x61 ≠ 0xFFFFFFFF ∧ nearlyFull.err = none := by
  decide +kernel

/-- Both clauses at the least and at the greatest width. -/
theorem witness_CountersNeverWrap :
    (∀ z : Sym, (countOf State.reset.freq z).toNat < 2 ^ 1) ∧ (countOf State.reset.freq 0).toNat + 1 < 2 ^ 1 ∧
    (∀ z : Sym, (countOf (abccCounted.freq.set 0x63 1) z).toNat < 2 ^ 1) ∧
    2 ^ 1 ≤ (countOf (abccCounted.freq.set 0x63 1) 0x63).toNat + 1 ∧
    (∀ z : Sym, (countOf nearlyFull.freq z).toNat < 2 ^ 32) ∧
    (countOf nearlyFull.freq 0x61).toNat + 1 < 2 ^ 32 ∧
    (∀ z : Sym, (countOf fullCounter.freq z).toNat < 2 ^ 32) ∧
    2 ^ 32 ≤ (countOf fullCounter.freq 0x61).toNat + 1 := by
  refine ⟨fun z => ?_, by decide +kernel, fun z => ?_, by decide +kernel, fun z => (countOf _ z).isLt,
    by decide +kernel, fun z => (countOf _ z).isLt, by decide +kernel⟩
  · simp [countOf, State.reset]
  · simp only [countOf, abccCounted, State.reset, Vector.getElem_set, Vector.getElem_replicate]
    split_ifs <;> decide

theorem witness_CountersCountOkCommands : Instr.clr ∉ [Instr.cnt 0x61, .rds] ∧
    execAll [.cnt 0x61, .rds] State.reset = .next (after .rds (after (.cnt 0x61) State.reset)) := by
  refine ⟨by decide, ?_⟩
  simp only [execAll, exec_after (show goesOn (exec (.cnt 0x61) State.reset) = true by decide +kernel),
    exec_after (show goesOn (exec .rds (after (.cnt 0x61) State.reset)) = true from rfl)]

theorem witness_BldEmptyAlphabet : State.reset.err = none ∧ State.reset.phase = .count ∧
    ∀ y : Sym, countOf State.reset.freq y = 0 := ⟨rfl, rfl, fun y => Vector.getElem_replicate y.isLt⟩

/-- One symbol present (the degenerate tree), three, and all 256. -/
theorem witness_BldBuildsTree : fullCounter.err = none ∧ fullCounter.phase = .count ∧
    countOf fullCounter.freq 0x61 ≠ 0 ∧ presentCount fullCounter.freq = 1 ∧
    abccCounted.err = none ∧ abccCounted.phase = .count ∧ countOf abccCounted.freq 0x61 ≠ 0 ∧
    presentCount (Vector.replicate 256 1) = 256 ∧ countOf (Vector.replicate 256 1) 0 ≠ 0 := by decide +kernel

theorem witness_BldMergesTwoLeastKeys : abccCounted.err = none ∧ abccCounted.phase = .count ∧
    exec .bld abccCounted = .next { abccTree with rsp := [0x803] } ∧ abccTree.err = none ∧
    abccTree.nodes[4]? = some (.internal 4 2 3) := ⟨rfl, rfl, exec_bld_abcc, rfl, rfl⟩

theorem witness_BldWeightsDoNotDecrease :
    exec .bld abccCounted = .next { abccTree with rsp := [0x803] } ∧
    abccTree.nodes[3]? = some (.internal 2 0 1) ∧ abccTree.nodes[3 + 1]? = some (.internal 4 2 3) :=
  ⟨exec_bld_abcc, rfl, rfl⟩

/-- Two engines with equal counts that differ elsewhere. -/
theorem witness_BldDependsOnCountsOnly : abccCounted.freq = { abccCounted with rsp := [1] }.freq ∧
    countOf abccCounted.freq 0x61 ≠ 0 ∧ exec .bld abccCounted = .next { abccTree with rsp := [0x803] } ∧
    exec .bld { abccCounted with rsp := [1] } = .next (after .bld { abccCounted with rsp := [1] }) :=
  ⟨rfl, by decide +kernel, exec_bld_abcc, exec_after (by decide +kernel)⟩

/-- The depths of trace 1, and the tree that pairs the leaves of weights 1 and 2 instead. -/
theorem witness_BldIsOptimal : exec .bld abccCounted = .next { abccTree with rsp := [0x803] } ∧
    (∀ j < abccTree.nleaf.toNat, ∃ p : List Bool, PathTo abccTree.nodes abccTree.root (BitVec.ofNat 9 j) p ∧
      p.length = if j = 2 then 1 else 2) ∧
    (AltTree.node (.node (.leaf 1) (.leaf 2)) (.leaf 1)).weights.Perm
      ((abccTree.nodes.take abccTree.nleaf.toNat).map fun n => n.weight.toNat) := by
  refine ⟨exec_bld_abcc, ?_, by decide⟩
  intro j hj
  have h : j < 3 := hj
  interval_cases j
  · exact ⟨_, abcc_path_a, rfl⟩
  · exact ⟨[true, true], (PathTo.root.right (w := 4) (l := 2) (r := 3) rfl).right (w := 2) (l := 0) rfl, rfl⟩
  · exact ⟨[false], PathTo.root.left (w := 4) (r := 3) rfl, rfl⟩

theorem witness_GenWritesPaths : State.reset.err = none ∧ State.reset.phase ≠ .tree ∧
    abccTree.err = none ∧ abccTree.phase = .tree ∧ Inv abccTree :=
  ⟨rfl, by decide, rfl, rfl, witness_abccTree⟩

/-- Its least and its greatest index. -/
theorem witness_EveryNodeHasOnePath : Inv abccReady ∧ abccReady.phase ≠ .count ∧
    (0 : NodeIx).toNat < abccReady.nodes.length ∧ (4 : NodeIx).toNat < abccReady.nodes.length :=
  ⟨witness_abccReady, by decide, by decide, by decide⟩

theorem witness_CodesArePrefixFree : Inv abccReady ∧ abccReady.phase = .ready ∧ (0x61 : Sym) ≠ 0x63 ∧
    (getCode abccReady 0x61).bits ≠ [] ∧ (getCode abccReady 0x63).bits ≠ [] :=
  ⟨witness_abccReady, rfl, by decide, by decide +kernel, by decide +kernel⟩

theorem witness_CodeLengthsAndKraftSum : Inv abccReady ∧ abccReady.phase = .ready ∧
    2 ≤ abccReady.nleaf.toNat ∧ (getCode abccReady 0x61).bits ≠ [] ∧ Inv aaaaReady ∧
    aaaaReady.phase = .ready ∧ aaaaReady.nleaf = 1 ∧ (getCode aaaaReady 0x61).bits ≠ [] :=
  ⟨witness_abccReady, rfl, by decide, by decide +kernel, witness_aaaaReady, rfl, rfl, by decide +kernel⟩

theorem witness_CodesExactlyForCountedSymbols : Inv abccReady ∧ abccReady.phase = .ready ∧
    abccReady.err = none ∧ countOf abccReady.freq 0x61 ≠ 0 :=
  ⟨witness_abccReady, rfl, rfl, by decide +kernel⟩

theorem witness_EncEffect : abccTree.err = none ∧ abccTree.phase ≠ .ready ∧ abccReady.err = none ∧
    abccReady.phase = .ready ∧ codeLen (getCode abccReady 0x64) = 0 ∧
    codeLen (getCode abccReady 0x63) ≠ 0 := by decide +kernel

theorem witness_EncendEffect : abccTree.err = none ∧ abccTree.phase ≠ .ready ∧ abccReady.err = none ∧
    abccReady.phase = .ready := by decide

theorem witness_SessionIsConcatenation : abccReady.err = none ∧ abccReady.phase = .ready ∧
    ∀ y ∈ [(0x61 : Sym), 0x62, 0x63, 0x63], codeLen (getCode abccReady y) ≠ 0 := by decide +kernel

/-- BadPhase, the single leaf, a leaf and an internal node below the cursor. -/
theorem witness_DecEffect : State.reset.err = none ∧ State.reset.phase = .count ∧
    aaaaReady.err = none ∧ aaaaReady.phase ≠ .count ∧ aaaaReady.nleaf = 1 ∧
    nodeAt aaaaReady.nodes aaaaReady.root = some (.leaf 0x61 4) ∧
    abccReady.err = none ∧ abccReady.phase ≠ .count ∧ abccReady.nleaf ≠ 1 ∧
    nodeAt abccReady.nodes abccReady.cur = some (.internal 4 2 3) ∧
    nodeAt abccReady.nodes 2 = some (.leaf 0x63 2) ∧
    nodeAt abccReady.nodes 3 = some (.internal 2 0 1) := by decide

theorem witness_DecendEffect : State.reset.err = none ∧ State.reset.phase = .count ∧
    abccOpen.err = none ∧ abccOpen.phase ≠ .count ∧ abccOpen.cur ≠ abccOpen.root ∧
    abccReady.phase ≠ .count ∧ abccReady.cur = abccReady.root ∧ abccReady.err = none := by decide

theorem witness_DecRetracesPaths : Inv abccReady ∧ abccReady.err = none ∧ abccReady.phase ≠ .count ∧
    abccReady.nleaf ≠ 1 ∧ abccReady.cur = abccReady.root ∧
    PathTo abccReady.nodes abccReady.root 3 [true] ∧ nodeAt abccReady.nodes 3 = some (.internal 2 0 1) ∧
    PathTo abccReady.nodes abccReady.root 0 [true, false] ∧ nodeAt abccReady.nodes 0 = some (.leaf 0x61 1) :=
  ⟨witness_abccReady, rfl, by decide, by decide, rfl, PathTo.root.right (w := 4) (l := 2) rfl, rfl,
    abcc_path_a, rfl⟩

theorem witness_TruncationInsideCodeIsDetected : Inv abccReady ∧ abccReady.err = none ∧
    abccReady.phase = .ready ∧ abccReady.nleaf ≠ 1 ∧ abccReady.cur = abccReady.root ∧
    (getCode abccReady 0x61).bits = [true] ++ [false] ∧ [true] ≠ [] ∧ [false] ≠ [] :=
  ⟨witness_abccReady, rfl, rfl, by decide, rfl, by decide +kernel, by decide, by decide⟩

theorem witness_RoundTrip : [(0x61 : Sym)] ≠ [] ∧ ∀ y : Sym, [(0x61 : Sym)].count y ≤ 2 ^ 32 - 1 :=
  ⟨by decide, fun y => le_trans List.count_le_length (by simp)⟩

theorem witness_SessionsAreIndependent : (∃ y, Instr.enc 0x61 = .enc y) ∧ (∃ b, Instr.dec true = .dec b) ∧
    abccReady.err = none ∧ exec (.enc 0x61) abccReady = .next (after (.enc 0x61) abccReady) ∧
    (after (.enc 0x61) abccReady).err = none ∧
    exec (.dec true) abccReady = .next (after (.dec true) abccReady) ∧
    (after (.dec true) abccReady).err = none ∧
    exec .encend abccReady = .next (after .encend abccReady) ∧ (after .encend abccReady).err = none ∧
    exec .decend abccReady = .next (after .decend abccReady) ∧ (after .decend abccReady).err = none :=
  ⟨⟨_, rfl⟩, ⟨_, rfl⟩, rfl, exec_after (by decide +kernel), by decide +kernel, exec_after (by decide +kernel),
    by decide +kernel, exec_after (by decide +kernel), by decide +kernel, exec_after (by decide +kernel),
    by decide +kernel⟩

theorem witness_ClearAndResetCompared : exec .clr abccOpen = .next (after .clr abccOpen) := exec_after rfl

theorem witness_FailRaises : abccOpen.err = none ∧ abccFaulted.err ≠ none := by decide

theorem witness_RdfRdlEffect : abccReady.err = none ∧ abccReady.phase = .ready ∧ abccTree.err = none ∧
    abccTree.phase ≠ .ready ∧ abccFaulted.err ≠ none := by decide

/-- The last valid index and the first that is not, with few and with 256 leaves; a leaf and an internal node; a
state that meets R41. -/
theorem witness_RdnwRdnlEffect : (Inv abccTree ∧ abccTree.err = none) ∧ (256 : NodeIx).toNat = 256 ∧
    2 * (256 : NodeIx).toNat - 2 < (511 : NodeIx).toNat ∧ (510 : NodeIx).toNat ≤ 2 * (256 : NodeIx).toNat - 2 ∧
    State.reset.err = none ∧ State.reset.phase = .count ∧ abccTree.err = none ∧
    abccTree.phase ≠ .count ∧ 2 * abccTree.nleaf.toNat - 2 < (5 : NodeIx).toNat ∧
    abccFaulted.err ≠ none ∧ (4 : NodeIx).toNat ≤ 2 * abccTree.nleaf.toNat - 2 ∧ abccTree.nodes[4]? = some (.internal 4 2 3) ∧
    (0 : NodeIx).toNat ≤ 2 * abccTree.nleaf.toNat - 2 ∧ abccTree.nodes[0]? = some (.leaf 0x61 1) := by
  exact ⟨⟨witness_abccTree, rfl⟩, by decide⟩

theorem witness_ReadsAreIdempotent : isRead (.rdnw 511) = true ∧ isRead .rds = true := by decide

theorem witness_PhaseMoves : exec .bld abccCounted = .next { abccTree with rsp := [0x803] } ∧
    abccTree.phase ≠ abccCounted.phase ∧ exec .gen abccTree = .next (after .gen abccTree) ∧
    (after .gen abccTree).phase ≠ abccTree.phase ∧ exec .clr abccTree = .next (after .clr abccTree) ∧
    (after .clr abccTree).phase ≠ abccTree.phase :=
  ⟨exec_bld_abcc, by decide, exec_after (by decide +kernel), by decide +kernel, exec_after rfl,
    by decide +kernel⟩

theorem witness_TablesAreFrozen :
    exec (.cnt 0x61) State.reset = .next (after (.cnt 0x61) State.reset) ∧
    (after (.cnt 0x61) State.reset).freq ≠ State.reset.freq ∧
    exec .bld abccCounted = .next { abccTree with rsp := [0x803] } ∧ abccTree.nodes ≠ abccCounted.nodes ∧
    exec .gen abccTree = .next (after .gen abccTree) ∧ (after .gen abccTree).code ≠ abccTree.code :=
  ⟨exec_after (by decide +kernel), fun h => absurd (congrArg (countOf · 0x61) h) (by decide +kernel), exec_bld_abcc,
    by decide, exec_after (by decide +kernel),
    fun h => absurd (congrArg (fun v => v[0x61]'(by decide)) h) (by decide +kernel)⟩

/-- A state in phase COUNT with other contents in NODE and CODE, and one in phase TREE with another CODE. -/
theorem witness_InvalidEntriesAreUnobservable :
    (abccCounted.phase ≠ .count → [Node.leaf 7 7] = abccCounted.nodes) ∧
    (abccCounted.phase = .ready → abccReady.code = abccCounted.code) ∧
    runWord 0x3000 abccCounted = .next { abccTree with rsp := [0x803] } ∧
    (abccTree.phase = .ready → abccReady.code = abccTree.code) ∧
    runWord 0x4000 abccTree = .next (after .gen abccTree) :=
  ⟨fun h => absurd rfl h, fun h => absurd h (by decide), exec_bld_abcc, fun h => absurd h (by decide),
    word_after rfl (by decide +kernel)⟩

/-- An engine event from a state with both sessions open. -/
theorem witness_EventsKeepInvariant : Inv abccOpen ∧
    happen (.host (.push 0x6000)) abccOpen = .next { abccOpen with cmd := [0x6000] } ∧
    happen .engine abccOpen = .next abccOpen := ⟨witness_abccOpen, rfl, rfl⟩

theorem witness_EventsKeepSessions :
    Sessions { abccOpen with cmd := [0x1000], bitOut := [1, 1], symOut := [0x61] } ∧
    happen .engine { abccOpen with cmd := [0x1000], bitOut := [1, 1], symOut := [0x61] } =
      .next (after .clr { abccOpen with bitOut := [1, 1], symOut := [0x61] }) :=
  ⟨⟨by simp [abccOpen, bitWord], fun _ _ => rfl, fun _ => .inl rfl⟩, 
    word_after (w := 0x1000) (i := .clr) (s := { abccOpen with bitOut := [1, 1], symOut := [0x61] }) rfl rfl⟩

theorem witness_EventsKeepOutputsLegal :
    OutputsLegal { abccOpen with cmd := [0x1000], rsp := [okWord 2], symOut := [symWord 0x61] } ∧
    happen .engine { abccOpen with cmd := [0x1000], rsp := [okWord 2], symOut := [symWord 0x61] } =
      .next (after .clr { abccOpen with rsp := [okWord 2], symOut := [symWord 0x61] }) :=
  ⟨⟨fun q h => .inl ⟨2, by simpa using h⟩, fun b h => .inl ⟨0x61, by simpa using h⟩⟩,
    word_after (w := 0x1000) (i := .clr) (s := { abccOpen with rsp := [okWord 2], symOut := [symWord 0x61] }) rfl rfl⟩

/-- Both sessions open, with bits and a symbol pending after a complete stream of each, when the sink fails. -/
theorem witness_PartialOutputIsDiscarded :
    Inv { abccOpen with bitOut := [0, 2, 1], symOut := [0x61, 0x200, 0x62] } ∧
    Sessions { abccOpen with bitOut := [0, 2, 1], symOut := [0x61, 0x200, 0x62] } ∧
    runWord 0x9001 { abccOpen with bitOut := [0, 2, 1], symOut := [0x61, 0x200, 0x62] } =
      .next (after (.fail true) { abccOpen with bitOut := [0, 2, 1], symOut := [0x61, 0x200, 0x62] }) ∧
    (after (.fail true) { abccOpen with bitOut := [0, 2, 1], symOut := [0x61, 0x200, 0x62] }).err ≠ none ∧
    readSymbols [] [0x61, 0x200, 0x62] = some ([[0x61]], [0x62]) := by
  have h := witness_abccOpen
  exact ⟨⟨h.count_iff, h.count_clear, h.tree, h.root_eq, h.cursor, h.cursor_single, h.fault_closed, h.enc_ready,
    h.dec_tree, fun hp => ⟨(h.codes hp).single, (h.codes hp).path, (h.codes hp).absent⟩⟩,
    ⟨by simp [abccOpen, bitWord], fun _ _ => rfl, fun _ => .inl rfl⟩, word_after rfl (by decide +kernel),
    by decide +kernel, by decide⟩

/-- V-CLR-1 as the sink reads it: the two bits before the ABORT are discarded. -/
theorem test_read_bits : readBits [] [0, 2, 1, 1, 3, 0] = ([[false]], [false]) := by decide

/-- R242: the level is high exactly in fault. -/
theorem test_fault_level : faultLevel abccFaulted = true ∧ faultLevel abccOpen = false := by decide

theorem witness_InvariantStatesNeverStop : Inv abccOpen ∧ Inv aaaaReady := ⟨witness_abccOpen, witness_aaaaReady⟩

theorem witness_InstancesAreIsolated : (1 : Nat) ≠ 0 ∧
    [State.reset, abccOpen][0]? = [State.reset, abccTree][0]? := by
  exact ⟨by decide, rfl⟩

end Sys2Proof.Tests
end

/-!
PROOFS. What holds of every command whatever it is for (spec/00_scope.md): the order in which `BLD` takes the
members of its queue (R12), and what a command word does to the four channels (R10).
-/

namespace Sys2Proof.Machine

/-! ## Merges in order of key (R12, R132 to R138) -/

/-- Node `i` with the children `l` and `r` is a merge of the two least keys waiting, the lesser one on the left
(R12, R133, R135). -/
def PicksLeast (nodes : List Node) (i : Nat) (l r : NodeIx) : Prop :=
  waiting nodes i l ∧ waiting nodes i r ∧ nodeKeyLt nodes l r ∧
    ∀ j : NodeIx, waiting nodes i j → j ≠ l → j ≠ r → nodeKeyLt nodes r j

/-- Every internal node of the table is such a merge. -/
def LeastMerges (nodes : List Node) : Prop :=
  ∀ (i : Nat) (w : Weight) (l r : NodeIx), nodes[i]? = some (.internal w l r) → PicksLeast nodes i l r

/-- The nodes made later do not change what waited when node `i` was made. -/
theorem waiting_append {nodes : List Node} {i : Nat} (ms : List Node) (hi : i ≤ nodes.length) (j : NodeIx) :
    waiting (nodes ++ ms) i j ↔ waiting nodes i j := by
  rw [waiting, waiting, List.take_append_of_le_length hi]

theorem nodeKeyLt_append {nodes : List Node} {i j : NodeIx} (ms : List Node) (h : nodeKeyLt nodes i j) :
    nodeKeyLt (nodes ++ ms) i j := by
  obtain ⟨a, b, ha, hb, hlt⟩ := h
  exact ⟨a, b, nodeAt_append_left ms ha, nodeAt_append_left ms hb, hlt⟩

theorem picksLeast_append {nodes : List Node} {i : Nat} {l r : NodeIx} (ms : List Node)
    (hi : i ≤ nodes.length) (h : PicksLeast nodes i l r) : PicksLeast (nodes ++ ms) i l r := by
  obtain ⟨hl, hr, hlr, hothers⟩ := h
  refine ⟨(waiting_append ms hi l).2 hl, (waiting_append ms hi r).2 hr, nodeKeyLt_append ms hlr, ?_⟩
  intro j hj hjl hjr
  exact nodeKeyLt_append ms (hothers j ((waiting_append ms hi j).1 hj) hjl hjr)

theorem leastMerges_of_leaves {nodes : List Node} (h : ∀ n ∈ nodes, ∃ y w, n = .leaf y w) :
    LeastMerges nodes := by
  intro i w l r hi
  obtain ⟨y, v, hn⟩ := h _ (List.mem_of_getElem? hi)
  exact absurd hn (by simp)

/-- A new node that picks the least keys keeps the earlier merges as they were. -/
theorem LeastMerges.snoc {nodes : List Node} {v : Weight} {a b : NodeIx} (h : LeastMerges nodes)
    (hnew : PicksLeast nodes nodes.length a b) : LeastMerges (nodes ++ [.internal v a b]) := by
  intro i w l r hi
  by_cases hlt : i < nodes.length
  · rw [List.getElem?_append_left hlt] at hi
    exact picksLeast_append _ hlt.le (h i w l r hi)
  · have hlast : i = nodes.length := by
      have := (List.getElem?_eq_some_iff.1 hi).1
      rw [List.length_append, List.length_singleton] at this
      omega
    subst hlast
    obtain ⟨-, rfl, rfl⟩ : v = w ∧ a = l ∧ b = r := by simpa using hi
    exact picksLeast_append _ le_rfl hnew

/-- `extractMin` takes a member that is below every other one (R135). -/
theorem extractMin_lt {pq rest : List PqEntry} {a x : PqEntry} (h : extractMin pq = some (a, rest))
    (hx : x ∈ pq) (hne : x ≠ a) : keyLt a x = true :=
  keyLt_of_not hne.symm ((extractMin_spec h).2.2 x hx)

/-- An induction over the merge loop: what every merge keeps holds of the table the loop leaves, with some queue. -/
theorem mergeLoop_keeps {P : List Node → List PqEntry → Prop}
    (hstep : ∀ {nodes pq pq₁ pq₂ a b}, P nodes pq → extractMin pq = some (a, pq₁) →
      extractMin pq₁ = some (b, pq₂) →
      P (nodes ++ [.internal (a.weight + b.weight) a.index b.index])
        (insertPq { weight := a.weight + b.weight, index := BitVec.ofNat 9 nodes.length } pq₂))
    (k : Nat) {nodes : List Node} {pq : List PqEntry} (h : P nodes pq) :
    ∃ pq', P (mergeLoop k nodes pq) pq' := by
  induction k generalizing nodes pq with
  | zero => exact ⟨pq, h⟩
  | succ k ih =>
    rw [mergeLoop]
    split
    · exact ⟨pq, h⟩
    · next a pq₁ ha =>
      split
      · exact ⟨pq, h⟩
      · next b pq₂ hb => exact ih (hstep h ha hb)

namespace Merging

variable {leaves nodes : List Node} {pq pq₁ pq₂ : List PqEntry} {a b : PqEntry}

theorem queue_nodup (h : Merging leaves nodes pq) : pq.Nodup :=
  (List.nodup_append.1 h.nodup).2.1.of_map

/-- The queue holds exactly what waits for the next node (R132, R133). -/
theorem waiting_iff (h : Merging leaves nodes pq) (j : NodeIx) :
    waiting nodes nodes.length j ↔ ∃ e ∈ pq, e.index = j := by
  rw [waiting, List.take_length, ← h.mem_queue_iff, List.mem_map]

/-- The key of a member is the key of its node (R12, R132). -/
theorem nodeKeyLt_of_keyLt (h : Merging leaves nodes pq) (ha : a ∈ pq) (hb : b ∈ pq)
    (hlt : keyLt a b = true) : nodeKeyLt nodes a.index b.index := by
  obtain ⟨x, hx, hwx⟩ := h.entry a ha
  obtain ⟨y, hy, hwy⟩ := h.entry b hb
  exact ⟨x, y, hx, hy, by rw [hwx, hwy]; exact of_decide_eq_true hlt⟩

/-- The two members that a merge extracts are the two least keys of the queue (R133, R135). -/
theorem picksLeast (h : Merging leaves nodes pq) (ha : extractMin pq = some (a, pq₁))
    (hb : extractMin pq₁ = some (b, pq₂)) : PicksLeast nodes nodes.length a.index b.index := by
  obtain ⟨ha_mem, rfl, -⟩ := extractMin_spec ha
  have hrest : ∀ x, x ∈ pq.erase a ↔ x ≠ a ∧ x ∈ pq := fun x => h.queue_nodup.mem_erase_iff
  obtain ⟨hba, hb_mem⟩ := (hrest b).1 (extractMin_spec hb).1
  refine ⟨(h.waiting_iff _).2 ⟨a, ha_mem, rfl⟩, (h.waiting_iff _).2 ⟨b, hb_mem, rfl⟩,
    h.nodeKeyLt_of_keyLt ha_mem hb_mem (extractMin_lt ha hb_mem hba), ?_⟩
  intro j hj hja hjb
  obtain ⟨e, he, rfl⟩ := (h.waiting_iff j).1 hj
  have hea : e ∈ pq.erase a := (hrest e).2 ⟨fun hc => hja (by rw [hc]), he⟩
  exact h.nodeKeyLt_of_keyLt hb_mem he (extractMin_lt hb hea fun hc => hjb (by rw [hc]))

end Merging

/-- The table of a build merges in order of key (R133, R136). -/
theorem buildNodes_leastMerges (freq : Vector Count 256) (h : leafScan freq ≠ []) :
    LeastMerges (buildNodes (leafScan freq)) := by
  obtain ⟨-, -, hleast⟩ := mergeLoop_keeps
    (P := fun nodes pq => Merging (leafScan freq) nodes pq ∧ LeastMerges nodes)
    (fun ⟨hm, hl⟩ ha hb =>
      ⟨hm.step ((extractMin_perm ha).trans ((extractMin_perm hb).cons _)), hl.snoc (hm.picksLeast ha hb)⟩)
    (leafScan freq).length ⟨Merging.start freq h, leastMerges_of_leaves (leafScan_all_leaves freq)⟩
  exact hleast

/-- A `BLD` that raises no error leaves the table of a build over at least one leaf (R130, R143). -/
theorem bld_nodes {s t : State} (hs : s.err = none) (h : exec .bld s = .next t) (ht : t.err = none) :
    leafScan s.freq ≠ [] ∧ t.nodes = buildNodes (leafScan s.freq) := by
  rcases exec_next h with ⟨he, -⟩ | ⟨-, e, rfl⟩ | hdid
  · exact absurd hs he
  · simp at ht
  · cases hdid with
    | bld _ _ hne => exact ⟨hne, rfl⟩

/-- Settles O24: the loop's invariant `Merging` makes the queue the set of waiting nodes, so that each merge, which
takes its two least members, picks the two least waiting keys; later nodes do not change that. -/
theorem bldMergesTwoLeastKeys : Obligations.BldMergesTwoLeastKeys := by
  intro s t hs _ h ht
  obtain ⟨hne, hnodes⟩ := bld_nodes hs h ht
  rw [hnodes]
  exact buildNodes_leastMerges s.freq hne

/-! ## What a command does to the channels (R10, R69, R100) -/

/-- `t` is `s` with one response more, possibly more beats, and the same commands waiting. -/
def AnswersOnce (s t : State) : Prop :=
  (∃ q : RspWord, t.rsp = s.rsp ++ [q]) ∧ (∃ bs : List BitWord, t.bitOut = s.bitOut ++ bs) ∧
    (∃ ys : List SymWord, t.symOut = s.symOut ++ ys) ∧ t.cmd = s.cmd

/-- What a command does to the channels before it responds: beats are appended and nothing else (R10). -/
structure EmitsOnly (s u : State) : Prop where
  rsp : u.rsp = s.rsp
  cmd : u.cmd = s.cmd
  bitOut : ∃ bs : List BitWord, u.bitOut = s.bitOut ++ bs
  symOut : ∃ ys : List SymWord, u.symOut = s.symOut ++ ys

theorem EmitsOnly.answersOnce {s u : State} {st : Status} {d : Data} (h : EmitsOnly s u) :
    AnswersOnce s (respond st d u) :=
  ⟨⟨_, by rw [respond_rsp, h.rsp]⟩, h.bitOut, h.symOut, h.cmd⟩

/-- A command that touches no channel before it responds. -/
theorem EmitsOnly.of_channels_eq {s u : State} (hrsp : u.rsp = s.rsp) (hcmd : u.cmd = s.cmd)
    (hbit : u.bitOut = s.bitOut) (hsym : u.symOut = s.symOut) : EmitsOnly s u :=
  ⟨hrsp, hcmd, ⟨[], by rw [hbit, List.append_nil]⟩, ⟨[], by rw [hsym, List.append_nil]⟩⟩

theorem raise_answersOnce (e : ErrorKind) (s : State) : AnswersOnce s (raise e s) :=
  ⟨⟨_, raise_rsp s e⟩, ⟨_, raise_bitOut s e⟩, ⟨_, raise_symOut s e⟩, raise_cmd s e⟩

theorem Did.answersOnce {s t : State} {i : Instr} (h : Did s i t) : AnswersOnce s t := by
  cases h with
  | clr =>
    exact EmitsOnly.answersOnce ⟨by simp, by simp, ⟨if s.encOpen then [BitBeat.abort.word] else [], by simp⟩,
      ⟨if s.decOpen then [SymBeat.abort.word] else [], by simp⟩⟩
  | enc _ _ _ | encend _ _ =>
    exact EmitsOnly.answersOnce ⟨rfl, rfl, ⟨_, rfl⟩, ⟨[], (List.append_nil _).symm⟩⟩
  | decSingle _ _ _ _ | decLeaf _ _ _ _ _ | decend _ _ _ =>
    exact EmitsOnly.answersOnce ⟨rfl, rfl, ⟨[], (List.append_nil _).symm⟩, ⟨_, rfl⟩⟩
  | cnt _ _ _ | bld _ _ _ | gen _ _ _ | decInside _ _ _ _ _ | rds | rdf _ | rdl _ | rdnw _ | rdnl _ =>
    exact (EmitsOnly.of_channels_eq rfl rfl rfl rfl).answersOnce

/-- Settles O18: a word is refused in fault, raises an error, or runs its command, and each of these ends in one
`respond` after appending beats at most. -/
theorem oneResponsePerCommand : Obligations.OneResponsePerCommand := by
  intro w s t h
  rcases word_next h with ⟨-, -, -, rfl⟩ | ⟨-, e, rfl⟩ | ⟨i, -, hdid⟩
  · exact (EmitsOnly.of_channels_eq rfl rfl rfl rfl).answersOnce
  · exact raise_answersOnce e s
  · exact hdid.answersOnce

end Sys2Proof.Machine

/-!
PROOFS. The state (spec/10_state.md): which command writes which table and register (R30, R31, R73), the shape of
the tree in NODE and the codes in CODE, the invariants of R41 and what the session flags say (R32, R33), which every
event keeps, the reset state (R39), and why entries that are not valid cannot be observed (R40).
-/

namespace Sys2Proof.Machine


/-! ## The tables and the registers beside the channels -/

/-- `t` holds the tables of `s`, with the registers that say which of their entries are valid (R23, R25). -/
structure SameTables (s t : State) : Prop where
  freq : t.freq = s.freq
  nodes : t.nodes = s.nodes
  code : t.code = s.code
  phase : t.phase = s.phase
  nleaf : t.nleaf = s.nleaf
  root : t.root = s.root

theorem raise_sameTables (e : ErrorKind) (s : State) : SameTables s (raise e s) :=
  ⟨raise_freq s e, raise_nodes s e, raise_code s e, raise_phase s e, raise_nleaf s e, raise_root s e⟩

/-- The four commands that write a table are `CLR`, `CNT`, `BLD` and `GEN` (R73). -/
theorem Did.sameTables_or {s t : State} {i : Instr} (h : Did s i t) :
    SameTables s t ∨ i = .clr ∨ (∃ y, i = .cnt y) ∨ i = .bld ∨ i = .gen := by
  cases h with
  | clr => exact .inr (.inl rfl)
  | cnt _ _ _ => exact .inr (.inr (.inl ⟨_, rfl⟩))
  | bld _ _ _ => exact .inr (.inr (.inr (.inl rfl)))
  | gen _ _ _ => exact .inr (.inr (.inr (.inr rfl)))
  | enc _ _ _ | encend _ _ | decSingle _ _ _ _ | decLeaf _ _ _ _ _ | decInside _ _ _ _ _ | decend _ _ _
  | rds | rdf _ | rdl _ | rdnw _ | rdnl _ => exact .inl ⟨rfl, rfl, rfl, rfl, rfl, rfl⟩

/-- A command that goes on leaves the tables alone, or is one of the four that write a table and did so. -/
theorem exec_sameTables_or {s t : State} {i : Instr} (h : exec i s = .next t) :
    SameTables s t ∨ Did s i t ∧ (i = .clr ∨ (∃ y, i = .cnt y) ∨ i = .bld ∨ i = .gen) := by
  rcases exec_next h with ⟨-, -, -, rfl⟩ | ⟨-, e, rfl⟩ | hdid
  · exact .inl ⟨rfl, rfl, rfl, rfl, rfl, rfl⟩
  · exact .inl (raise_sameTables e s)
  · exact hdid.sameTables_or.imp_right (⟨hdid, ·⟩)

/-- Settles O51: only the four commands that write a table can move PHASE, and `CNT` does not. -/
theorem phaseMoves : Obligations.PhaseMoves := by
  intro i s t h hne
  rcases exec_sameTables_or h with hs | ⟨hdid, rfl | ⟨y, rfl⟩ | rfl | rfl⟩
  · exact absurd hs.phase hne
  · cases hdid with
    | clr => exact .inr (.inr ⟨rfl, rfl⟩)
  · cases hdid with
    | cnt _ _ _ => exact absurd rfl hne
  · cases hdid with
    | bld _ hp _ => exact .inl ⟨rfl, hp, rfl⟩
  · cases hdid with
    | gen _ hp _ => exact .inr (.inl ⟨rfl, hp, rfl⟩)

/-- Settles O52: of the commands that write a table, `CNT` writes one entry of FREQ, `BLD` writes NODE and `GEN`
writes CODE, each in its phase. -/
theorem tablesAreFrozen : Obligations.TablesAreFrozen := by
  intro i s t h hclr
  rcases exec_sameTables_or h with hs | ⟨hdid, rfl | ⟨y, rfl⟩ | rfl | rfl⟩
  · exact ⟨absurd hs.freq, absurd hs.nodes, absurd hs.code⟩
  · exact absurd rfl hclr
  · cases hdid with
    | cnt _ hp _ =>
      exact ⟨fun _ => ⟨hp, y, rfl, fun z hz => getFreq_setFreq_other s _ hz⟩, absurd rfl, absurd rfl⟩
  · cases hdid with
    | bld _ hp _ => exact ⟨absurd rfl, fun _ => ⟨rfl, hp, rfl⟩, absurd rfl⟩
  · cases hdid with
    | gen _ hp _ => exact ⟨absurd rfl, absurd rfl, fun _ => ⟨rfl, hp, rfl⟩⟩

/-! ## The latched error (R31, R246, R247) -/

/-- A command that answers OK keeps ERR, but for `CLR`, which clears it. -/
theorem Did.err_eq {s t : State} {i : Instr} (h : Did s i t) :
    (i = .clr ∧ t.err = none) ∨ (i ≠ .clr ∧ t.err = s.err) := by
  cases h with
  | clr => exact .inl ⟨rfl, rfl⟩
  | cnt _ _ _ | bld _ _ _ | gen _ _ _ | enc _ _ _ | encend _ _ | decSingle _ _ _ _ | decLeaf _ _ _ _ _
  | decInside _ _ _ _ _ | decend _ _ _ | rds | rdf _ | rdl _ | rdnw _ | rdnl _ =>
    exact .inr ⟨Instr.noConfusion, rfl⟩

/-- Settles O17: a refused word keeps ERR, a word that raises an error starts from ERR = 0, and a command that
answers OK keeps ERR unless it is `CLR`. -/
theorem errorIsLatched : Obligations.ErrorIsLatched := by
  intro w s t h
  rcases word_next h with ⟨he, hclr, -, rfl⟩ | ⟨he, e', rfl⟩ | ⟨i, hi, hdid⟩
  · exact ⟨fun e hs => ⟨fun hc => absurd hc hclr, fun _ => hs⟩, fun e hs _ => absurd hs he⟩
  · refine ⟨fun e hs => absurd (he.symm.trans hs) nofun, fun e _ ht => ?_⟩
    obtain rfl : e' = e := by simpa using ht
    exact raise_rsp s e'
  · rw [hi]
    rcases hdid.err_eq with ⟨rfl, ht⟩ | ⟨hne, ht⟩
    · exact ⟨fun e _ => ⟨fun _ => ht, absurd rfl⟩, fun e _ hte => absurd (ht.symm.trans hte) nofun⟩
    · exact ⟨fun e hs => ⟨fun hc => absurd (Except.ok.inj hc) hne, fun _ => ht.trans hs⟩,
        fun e hs hte => absurd ((ht.trans hs).symm.trans hte) nofun⟩


/-! ## Links and parents (R41 item 6) -/

/-- Node `i` has `j` as the child that bit `b` selects (R24). -/
def IsChild (nodes : List Node) (i : Nat) (b : Bool) (j : NodeIx) : Prop :=
  ∃ (w : Weight) (l r : NodeIx), nodes[i]? = some (.internal w l r) ∧ (if b then r else l) = j

theorem mem_links_cons {n : Node} {rest : List Node} {j : NodeIx} (h : j ∈ links rest) :
    j ∈ links (n :: rest) := by
  cases n with
  | leaf y w => exact h
  | internal w l r => exact List.mem_cons_of_mem l (List.mem_cons_of_mem r h)

theorem IsChild.mem_links {nodes : List Node} {i : Nat} {b : Bool} {j : NodeIx} (h : IsChild nodes i b j) :
    j ∈ links nodes := by
  induction nodes generalizing i with
  | nil => obtain ⟨w, l, r, hi, -⟩ := h; simp at hi
  | cons n rest ih =>
    cases i with
    | succ i => exact mem_links_cons (ih (i := i) h)
    | zero =>
      obtain ⟨w, l, r, hi, rfl⟩ := h
      obtain rfl : n = .internal w l r := by simpa using hi
      cases b <;> simp [links]

theorem exists_isChild {nodes : List Node} {j : NodeIx} (h : j ∈ links nodes) :
    ∃ i b, IsChild nodes i b j := by
  induction nodes with
  | nil => simp at h
  | cons n rest ih =>
    have hlater : j ∈ links rest → ∃ i b, IsChild (n :: rest) i b j := fun hj =>
      let ⟨i, b, hi⟩ := ih hj
      ⟨i + 1, b, hi⟩
    cases n with
    | leaf y w => exact hlater h
    | internal w l r =>
      rcases List.mem_cons.1 h with rfl | h
      · exact ⟨0, false, w, j, r, rfl, rfl⟩
      · rcases List.mem_cons.1 h with rfl | h
        · exact ⟨0, true, w, l, j, rfl, rfl⟩
        · exact hlater h

/-- A child stands before its parent (R41 item 5), where the first `n` nodes are leaves and the others are internal
nodes with earlier children. -/
theorem IsChild.lt {nodes : List Node} {n i : Nat} {b : Bool} {j : NodeIx} (h : IsChild nodes i b j)
    (hleaf : ∀ k < n, ∃ y w, nodes[k]? = some (.leaf y w))
    (hinternal : ∀ k, n ≤ k → k < nodes.length → ∃ (w : Weight) (l r : NodeIx),
      nodes[k]? = some (.internal w l r) ∧ l.toNat < k ∧ r.toNat < k) :
    j.toNat < i ∧ i < nodes.length := by
  obtain ⟨w, l, r, hi, rfl⟩ := h
  have hlen := (List.getElem?_eq_some_iff.1 hi).1
  have hge : n ≤ i := by
    by_contra hlt
    obtain ⟨y, v, hy⟩ := hleaf i (by omega)
    simp [hi] at hy
  obtain ⟨w', l', r', hi', hl, hr⟩ := hinternal i hge hlen
  obtain ⟨rfl, rfl, rfl⟩ : w = w' ∧ l = l' ∧ r = r' := by simpa using hi.symm.trans hi'
  cases b
  · exact ⟨hl, hlen⟩
  · exact ⟨hr, hlen⟩

/-- A node that two different nodes have as a child is linked twice. -/
theorem IsChild.two_le_count {nodes : List Node} {i k : Nat} {b c : Bool} {j : NodeIx}
    (h : IsChild nodes i b j) (h' : IsChild nodes k c j) (hik : i < k) : 2 ≤ (links nodes).count j := by
  obtain ⟨w, l, r, hi, hj⟩ := h
  obtain ⟨w', l', r', hk, hj'⟩ := h'
  have hbefore : j ∈ links (nodes.take k) :=
    IsChild.mem_links (i := i) ⟨w, l, r, by rw [List.getElem?_take_of_lt hik, hi], hj⟩
  have hafter : j ∈ links (nodes.drop k) :=
    IsChild.mem_links (i := 0) ⟨w', l', r', by rw [List.getElem?_drop, Nat.add_zero, hk], hj'⟩
  rw [← List.take_append_drop k nodes, links_append, List.count_append]
  have := List.count_pos_iff.2 hbefore
  have := List.count_pos_iff.2 hafter
  omega

/-- A path, by its last branch. -/
theorem pathTo_concat_iff {nodes : List Node} {i j : NodeIx} {p : List Bool} {b : Bool} :
    PathTo nodes i j (p ++ [b]) ↔ ∃ k, PathTo nodes i k p ∧ IsChild nodes k.toNat b j := by
  constructor
  · intro h
    generalize hq : p ++ [b] = q at h
    cases h with
    | root => simp at hq
    | left hk hn =>
      obtain ⟨rfl, rfl⟩ := List.append_singleton_inj.1 hq
      exact ⟨_, hk, _, _, _, hn, rfl⟩
    | right hk hn =>
      obtain ⟨rfl, rfl⟩ := List.append_singleton_inj.1 hq
      exact ⟨_, hk, _, _, _, hn, rfl⟩
  · rintro ⟨k, hk, w, l, r, hn, rfl⟩
    exact hk.append (PathTo.child b hn)

/-! ## The nodes of a tree over the counts (R41 items 3 to 6) -/

namespace TreeOver

variable {freq : Vector Count 256} {nodes : List Node} {n : Nat}

theorem internal_ge (h : TreeOver freq nodes n) {i : Nat} {w : Weight} {l r : NodeIx}
    (hi : nodes[i]? = some (.internal w l r)) : n ≤ i := by
  by_contra hlt
  obtain ⟨y, hy, -⟩ := h.leaf i (by omega)
  simp [hi] at hy

/-- A leaf stands among the first `n` nodes, and its symbol was counted (R41 item 4). -/
theorem leaf_counted (h : TreeOver freq nodes n) {j : Nat} {y : Sym} {w : Weight}
    (hj : nodes[j]? = some (.leaf y w)) : j < n ∧ countOf freq y ≠ 0 ∧ w = (countOf freq y).setWidth 40 := by
  have hlen := (List.getElem?_eq_some_iff.1 hj).1
  have hlt : j < n := by
    by_contra hge
    obtain ⟨v, l, r, a, b, hi, -⟩ := h.internal j (by omega) hlen
    simp [hj] at hi
  obtain ⟨z, hz, hcount⟩ := h.leaf j hlt
  obtain ⟨rfl, rfl⟩ : y = z ∧ w = (countOf freq z).setWidth 40 := by simpa using hj.symm.trans hz
  exact ⟨hlt, hcount, rfl⟩

/-- The leaves ascend in their symbols, not only from one to the next (R41 item 4). -/
theorem leaf_lt (h : TreeOver freq nodes n) {j k : Nat} {y z : Sym} {v w : Weight} (hjk : j < k)
    (hj : nodes[j]? = some (.leaf y v)) (hk : nodes[k]? = some (.leaf z w)) : y < z := by
  induction k, hjk using Nat.le_induction generalizing z w with
  | base => exact h.ascending j (h.leaf_counted hk).1 y z v w hj hk
  | succ k hjk ih =>
    have hlast : k + 1 < n := (h.leaf_counted hk).1
    obtain ⟨x, hx, -⟩ := h.leaf k (by omega)
    exact BitVec.lt_trans (ih hx) (h.ascending k hlast x z _ w hx hk)

/-- No two leaves carry one symbol. -/
theorem leaf_inj (h : TreeOver freq nodes n) {j k : Nat} {y : Sym} {v w : Weight}
    (hj : nodes[j]? = some (.leaf y v)) (hk : nodes[k]? = some (.leaf y w)) : j = k := by
  rcases Nat.lt_trichotomy j k with hjk | rfl | hkj
  · exact absurd (h.leaf_lt hjk hj hk) (BitVec.lt_irrefl y)
  · rfl
  · exact absurd (h.leaf_lt hkj hk hj) (BitVec.lt_irrefl y)

theorem child_lt (h : TreeOver freq nodes n) {i : Nat} {b : Bool} {j : NodeIx} (hc : IsChild nodes i b j) :
    j.toNat < i ∧ i < nodes.length :=
  hc.lt (fun k hk => let ⟨y, hy, _⟩ := h.leaf k hk; ⟨y, _, hy⟩) fun k hk hlen =>
    let ⟨w, l, r, _, _, hi, hl, hr, _⟩ := h.internal k hk hlen
    ⟨w, l, r, hi, hl, hr⟩

/-- A node is one child of one node (R41 items 5 and 6). -/
theorem child_unique (h : TreeOver freq nodes n) {i k : Nat} {b c : Bool} {j : NodeIx}
    (hi : IsChild nodes i b j) (hk : IsChild nodes k c j) : i = k ∧ b = c := by
  have hone : (links nodes).count j = 1 := by
    have hparent := h.child_lt hi
    have := h.one_parent j.toNat (by omega)
    rwa [BitVec.ofNat_toNat, BitVec.setWidth_eq] at this
  have hik : i = k := by
    rcases Nat.lt_trichotomy i k with hlt | heq | hgt
    · have := hi.two_le_count hk hlt; omega
    · exact heq
    · have := hk.two_le_count hi hgt; omega
  subst hik
  obtain ⟨w, l, r, hi, hj⟩ := hi
  obtain ⟨w', l', r', hk, hj'⟩ := hk
  obtain ⟨v, l₀, r₀, -, -, hn, -, -, hne, -⟩ :=
    h.internal i (h.internal_ge hi) (List.getElem?_eq_some_iff.1 hi).1
  obtain ⟨-, rfl, rfl⟩ : w = v ∧ l = l₀ ∧ r = r₀ := by simpa using hi.symm.trans hn
  obtain ⟨-, rfl, rfl⟩ : w' = v ∧ l' = l ∧ r' = r := by simpa using hk.symm.trans hn
  refine ⟨rfl, ?_⟩
  cases b <;> cases c
  · rfl
  · exact absurd (hj.trans hj'.symm) hne
  · exact absurd (hj'.trans hj.symm) hne
  · rfl

/-! ## Paths in a tree over the counts (R161) -/

variable {root : NodeIx}

/-- Every valid node is reached from the root: by induction from the root down, through the one parent. -/
theorem exists_path (h : TreeOver freq nodes n) (hroot : root.toNat + 1 = nodes.length) (j : NodeIx)
    (hj : j.toNat < nodes.length) : ∃ p, PathTo nodes root j p := by
  by_cases hlast : j.toNat + 1 < nodes.length
  · have hone := h.one_parent j.toNat hlast
    rw [BitVec.ofNat_toNat, BitVec.setWidth_eq] at hone
    have hlink : j ∈ links nodes := List.count_pos_iff.1 (by omega)
    obtain ⟨k, b, hc⟩ := exists_isChild hlink
    obtain ⟨hjk, hk⟩ := h.child_lt hc
    have hix : (BitVec.ofNat 9 k).toNat = k := by
      have := h.length_eq; have := h.le_nsym
      rw [BitVec.toNat_ofNat, Nat.mod_eq_of_lt (by omega)]
    obtain ⟨p, hp⟩ := exists_path h hroot (BitVec.ofNat 9 k) (by omega)
    exact ⟨p ++ [b], pathTo_concat_iff.2 ⟨_, hp, by rwa [hix]⟩⟩
  · exact ⟨[], pathTo_nil_iff.2 (BitVec.eq_of_toNat_eq (by omega))⟩
termination_by nodes.length - j.toNat
decreasing_by omega

theorem root_not_child (h : TreeOver freq nodes n) (hroot : root.toNat + 1 = nodes.length) {i : Nat} {b : Bool} :
    ¬ IsChild nodes i b root := fun hc => by
  have := h.child_lt hc
  omega

/-- Every node is reached by one bit string only: the last bit says which child of its one parent it is. -/
theorem path_unique (h : TreeOver freq nodes n) (hroot : root.toNat + 1 = nodes.length) {j : NodeIx}
    {p q : List Bool} (hp : PathTo nodes root j p) (hq : PathTo nodes root j q) : p = q := by
  induction p using List.reverseRecOn generalizing j q with
  | nil =>
    obtain rfl := pathTo_nil_iff.1 hp
    rcases List.eq_nil_or_concat' q with rfl | ⟨q, b, rfl⟩
    · rfl
    · obtain ⟨i, -, hc⟩ := pathTo_concat_iff.1 hq
      exact absurd hc (h.root_not_child hroot)
  | append_singleton p b ih =>
    obtain ⟨i, hi, hc⟩ := pathTo_concat_iff.1 hp
    rcases List.eq_nil_or_concat' q with rfl | ⟨q, c, rfl⟩
    · obtain rfl := pathTo_nil_iff.1 hq
      exact absurd hc (h.root_not_child hroot)
    · obtain ⟨k, hk, hc'⟩ := pathTo_concat_iff.1 hq
      obtain ⟨hik, rfl⟩ := h.child_unique hc hc'
      obtain rfl : i = k := BitVec.eq_of_toNat_eq hik
      rw [ih hi hk]

/-- Every step down a path leads to a lesser index, and it starts at an internal node: so no path is longer than
there are internal nodes (R166). -/
theorem path_length_le (h : TreeOver freq nodes n) (hroot : root.toNat + 1 = nodes.length) {j : NodeIx}
    {p : List Bool} (hp : PathTo nodes root j p) : p.length + j.toNat ≤ 2 * n - 2 ∧ p.length ≤ n - 1 := by
  have hlen := h.length_eq
  have hone := h.one_le
  induction p using List.reverseRecOn generalizing j with
  | nil =>
    obtain rfl := pathTo_nil_iff.1 hp
    simp only [List.length_nil]
    omega
  | append_singleton p b ih =>
    obtain ⟨i, hi, hc⟩ := pathTo_concat_iff.1 hp
    have hih := ih hi
    have hlt := h.child_lt hc
    obtain ⟨w, l, r, hn, -⟩ := hc
    have hge := h.internal_ge hn
    rw [List.length_append, List.length_singleton]
    omega

/-! ## The counted symbols (R163) -/

theorem leaves_nodup (h : TreeOver freq nodes n) : (nodes.take n).Nodup := by
  refine List.pairwise_iff_getElem.2 fun j k hj hk hjk heq => ?_
  rw [List.length_take] at hj hk
  obtain ⟨y, hy, -⟩ := h.leaf j (by omega)
  obtain ⟨z, hz, -⟩ := h.leaf k (by omega)
  obtain ⟨hj', hy⟩ := List.getElem?_eq_some_iff.1 hy
  obtain ⟨hk', hz⟩ := List.getElem?_eq_some_iff.1 hz
  rw [List.getElem_take, List.getElem_take] at heq
  have := h.leaf_inj (List.getElem?_eq_some_iff.2 ⟨hj', hy⟩)
    (List.getElem?_eq_some_iff.2 ⟨hk', heq.symm.trans hy⟩)
  omega

/-- The leaves are those of the leaf scan: `n` different ones of the `n` that the scan finds (R131). -/
theorem leaves_perm (h : TreeOver freq nodes n) : (nodes.take n).Perm (leafScan freq) := by
  have hsub : nodes.take n ⊆ leafScan freq := by
    intro a ha
    obtain ⟨j, hj, rfl⟩ := List.getElem_of_mem ha
    rw [List.length_take] at hj
    obtain ⟨y, hy, hcount⟩ := h.leaf j (by omega)
    refine (mem_leafScan_iff freq _).2 ⟨y, hcount, ?_⟩
    rw [List.getElem_take]
    exact (List.getElem?_eq_some_iff.1 hy).2
  refine (List.subperm_of_subset h.leaves_nodup hsub).perm_of_length_le ?_
  have := h.length_eq
  have := h.one_le
  rw [leafScan_length, ← h.leaf_count, List.length_take]
  omega

/-- A counted symbol has a leaf (R131). -/
theorem exists_leaf (h : TreeOver freq nodes n) {y : Sym} (hy : countOf freq y ≠ 0) :
    ∃ (j : NodeIx) (w : Weight), nodeAt nodes j = some (.leaf y w) := by
  have hmem := h.leaves_perm.mem_iff.2 ((mem_leafScan_iff freq _).2 ⟨y, hy, rfl⟩)
  obtain ⟨j, hj, hn⟩ := List.getElem_of_mem hmem
  rw [List.length_take] at hj
  rw [List.getElem_take] at hn
  have hix : (BitVec.ofNat 9 j).toNat = j := by
    have := h.le_nsym
    rw [BitVec.toNat_ofNat, Nat.mod_eq_of_lt (by omega)]
  refine ⟨BitVec.ofNat 9 j, (countOf freq y).setWidth 40, ?_⟩
  rw [nodeAt, hix, List.getElem?_eq_getElem (by omega), hn]

end TreeOver


/-! ## The table of a build (R130 to R141) -/

namespace Merging

variable {leaves nodes : List Node} {e : PqEntry}

/-- The leaves of the scan stay in front (R133). -/
theorem getElem?_leaf {pq : List PqEntry} (h : Merging leaves nodes pq) {j : Nat} (hj : j < leaves.length) :
    nodes[j]? = leaves[j]? := by
  obtain ⟨inner, rfl⟩ := h.starts
  exact List.getElem?_append_left hj

theorem root_not_linked {pq : List PqEntry} (h : Merging leaves nodes pq) :
    BitVec.ofNat 9 (nodes.length - 1) ∉ links nodes := by
  intro hlink
  obtain ⟨i, b, hc⟩ := exists_isChild hlink
  have hlt := hc.lt (n := leaves.length)
    (fun k hk => by
      obtain ⟨y, w, hn⟩ := h.all_leaves _ (List.getElem_mem hk)
      exact ⟨y, w, by rw [h.getElem?_leaf hk, List.getElem?_eq_getElem hk, hn]⟩)
    (fun k hk hlen =>
      let ⟨w, l, r, _, _, hn, hl, hr, _⟩ := h.internal k hk hlen
      ⟨w, l, r, hn, hl, hr⟩)
  have := h.length_lt
  rw [BitVec.toNat_ofNat, Nat.mod_eq_of_lt (by omega)] at hlt
  omega

/-- The one member left in the queue is the last node made (R136). -/
theorem last_index (h : Merging leaves nodes [e]) : e.index = BitVec.ofNat 9 (nodes.length - 1) := by
  have hpos : 0 < nodes.length := by
    obtain ⟨a, ha, -⟩ := h.entry e (by simp)
    exact (Nat.zero_le _).trans_lt (nodeAt_lt ha)
  have hwait := (h.mem_queue_iff (BitVec.ofNat 9 (nodes.length - 1))).2
    ⟨by rw [BitVec.toNat_ofNat]; omega, h.root_not_linked⟩
  simpa [eq_comm] using hwait

/-- Every node but the last is a child of one node (R41 item 6). -/
theorem count_links (h : Merging leaves nodes [e]) {j : Nat} (hj : j + 1 < nodes.length) :
    (links nodes).count (BitVec.ofNat 9 j) = 1 := by
  have hlen := h.length_lt
  have hix : (BitVec.ofNat 9 j).toNat = j := by rw [BitVec.toNat_ofNat, Nat.mod_eq_of_lt (by omega)]
  refine List.count_eq_one_of_mem (List.nodup_append.1 h.nodup).1 (by_contra fun hlink => ?_)
  have hwait : e.index = BitVec.ofNat 9 j := by
    simpa [eq_comm] using (h.mem_queue_iff _).2 ⟨by rw [hix]; omega, hlink⟩
  have := congrArg BitVec.toNat (hwait.symm.trans h.last_index)
  rw [hix, BitVec.toNat_ofNat, Nat.mod_eq_of_lt (by omega)] at this
  omega

/-- The last node weighs what all leaves weigh (R139). -/
theorem last_weight (h : Merging leaves nodes [e]) : ∃ a : Node, nodes[nodes.length - 1]? = some a ∧
    a.weight.toNat = (leaves.map fun n => n.weight.toNat).sum := by
  obtain ⟨a, ha, hw⟩ := h.entry e (by simp)
  have hlen := h.length_lt
  rw [nodeAt, h.last_index, BitVec.toNat_ofNat, Nat.mod_eq_of_lt (by omega)] at ha
  exact ⟨a, ha, by rw [← h.weights, hw]; simp⟩

end Merging

/-- What `BLD` leaves is a tree over the counts (R130, R131, R136, R139). -/
theorem buildNodes_treeOver (freq : Vector Count 256) (h : leafScan freq ≠ []) :
    TreeOver freq (buildNodes (leafScan freq)) (presentCount freq) := by
  obtain ⟨e, hm⟩ := buildNodes_merging freq h
  have hscan := leafScan_length freq
  exact
    { one_le := by rw [← hscan]; exact List.length_pos_iff.2 h
      le_nsym := presentCount_le freq
      leaf_count := rfl
      length_eq := buildNodes_length freq h
      leaf := fun j hj => by
        rw [← hscan] at hj
        obtain ⟨y, hy, hn⟩ := (mem_leafScan_iff freq _).1 (List.getElem_mem hj)
        exact ⟨y, by rw [hm.getElem?_leaf hj, List.getElem?_eq_getElem hj, hn], hy⟩
      ascending := fun j hj y z v w hy hz => by
        rw [← hscan] at hj
        rw [hm.getElem?_leaf (by omega)] at hy
        rw [hm.getElem?_leaf hj] at hz
        obtain ⟨hj, hy⟩ := List.getElem?_eq_some_iff.1 hy
        obtain ⟨hk, hz⟩ := List.getElem?_eq_some_iff.1 hz
        exact List.pairwise_iff_getElem.1 (leafScan_ascending freq) j (j + 1) hj hk (Nat.lt_succ_self j) y z v w hy hz
      internal := fun i hi => hm.internal i (by rwa [hscan])
      one_parent := fun j hj => hm.count_links hj
      root_no_parent := hm.root_not_linked
      total := by rw [← leafScan_weight_sum]; exact hm.last_weight }

/-! ## The codes that `GEN` writes (R160 to R163) -/

/-- `q` is the code that R161 and R162 give the leaf at `j`: its path, or "0" for a single leaf. -/
def IsCode (s : State) (j : NodeIx) (q : List Bool) : Prop :=
  if s.nleaf = 1 then j = 0 ∧ q = [false] else PathTo s.nodes s.root j q

theorem isCode_of_single {s : State} (h : s.nleaf = 1) {j : NodeIx} {q : List Bool} :
    IsCode s j q ↔ j = 0 ∧ q = [false] := by rw [IsCode, if_pos h]

theorem isCode_of_not_single {s : State} (h : s.nleaf ≠ 1) {j : NodeIx} {q : List Bool} :
    IsCode s j q ↔ PathTo s.nodes s.root j q := by rw [IsCode, if_neg h]

/-- The entries of the code table are the leaves with their codes (R160). -/
theorem mem_codeEntries_iff {s : State} {es : List (Sym × List Bool)} (h : codeEntries s = some es) (y : Sym)
    (q : List Bool) :
    (y, q) ∈ es ↔ ∃ (j : NodeIx) (w : Weight), nodeAt s.nodes j = some (.leaf y w) ∧ IsCode s j q := by
  unfold codeEntries at h
  split at h
  · next hone =>
    simp only [isCode_of_single hone]
    split at h
    · next z v hz =>
      obtain rfl := Option.some.inj h
      rw [List.mem_singleton, Prod.mk.injEq]
      constructor
      · rintro ⟨rfl, rfl⟩
        exact ⟨0, v, hz, rfl, rfl⟩
      · rintro ⟨j, w, hj, rfl, rfl⟩
        obtain ⟨rfl, -⟩ : y = z ∧ w = v := by simpa using hj.symm.trans hz
        exact ⟨rfl, rfl⟩
    · simp at h
  · next hone =>
    simp only [isCode_of_not_single hone, mem_walk_iff h, List.nil_append, exists_eq_right_right']


/-! ## Codes in a state that meets the invariants -/

namespace Inv

variable {s : State}

theorem root_succ (h : Inv s) (hp : s.phase ≠ .count) : s.root.toNat + 1 = s.nodes.length := by
  have htree := h.tree hp
  have := h.root_eq hp
  have := htree.length_eq
  have := htree.one_le
  omega

/-- A leaf has one code, and no other leaf carries its symbol. -/
theorem isCode_unique (h : Inv s) (hp : s.phase ≠ .count) {y : Sym} {j k : NodeIx} {v w : Weight}
    {q q' : List Bool} (hj : nodeAt s.nodes j = some (.leaf y v)) (hq : IsCode s j q)
    (hk : nodeAt s.nodes k = some (.leaf y w)) (hq' : IsCode s k q') : q = q' := by
  obtain rfl : j = k := BitVec.eq_of_toNat_eq ((h.tree hp).leaf_inj hj hk)
  by_cases hone : s.nleaf = 1
  · rw [((isCode_of_single hone).1 hq).2, ((isCode_of_single hone).1 hq').2]
  · exact (h.tree hp).path_unique (h.root_succ hp) ((isCode_of_not_single hone).1 hq)
      ((isCode_of_not_single hone).1 hq')

/-- `GEN` gives a leaf its code (R160). -/
theorem getCode_installCodes (h : Inv s) (hp : s.phase ≠ .count) {es : List (Sym × List Bool)}
    (hes : codeEntries s = some es) {y : Sym} {j : NodeIx} {w : Weight} {q : List Bool}
    (hj : nodeAt s.nodes j = some (.leaf y w)) (hq : IsCode s j q) :
    (getCode (installCodes es s) y).bits = q := by
  have hmem := (mem_codeEntries_iff hes y q).2 ⟨j, w, hj, hq⟩
  have hone : ∀ q', (y, q') ∈ es → q' = q := fun q' hq' => by
    obtain ⟨k, v, hk, hkq⟩ := (mem_codeEntries_iff hes y q').1 hq'
    exact h.isCode_unique hp hk hkq hj hq
  rw [getCode, installCodes_code, tableOf_of_mem hmem hone]

/-- What `GEN` writes are the codes of item 11 of R41. -/
theorem codesOf_installCodes (h : Inv s) (hp : s.phase ≠ .count) {es : List (Sym × List Bool)}
    (hes : codeEntries s = some es) : CodesOf (installCodes es s) where
  single hone y w hj := h.getCode_installCodes hp hes hj ((isCode_of_single hone).2 ⟨rfl, rfl⟩)
  path hn j y w hj := by
    obtain ⟨q, hq⟩ := (h.tree hp).exists_path (h.root_succ hp) j (nodeAt_lt hj)
    rwa [h.getCode_installCodes hp hes hj ((isCode_of_not_single hn).2 hq)]
  absent y hy := by
    have hnone : ∀ q, (y, q) ∉ es := fun q hq => by
      obtain ⟨j, w, hj, -⟩ := (mem_codeEntries_iff hes y q).1 hq
      exact ((h.tree hp).leaf_counted hj).2.1 hy
    rw [getCode, installCodes_code, tableOf_of_not_mem hnone]

/-! ## The invariants of R41 are kept -/

/-- A change of CUR, ERR and the session flags keeps the invariants when the cursor stays, goes to the root or to an
internal node (item 8), and a session is open only as items 9 and 10 allow. -/
theorem of_sameTables {t : State} (h : Inv s) (htab : SameTables s t)
    (hcur : t.cur = s.cur ∨ t.cur = s.root ∨ s.phase ≠ .count ∧ s.nleaf ≠ 1 ∧
      ∃ (w : Weight) (l r : NodeIx), nodeAt s.nodes t.cur = some (.internal w l r))
    (henc : t.encOpen = true → t.err = none ∧ s.phase = .ready)
    (hdec : t.decOpen = true → t.err = none ∧ s.phase ≠ .count) : Inv t := by
  obtain ⟨hfreq, hnodes, hcode, hphase, hnleaf, hroot⟩ := htab
  constructor
  case count_iff => rw [hphase, hnleaf]; exact h.count_iff
  case count_clear =>
    intro hp
    rw [hphase] at hp
    obtain ⟨hr, hc, -, -, hn⟩ := h.count_clear hp
    have hcur0 : t.cur = 0 := by
      rcases hcur with hc' | hc' | ⟨hp', -⟩
      · exact hc'.trans hc
      · exact hc'.trans hr
      · exact absurd hp hp'
    refine ⟨hroot.trans hr, hcur0, Bool.eq_false_iff.2 fun he => ?_, Bool.eq_false_iff.2 fun hd => ?_,
      hnodes.trans hn⟩
    · exact absurd (hp.symm.trans (henc he).2) nofun
    · exact (hdec hd).2 hp
  case tree => rw [hphase, hfreq, hnodes, hnleaf]; exact h.tree
  case root_eq => rw [hphase, hroot, hnleaf]; exact h.root_eq
  case cursor =>
    rw [hphase, hnodes, hroot]
    intro hp
    rcases hcur with hc | hc | ⟨-, -, hc⟩
    · rw [hc]; exact h.cursor hp
    · exact .inl hc
    · exact .inr hc
  case cursor_single =>
    rw [hnleaf, hroot]
    intro hone
    obtain ⟨hc0, hr0⟩ := h.cursor_single hone
    rcases hcur with hc | hc | ⟨-, hn, -⟩
    · exact ⟨hc.trans hc0, hr0⟩
    · exact ⟨hc.trans hr0, hr0⟩
    · exact absurd hone hn
  case fault_closed =>
    intro he
    exact ⟨Bool.eq_false_iff.2 fun ho => he (henc ho).1, Bool.eq_false_iff.2 fun ho => he (hdec ho).1⟩
  case enc_ready => rw [hphase]; exact fun ho => (henc ho).2
  case dec_tree => rw [hphase]; exact fun ho => (hdec ho).2
  case codes =>
    rw [hphase]
    intro hp
    obtain ⟨hsingle, hpath, habsent⟩ := h.codes hp
    constructor
    · simpa only [hnleaf, hnodes, getCode, hcode] using hsingle
    · simpa only [hnleaf, hnodes, hroot, getCode, hcode] using hpath
    · simpa only [getFreq, hfreq, getCode, hcode] using habsent

theorem enc_open (h : Inv s) (ho : s.encOpen = true) : s.err = none ∧ s.phase = .ready :=
  ⟨by_contra fun he => by simp [(h.fault_closed he).1] at ho, h.enc_ready ho⟩

theorem dec_open (h : Inv s) (ho : s.decOpen = true) : s.err = none ∧ s.phase ≠ .count :=
  ⟨by_contra fun he => by simp [(h.fault_closed he).2] at ho, h.dec_tree ho⟩

/-- The invariants do not speak of the channels. -/
theorem of_channels (h : Inv s) (cmd : List Word) (rsp : List RspWord) (bitOut : List BitWord)
    (symOut : List SymWord) : Inv { s with cmd := cmd, rsp := rsp, bitOut := bitOut, symOut := symOut } :=
  h.of_sameTables ⟨rfl, rfl, rfl, rfl, rfl, rfl⟩ (.inl rfl) h.enc_open h.dec_open

theorem at_reset : Inv State.reset where
  count_iff := ⟨fun _ => rfl, fun _ => rfl⟩
  count_clear _ := ⟨rfl, rfl, rfl, rfl, rfl⟩
  tree hp := absurd rfl hp
  root_eq hp := absurd rfl hp
  cursor hp := absurd rfl hp
  cursor_single _ := ⟨rfl, rfl⟩
  fault_closed he := absurd rfl he
  enc_ready := nofun
  dec_tree := nofun
  codes := nofun

/-- Counting touches no item: in phase COUNT they do not speak of FREQ (R41). -/
theorem after_setFreq (h : Inv s) (hp : s.phase = .count) (y : Sym) (v : Count) : Inv (setFreq y v s) where
  count_iff := h.count_iff
  count_clear := h.count_clear
  tree hp' := absurd hp hp'
  root_eq hp' := absurd hp hp'
  cursor hp' := absurd hp hp'
  cursor_single := h.cursor_single
  fault_closed := h.fault_closed
  enc_ready := h.enc_ready
  dec_tree := h.dec_tree
  codes hp' := absurd (hp.symm.trans hp') nofun

theorem after_installTree (h : Inv s) (hp : s.phase = .count) (hne : leafScan s.freq ≠ []) :
    Inv (installTree (BitVec.ofNat 9 (leafScan s.freq).length)
      (BitVec.ofNat 9 ((buildNodes (leafScan s.freq)).length - 1)) (buildNodes (leafScan s.freq)) s) := by
  obtain ⟨-, -, henc, hdec, -⟩ := h.count_clear hp
  have htree := buildNodes_treeOver s.freq hne
  have hone := htree.one_le
  have hle := htree.le_nsym
  rw [leafScan_length, htree.length_eq]
  have hn : (BitVec.ofNat 9 (presentCount s.freq)).toNat = presentCount s.freq := by
    rw [BitVec.toNat_ofNat, Nat.mod_eq_of_lt (by omega)]
  have hr : (BitVec.ofNat 9 (2 * presentCount s.freq - 1 - 1)).toNat = 2 * presentCount s.freq - 2 := by
    rw [BitVec.toNat_ofNat, Nat.mod_eq_of_lt (by omega)]; omega
  constructor
  case count_iff =>
    simp only [installTree_phase, installTree_nleaf]
    refine ⟨nofun, fun h0 => ?_⟩
    rw [h0] at hn
    simp at hn; omega
  case count_clear => simp
  case tree => simpa [hn] using htree
  case root_eq => simp [hn, hr]
  case cursor => simp
  case cursor_single =>
    simp only [installTree_nleaf, installTree_cur, installTree_root, and_self]
    intro h1
    rw [h1] at hn
    exact BitVec.eq_of_toNat_eq (by rw [hr, ← hn]; rfl)
  case fault_closed => simp [henc, hdec]
  case enc_ready => simp [henc]
  case dec_tree => simp
  case codes => simp

theorem after_installCodes (h : Inv s) (hp : s.phase = .tree) {es : List (Sym × List Bool)}
    (hes : codeEntries s = some es) : Inv (installCodes es s) := by
  have hne : s.phase ≠ .count := by simp [hp]
  exact
    { count_iff := ⟨nofun, fun h0 => absurd (h.count_iff.2 h0) hne⟩
      count_clear := nofun
      tree := fun _ => h.tree hne
      root_eq := fun _ => h.root_eq hne
      cursor := fun _ => h.cursor hne
      cursor_single := h.cursor_single
      fault_closed := h.fault_closed
      enc_ready := fun _ => rfl
      dec_tree := fun _ => nofun
      codes := fun _ => h.codesOf_installCodes hne hes }

theorem after_respond (h : Inv s) (st : Status) (d : Data) : Inv (respond st d s) := h.of_channels _ _ _ _

theorem after_raise (h : Inv s) (e : ErrorKind) : Inv (raise e s) :=
  h.of_sameTables (raise_sameTables e s) (.inl (raise_cur s e)) (by simp) (by simp)

/-- A command that answers OK keeps the invariants. -/
theorem after_did (h : Inv s) {i : Instr} {t : State} (hdid : Did s i t) : Inv t := by
  cases hdid with
  | clr => exact at_reset.of_channels _ _ _ _
  | cnt _ hp _ => exact (h.after_setFreq hp _ _).after_respond _ _
  | bld _ hp hne => exact h.after_installTree hp hne
  | gen _ hp hes => exact h.after_installCodes hp hes
  | enc he hp _ =>
    exact h.of_sameTables ⟨rfl, rfl, rfl, rfl, rfl, rfl⟩ (.inl rfl) (fun _ => ⟨he, hp⟩) h.dec_open
  | encend _ _ => exact h.of_sameTables ⟨rfl, rfl, rfl, rfl, rfl, rfl⟩ (.inl rfl) nofun h.dec_open
  | decSingle he hp _ _ =>
    exact h.of_sameTables ⟨rfl, rfl, rfl, rfl, rfl, rfl⟩ (.inl rfl) h.enc_open fun _ => ⟨he, hp⟩
  | decLeaf he hp _ _ _ =>
    exact h.of_sameTables ⟨rfl, rfl, rfl, rfl, rfl, rfl⟩ (.inr (.inl rfl)) h.enc_open fun _ => ⟨he, hp⟩
  | decInside he hp hn _ hchild =>
    exact h.of_sameTables ⟨rfl, rfl, rfl, rfl, rfl, rfl⟩ (.inr (.inr ⟨hp, hn, _, _, _, hchild⟩)) h.enc_open
      fun _ => ⟨he, hp⟩
  | decend _ _ _ => exact h.of_sameTables ⟨rfl, rfl, rfl, rfl, rfl, rfl⟩ (.inl rfl) h.enc_open nofun
  | rds | rdf _ | rdl _ | rdnw _ | rdnl _ => exact h.after_respond _ _

theorem after_hostAct (h : Inv s) (a : HostAction) : Inv (hostAct a s) := by
  cases a with
  | assertReset => exact at_reset
  | push _ | takeRsp | takeBit | takeSym => exact h.of_channels _ _ _ _

end Inv

/-! ## Events (R68, R299) -/

/-- A step waits, or runs the word at the head of CMD (R68, R72). -/
theorem step_next {s t : State} (h : step s = .next t) :
    (s.cmd = [] ∧ t = s) ∨
      ∃ w rest, s.cmd = w :: rest ∧ runWord w { s with cmd := rest } = .next t := by
  cases hc : s.cmd with
  | nil =>
    simp only [step, takeCommand, hc] at h
    exact .inl ⟨rfl, (Host.Outcome.next.inj h).symm⟩
  | cons w rest =>
    simp only [step, takeCommand, hc] at h
    exact .inr ⟨w, rest, rfl, h⟩

/-- An induction over events: what a take from CMD, the actions of the host, a refusal in fault, fault entry and the
commands that answer OK keep is kept by every event. -/
theorem happen_keeps {P : State → Prop} (hcmd : ∀ s cmd, P s → P { s with cmd := cmd })
    (hhost : ∀ a s, P s → P (hostAct a s)) (hrefuse : ∀ s, P s → P (respond .faulted 0 s))
    (hraise : ∀ e s, P s → P (raise e s)) (hdid : ∀ s i t, P s → Did s i t → P t)
    (e : Event) (s t : State) (hs : P s) (h : happen e s = .next t) : P t := by
  cases e with
  | host a =>
    obtain rfl := Host.Outcome.next.inj h
    exact hhost a s hs
  | engine =>
    rcases step_next h with ⟨-, rfl⟩ | ⟨w, rest, -, h⟩
    · exact hs
    · have hs' := hcmd s rest hs
      rcases word_next h with ⟨-, -, -, rfl⟩ | ⟨-, e, rfl⟩ | ⟨i, -, hi⟩
      · exact hrefuse _ hs'
      · exact hraise e _ hs'
      · exact hdid _ i t hs' hi

/-- Settles O55: the tables change only by `CLR`, `CNT`, `BLD` and `GEN`, whose results meet the items; every other
event moves the cursor and the flags as items 8 to 10 allow. -/
theorem eventsKeepInvariant : Obligations.EventsKeepInvariant :=
  happen_keeps (fun _ _ h => h.of_channels _ _ _ _) (fun a _ h => h.after_hostAct a) (fun _ h => h.after_respond _ _)
    (fun e _ h => h.after_raise e) fun _ _ _ h hdid => h.after_did hdid


/-! ## A code exactly for each counted symbol (R163, R178) -/

theorem codeLen_eq_zero_iff {c : CodeRec} (h : c.bits.length < 256) : codeLen c = 0 ↔ c.bits = [] := by
  rw [codeLen, ← BitVec.toNat_inj, BitVec.toNat_ofNat, Nat.mod_eq_of_lt h]
  exact List.length_eq_zero_iff

namespace Inv

variable {s : State}

/-- A counted symbol has a code, and its length fits in the field `len` (R163, R166). -/
theorem code_of_counted (h : Inv s) (hp : s.phase = .ready) {y : Sym} (hy : countOf s.freq y ≠ 0) :
    (getCode s y).bits ≠ [] ∧ (getCode s y).bits.length < 256 := by
  have hne : s.phase ≠ .count := by simp [hp]
  have htree := h.tree hne
  obtain ⟨j, w, hj⟩ := htree.exists_leaf hy
  have hjn := (htree.leaf_counted hj).1
  by_cases hone : s.nleaf = 1
  · have hj0 : j = 0 := BitVec.eq_of_toNat_eq (by rw [hone] at hjn; simpa using hjn)
    rw [(h.codes hp).single hone y w (by rw [← hj0]; exact hj)]
    decide
  · have hpath := (h.codes hp).path hone j y w hj
    have hlen := (htree.path_length_le (h.root_succ hne) hpath).2
    have hle := htree.le_nsym
    refine ⟨fun hnil => ?_, by omega⟩
    rw [hnil, pathTo_nil_iff] at hpath
    have hroot := h.root_eq hne
    rw [← hpath] at hroot
    have h1 : s.nleaf.toNat ≠ 1 := fun hc => hone (BitVec.eq_of_toNat_eq hc)
    omega

theorem codeLen_ne_zero_iff (h : Inv s) (hp : s.phase = .ready) (y : Sym) :
    codeLen (getCode s y) ≠ 0 ↔ countOf s.freq y ≠ 0 := by
  by_cases hy : countOf s.freq y = 0
  · have hbits := (h.codes hp).absent y hy
    simp [hy, codeLen, hbits]
  · obtain ⟨hne, hlen⟩ := h.code_of_counted hp hy
    exact iff_of_true (fun hc => hne ((codeLen_eq_zero_iff hlen).1 hc)) hy

end Inv

theorem execEnc_of_code {s : State} {y : Sym} (he : s.err = none) (hp : s.phase = .ready)
    (hc : codeLen (getCode s y) ≠ 0) : execEnc y s = .next (respond .ok ((codeLen (getCode s y)).setWidth 40)
      { emitBits (getCode s y).bits s with encOpen := true }) := by
  rw [execEnc, unlessFault_none he, inReady_iff.2 hp, inPhase_true, encodeSymbol, if_neg hc]

/-- Settles O33: a counted symbol has a leaf, and the code of a leaf is its path (or "0"), which is not empty and has
at most 255 bits; a symbol that was not counted has no code. -/
theorem codesExactlyForCountedSymbols : Obligations.CodesExactlyForCountedSymbols := by
  intro s h hp y
  refine ⟨h.codeLen_ne_zero_iff hp y, fun he hy => ⟨_, execEnc_of_code he hp ?_, he⟩⟩
  exact (h.codeLen_ne_zero_iff hp y).2 hy

/-! ## The session flags and the channels (R32, R33) -/

theorem endWord_ne_symWord (y : Sym) : endWord ≠ symWord y := by
  intro h
  have := congrArg BitVec.toNat h
  simp [endWord, symWord] at this
  omega

theorem abortSymWord_ne_symWord (y : Sym) : abortSymWord ≠ symWord y := by
  intro h
  have := congrArg BitVec.toNat h
  simp [abortSymWord, symWord] at this
  omega

theorem getLast?_of_tail {α : Type} {l : List α} {a : α} (h : l.tail.getLast? = some a) :
    l.getLast? = some a := by
  rw [List.getLast?_tail] at h
  split at h
  · simp at h
  · exact h

namespace Sessions

variable {s : State}

/-- After the abort of the encoder session BITOUT ends with no bit (R244). -/
theorem abortEnc_last (h : Sessions s) {b : BitWord}
    (hb : (s.bitOut ++ if s.encOpen then [abortBitWord] else []).getLast? = some b) :
    ¬ (b = bitWord false ∨ b = bitWord true) := by
  cases ho : s.encOpen with
  | false =>
    rw [ho] at hb
    simpa [ho] using h.enc_flag b (by simpa using hb)
  | true =>
    obtain rfl : abortBitWord = b := by simpa [ho] using hb
    decide

/-- After the abort of the decoder session SYMOUT ends with no symbol (R244). -/
theorem abortDec_last (h : Sessions s) (y : Sym) :
    (s.symOut ++ if s.decOpen then [abortSymWord] else []).getLast? ≠ some (symWord y) := by
  cases ho : s.decOpen with
  | false => simpa [ho] using fun hy => absurd (h.dec_flag y hy) (by simp [ho])
  | true => simpa [ho] using abortSymWord_ne_symWord y

theorem at_reset : Sessions State.reset where
  enc_flag := nofun
  dec_flag := nofun
  cursor_open := absurd rfl

theorem after_raise (h : Sessions s) (e : ErrorKind) : Sessions (raise e s) where
  enc_flag b hb := by
    have := h.abortEnc_last (b := b) (by simpa using hb)
    simpa using this
  dec_flag y hy := absurd (by simpa using hy) (h.abortDec_last y)
  cursor_open _ := .inr (by simp)

theorem after_clr (h : Sessions s) : Sessions (respond .ok 0 (clearEngine (abortDec (abortEnc s)))) where
  enc_flag b hb := by
    have := h.abortEnc_last (b := b) (by simpa using hb)
    simpa [State.reset] using this
  dec_flag y hy := absurd (by simpa using hy) (h.abortDec_last y)
  cursor_open := absurd rfl

/-- `ENC` ends BITOUT with the last bit of a code, which is not empty. -/
theorem after_enc (h : Sessions s) {c : CodeRec} (hc : codeLen c ≠ 0) (d : Data) :
    Sessions (respond .ok d { emitBits c.bits s with encOpen := true }) where
  enc_flag b hb := by
    rcases List.eq_nil_or_concat' c.bits with hnil | ⟨q, v, hq⟩
    · simp [codeLen, hnil] at hc
    · obtain rfl : bitWord v = b := by simpa [hq] using hb
      cases v <;> simp
  dec_flag := h.dec_flag
  cursor_open := h.cursor_open

theorem after_encend (h : Sessions s) : Sessions (closeBits s) where
  enc_flag b hb := by
    obtain rfl : closeWord = b := by simpa using hb
    exact iff_of_false Bool.false_ne_true (by decide)
  dec_flag := h.dec_flag
  cursor_open := h.cursor_open

theorem after_decend (h : Sessions s) (hc : s.cur = s.root) :
    Sessions (respond .ok 0 { emitSym .finish s with decOpen := false }) where
  enc_flag := h.enc_flag
  dec_flag y hy := absurd (by simpa using hy) (endWord_ne_symWord y)
  cursor_open := absurd hc

/-- A command that answers OK keeps what the flags say. -/
theorem after_did (h : Sessions s) {i : Instr} {t : State} (hdid : Did s i t) : Sessions t := by
  cases hdid with
  | clr => exact h.after_clr
  | enc _ _ hc => exact h.after_enc hc _
  | encend _ _ => exact h.after_encend
  | decSingle _ _ _ _ | decLeaf _ _ _ _ _ | decInside _ _ _ _ _ =>
    exact ⟨h.enc_flag, fun _ _ => rfl, fun _ => .inl rfl⟩
  | decend _ _ hc => exact h.after_decend hc
  | bld _ _ _ => exact ⟨h.enc_flag, h.dec_flag, absurd rfl⟩
  | cnt _ _ _ | gen _ _ _ | rds | rdf _ | rdl _ | rdnw _ | rdnl _ =>
    exact ⟨h.enc_flag, h.dec_flag, h.cursor_open⟩

/-- What is left of a channel after a take ends as the channel did. -/
theorem after_hostAct (h : Sessions s) (a : HostAction) : Sessions (hostAct a s) := by
  cases a with
  | assertReset => exact at_reset
  | push _ | takeRsp => exact ⟨h.enc_flag, h.dec_flag, h.cursor_open⟩
  | takeBit => exact ⟨fun b hb => h.enc_flag b (getLast?_of_tail hb), h.dec_flag, h.cursor_open⟩
  | takeSym => exact ⟨h.enc_flag, fun y hy => h.dec_flag y (getLast?_of_tail hy), h.cursor_open⟩

end Sessions

/-- Settles O56: `ENC`, `ENCEND`, `DEC` and `DECEND` set their flag as the beat they end with says, and an abort
closes the session and its channel together. -/
theorem eventsKeepSessions : Obligations.EventsKeepSessions :=
  happen_keeps (fun _ _ h => ⟨h.enc_flag, h.dec_flag, h.cursor_open⟩) (fun a _ h => h.after_hostAct a)
    (fun _ h => ⟨h.enc_flag, h.dec_flag, h.cursor_open⟩) (fun e _ h => h.after_raise e)
    fun _ _ _ h hdid => h.after_did hdid

/-! ## The reset state (R39) -/

/-- Settles O44: each value is the one the reset state is written with, and every counter of FREQ is 0. -/
theorem resetValues : Obligations.ResetValues := by
  refine ⟨fun y => ?_, rfl, rfl, rfl, rfl, rfl, rfl, rfl, rfl, rfl, rfl, rfl, rfl, rfl⟩
  simp [countOf, State.reset]

/-- Settles O54: phase COUNT leaves only the register values to check, and the channels are empty. -/
theorem resetMeetsInvariants : Obligations.ResetMeetsInvariants :=
  ⟨.at_reset, .at_reset, ⟨nofun, nofun⟩⟩


/-! ## What is not valid cannot be observed (R40, R282) -/

/-- `u` is `s` with anything in the entries that are not valid: in NODE in phase COUNT, in CODE before phase READY. -/
inductive AgreeOnValid (s : State) : State → Prop where
  | mk (nodes : List Node) (code : Vector CodeRec 256) (hnodes : s.phase ≠ .count → nodes = s.nodes)
      (hcode : s.phase = .ready → code = s.code) : AgreeOnValid s { s with nodes := nodes, code := code }

/-- Where the first outcome goes on, the second does too, and the states it gives agree on what is valid. -/
def Lockstep (o o' : Outcome) : Prop := ∀ t, o = .next t → ∃ u, o' = .next u ∧ AgreeOnValid t u

namespace AgreeOnValid

variable {s u : State}

theorem refl (s : State) : AgreeOnValid s s := ⟨s.nodes, s.code, fun _ => rfl, fun _ => rfl⟩

theorem after_respond (h : AgreeOnValid s u) (st : Status) (d : Data) :
    AgreeOnValid (respond st d s) (respond st d u) := by
  obtain ⟨nodes, code, hnodes, hcode⟩ := h
  exact ⟨nodes, code, hnodes, hcode⟩

theorem after_raise (h : AgreeOnValid s u) (e : ErrorKind) : AgreeOnValid (raise e s) (raise e u) := by
  obtain ⟨nodes, code, hnodes, hcode⟩ := h
  have hraise : raise e { s with nodes := nodes, code := code } =
      { raise e s with nodes := nodes, code := code } := by
    apply State.ext <;> simp
  rw [hraise]
  exact ⟨nodes, code, by simpa using hnodes, by simpa using hcode⟩

theorem eq_of_ready (h : AgreeOnValid s u) (hp : s.phase = .ready) : u = s := by
  obtain ⟨nodes, code, hnodes, hcode⟩ := h
  rw [hnodes (by simp [hp]), hcode hp]

end AgreeOnValid

namespace Lockstep

variable {s u : State} {k k' : Outcome}

theorem next (h : AgreeOnValid s u) : Lockstep (.next s) (.next u) := by
  rintro t ht
  obtain rfl := Host.Outcome.next.inj ht
  exact ⟨u, rfl, h⟩

theorem fault (r : Fault) : Lockstep (.fault r) k := nofun

theorem of_unlessFault (h : AgreeOnValid s u) (hk : Lockstep k k') :
    Lockstep (unlessFault s k) (unlessFault u k') := by
  have herr : u.err = s.err := by cases h; rfl
  by_cases he : s.err = none
  · rwa [unlessFault_none he, unlessFault_none (herr.trans he)]
  · rw [unlessFault_some he, unlessFault_some (herr.trans_ne he)]
    exact next (h.after_respond _ _)

/-- The front part of a command with a phase (R243). -/
theorem front {ok : Bool} (h : AgreeOnValid s u) (hk : ok = true → Lockstep k k') :
    Lockstep (unlessFault s (inPhase ok s k)) (unlessFault u (inPhase ok u k')) := by
  refine of_unlessFault h ?_
  cases ok
  · exact next (h.after_raise _)
  · exact hk rfl

theorem of_execClr (h : AgreeOnValid s u) : Lockstep (execClr s) (execClr u) := by
  obtain ⟨nodes, code, -, -⟩ := h
  have hsame : respond .ok 0 (clearEngine (abortDec (abortEnc { s with nodes := nodes, code := code }))) =
      respond .ok 0 (clearEngine (abortDec (abortEnc s))) := by
    apply State.ext <;> simp
  rw [execClr, execClr, hsame]
  exact next (.refl _)

theorem of_execCnt (h : AgreeOnValid s u) (y : Sym) : Lockstep (execCnt y s) (execCnt y u) := by
  have hfreq : getFreq u y = getFreq s y := by cases h; rfl
  have hphase : inCount u = inCount s := by cases h; rfl
  rw [execCnt, execCnt, countCommand, countCommand, hphase]
  refine front h fun _ => ?_
  rw [countOne, countOne, hfreq]
  split
  · exact next (h.after_raise _)
  · obtain ⟨nodes, code, hnodes, hcode⟩ := h
    exact next ⟨nodes, code, hnodes, hcode⟩

theorem of_execBld (h : AgreeOnValid s u) : Lockstep (execBld s) (execBld u) := by
  have hfreq : u.freq = s.freq := by cases h; rfl
  have hphase : inCount u = inCount s := by cases h; rfl
  rw [execBld, execBld, hphase, hfreq]
  refine front h fun _ => ?_
  rw [buildTree, buildTree]
  split
  · exact next (h.after_raise _)
  · obtain ⟨-, code, -, -⟩ := h
    exact next ⟨_, code, fun _ => rfl, nofun⟩

/-- `GEN` reads NODE, which is valid in its phase, and writes all of CODE. -/
theorem of_execGen (h : AgreeOnValid s u) : Lockstep (execGen s) (execGen u) := by
  have hphase : inTree u = inTree s := by cases h; rfl
  rw [execGen, execGen, hphase]
  refine front h fun hp => ?_
  obtain ⟨nodes, code, hnodes, -⟩ := h
  obtain rfl := hnodes (by simp [inTree_iff.1 hp])
  have hentries : codeEntries { s with code := code } = codeEntries s := rfl
  rw [generateCodes, generateCodes, hentries]
  split
  · exact next (.refl _)
  · exact fault _

theorem of_execEnc (h : AgreeOnValid s u) (y : Sym) : Lockstep (execEnc y s) (execEnc y u) := by
  have hphase : inReady u = inReady s := by cases h; rfl
  rw [execEnc, execEnc, hphase]
  refine front h fun hp => ?_
  rw [h.eq_of_ready (inReady_iff.1 hp)]
  exact fun t ht => ⟨t, ht, .refl t⟩

theorem of_execEncend (h : AgreeOnValid s u) : Lockstep (execEncend s) (execEncend u) := by
  have hphase : inReady u = inReady s := by cases h; rfl
  rw [execEncend, execEncend, hphase]
  refine front h fun hp => ?_
  rw [h.eq_of_ready (inReady_iff.1 hp)]
  exact next (.refl _)

/-- `DEC` reads NODE and never CODE. -/
theorem of_execDec (h : AgreeOnValid s u) (b : Bool) : Lockstep (execDec b s) (execDec b u) := by
  have hphase : hasTree u = hasTree s := by cases h; rfl
  rw [execDec, execDec, hphase]
  refine front h fun hp => ?_
  obtain ⟨nodes, code, hnodes, hcode⟩ := h
  obtain rfl := hnodes (hasTree_iff.1 hp)
  unfold decodeBit decodeSingle descend
  dsimp only
  split
  · split
    · exact next ⟨s.nodes, code, fun _ => rfl, hcode⟩
    · exact fault _
    · exact fault _
  · split
    · exact fault _
    · exact fault _
    · split
      · exact fault _
      · exact next ⟨s.nodes, code, fun _ => rfl, hcode⟩
      · exact next ⟨s.nodes, code, fun _ => rfl, hcode⟩

theorem of_execDecend (h : AgreeOnValid s u) : Lockstep (execDecend s) (execDecend u) := by
  have hphase : hasTree u = hasTree s := by cases h; rfl
  have hcur : u.cur = s.cur := by cases h; rfl
  have hroot : u.root = s.root := by cases h; rfl
  rw [execDecend, execDecend, hphase]
  refine front h fun _ => ?_
  rw [finishSymbols, finishSymbols, hcur, hroot]
  split
  · exact next (h.after_raise _)
  · obtain ⟨nodes, code, hnodes, hcode⟩ := h
    exact next ⟨nodes, code, hnodes, hcode⟩

/-- A command that reads one value and answers it. -/
theorem read (h : AgreeOnValid s u) {d d' : Data} (hd : d' = d) :
    Lockstep (unlessFault s (.next (respond .ok d s)))
      (unlessFault u (.next (respond .ok d' u))) := by
  rw [hd]
  exact of_unlessFault h (next (h.after_respond _ _))

end Lockstep

theorem AgreeOnValid.readableNode_eq {s u : State} (h : AgreeOnValid s u) (i : NodeIx) :
    readableNode u i = readableNode s i := by
  obtain ⟨nodes, code, hnodes, -⟩ := h
  unfold readableNode
  dsimp only
  split
  · next hvalid => rw [hnodes hvalid.1]
  · rfl

theorem AgreeOnValid.lengthData_eq {s u : State} (h : AgreeOnValid s u) (y : Sym) :
    (if inReady u then (codeLen (getCode u y)).setWidth 40 else 0 : Data) =
      if inReady s then (codeLen (getCode s y)).setWidth 40 else 0 := by
  by_cases hp : s.phase = .ready
  · rw [h.eq_of_ready hp]
  · have hs : ¬ inReady s = true := fun hc => hp (inReady_iff.1 hc)
    have hu : ¬ inReady u = true := by cases h; exact hs
    rw [if_neg hs, if_neg hu]

/-- Every command reads valid entries only. -/
theorem exec_lockstep {s u : State} (h : AgreeOnValid s u) (i : Instr) : Lockstep (exec i s) (exec i u) := by
  cases i with
  | clr => exact .of_execClr h
  | cnt y => exact .of_execCnt h y
  | bld => exact .of_execBld h
  | gen => exact .of_execGen h
  | enc y => exact .of_execEnc h y
  | encend => exact .of_execEncend h
  | dec b => exact .of_execDec h b
  | decend => exact .of_execDecend h
  | fail k => exact .of_unlessFault h (.next (h.after_raise _))
  | rds =>
    have hstatus : statusWord u = statusWord s := by cases h; rfl
    exact .next (by rw [hstatus]; exact h.after_respond _ _)
  | rdf y => exact .read h (by cases h; rfl)
  | rdl y => exact .read h (h.lengthData_eq y)
  | rdnw i => exact .read h (by rw [h.readableNode_eq])
  | rdnl i => exact .read h (by rw [h.readableNode_eq])

theorem runWord_lockstep {s u : State} (h : AgreeOnValid s u) (w : Word) :
    Lockstep (runWord w s) (runWord w u) := by
  unfold runWord
  split
  · exact exec_lockstep h _
  · exact .of_unlessFault h (.next (h.after_raise _))

/-- Settles O53: a word runs in lockstep on two states that differ in entries that are not valid only, because each
command reads a table only in a phase in which the table is valid. -/
theorem invalidEntriesAreUnobservable : Obligations.InvalidEntriesAreUnobservable := by
  intro w s t nodes code hnodes hcode h
  obtain ⟨u, hu, hagree⟩ := runWord_lockstep ⟨nodes, code, hnodes, hcode⟩ w t h
  refine ⟨u, hu, ?_⟩
  obtain ⟨nodes', code', hnodes', hcode'⟩ := hagree
  exact ⟨rfl, hnodes', hcode'⟩

end Sys2Proof.Machine

/-!
PROOFS. The channels and the order of effects (spec/20_memory.md): the word that a step runs (R68, R72), the commands
that only read (R66), the independence of the serializer and the deserializer (R74) and of instances (R75).
-/

namespace Sys2Proof.Machine

/-! ## The word a step runs (R68, R72, R94) -/

/-- The fields one by one: fault entry as the machine does it is fault entry as R244 lists it. -/
theorem raise_eq_afterError (e : ErrorKind) (s : State) : raise e s = afterError e s := by
  apply State.ext <;> simp [afterError]

theorem step_of_cmd_nil {s : State} (h : s.cmd = []) : step s = .next s := by
  simp only [step, takeCommand, h]

theorem step_of_cmd_cons {s : State} {w : Word} {rest : List Word} (h : s.cmd = w :: rest) :
    step s = runWord w { s with cmd := rest } := by
  simp only [step, takeCommand, h]

theorem runWord_of_ok {w : Word} {i : Instr} (h : decode w = .ok i) (s : State) : runWord w s = exec i s := by
  rw [runWord, h]

theorem runWord_illegal {w : Word} {r : Reject} {s : State} (h : decode w = .error r) (he : s.err = none) :
    runWord w s = .next (afterError .illegalCommand s) := by
  rw [runWord, h, illegalWord, unlessFault_none he, raise_eq_afterError]

theorem runWord_illegal_in_fault {w : Word} {r : Reject} {s : State} (h : decode w = .error r) (he : s.err ≠ none) :
    runWord w s = .next { s with rsp := s.rsp ++ [faultedWord] } := by
  rw [runWord, h, illegalWord, unlessFault_some he, respond_faulted]

/-- Settles O11: the step with the word taken is `runWord`, whose outcome for an illegal word is fault entry or the
refusal in fault. -/
theorem stepRunsHeadCommand : Obligations.StepRunsHeadCommand := by
  refine fun s => ⟨step_of_cmd_nil, fun w rest hcmd => ?_⟩
  rw [step_of_cmd_cons hcmd]
  exact ⟨fun i hi => runWord_of_ok hi _, fun r hr he => runWord_illegal hr he,
    fun r hr he => runWord_illegal_in_fault hr he⟩

/-! ## The word of a command decodes to it (R91, R93) -/

/-- A row of R91 looks at `opc` and `fn`, which every row fixes, and at `arg`. -/
theorem selects_word (r : OpRow) (f : Fields) : r.selects f.word =
    ((f.opc ++ f.fn) &&& r.mask.extractLsb' 9 7 == r.mtch.extractLsb' 9 7 &&
      f.arg &&& r.mask.extractLsb' 0 9 == r.mtch.extractLsb' 0 9) := by
  have hsplit (x : Word) : x.extractLsb' 9 7 ++ x.extractLsb' 0 9 = x := BitVec.extractLsb'_append_extractLsb'
  have hand : f.word &&& r.mask =
      ((f.opc ++ f.fn) &&& r.mask.extractLsb' 9 7) ++ (f.arg &&& r.mask.extractLsb' 0 9) := by
    rw [← BitVec.and_append, hsplit]
    rfl
  rw [Bool.eq_iff_iff, OpRow.selects, beq_iff_eq, Bool.and_eq_true, beq_iff_eq, beq_iff_eq, hand]
  constructor
  · intro h
    exact ⟨by rw [← h, extractLsb'_append_high], by rw [← h, extractLsb'_append_low]⟩
  · rintro ⟨hhigh, hlow⟩
    rw [hhigh, hlow, hsplit]

theorem symArg_eq (y : Sym) : symArg y = (0 : BitVec 1) ++ y := setWidth_eq_zero_append 1 y

/-- The bit above a symbol operand is clear (R94 item 5). -/
theorem symArg_and (y : Sym) : symArg y &&& 256#9 = 0#9 := by
  have hmask : 256#9 = 1#1 ++ 0#8 := rfl
  rw [symArg_eq, hmask, BitVec.and_append]
  simp

theorem symOperand_word (o : BitVec 4) (n : BitVec 3) (y : Sym) :
    symOperand (Fields.word ⟨o, n, symArg y⟩) = y := by
  rw [symOperand, Fields.word, BitVec.extractLsb'_append_eq_of_add_le (by decide), symArg_eq]
  exact extractLsb'_append_low 0 y

theorem ixOperand_word (f : Fields) : ixOperand f.word = f.arg := extractLsb'_append_low (f.opc ++ f.fn) f.arg

/-- A word without an operand or with a bit is looked up as it is; the word of a symbol or an index selects its row
by `opc` and `fn`, and the row reads its operand back. -/
theorem decode_encode (i : Instr) : decode (encode i) = .ok i := by
  cases i with
  | clr | bld | gen | encend | decend | rds => rfl
  | dec b | fail b => cases b <;> rfl
  | cnt y | enc y | rdf y | rdl y =>
    simp [decode, opcodeMap, encode, Fields.ofInstr, selects_word, symArg_and, symOperand_word]
  | rdnw k | rdnl k => simp [decode, opcodeMap, encode, Fields.ofInstr, selects_word, ixOperand_word]

/-- A 16-bit word that `withFetchWord` places is the one that the next step runs. -/
theorem step_withFetchWord (s : State) (w : Word) : step (s.withFetchWord 16 w.toNat) = runWord w s := by
  have hw : BitVec.ofNat 16 (w.toNat % 2 ^ 16) = w := by
    rw [Nat.mod_eq_of_lt w.isLt, BitVec.ofNat_toNat, BitVec.setWidth_eq]
  rw [State.withFetchWord, hw]
  exact step_of_cmd_cons (pushFront_cmd s w)

/-- Settles O12: the word placed is run, and it decodes to the command it was made from. -/
theorem placedWordRunsNext : Obligations.PlacedWordRunsNext := fun s i => by
  rw [step_withFetchWord, runWord_of_ok (decode_encode i)]

/-! ## The commands that only read (R66) -/

/-- What reads one value answers it, or is refused in fault; which of the two does not depend on RSP. -/
theorem answer_of_unlessFault (s : State) (d : Data) : ∃ q : RspWord, ∀ rsp : List RspWord,
    unlessFault { s with rsp := rsp } (.next (respond .ok d { s with rsp := rsp })) =
      .next { s with rsp := rsp ++ [q] } := by
  by_cases he : s.err = none
  · exact ⟨okWord d, fun rsp => unlessFault_none he⟩
  · exact ⟨faultedWord, fun rsp => unlessFault_some he⟩

/-- A read-back command appends one word, which does not depend on what RSP holds. -/
theorem exec_read {i : Instr} (hi : isRead i = true) (s : State) : ∃ q : RspWord, ∀ rsp : List RspWord,
    exec i { s with rsp := rsp } = .next { s with rsp := rsp ++ [q] } := by
  cases i with
  | rds => exact ⟨okWord (statusWord s), fun rsp => rfl⟩
  | rdf y => exact answer_of_unlessFault s ((getFreq s y).setWidth 40)
  | rdl y => exact answer_of_unlessFault s (if inReady s then (codeLen (getCode s y)).setWidth 40 else 0)
  | rdnw k => exact answer_of_unlessFault s (((readableNode s k).map Node.weight).getD 0)
  | rdnl k => exact answer_of_unlessFault s (linksData (readableNode s k))
  | clr | cnt _ | bld | gen | enc _ | encend | dec _ | decend | fail _ => exact nomatch hi

/-- Settles O50: the second run differs from the first in what RSP holds only. -/
theorem readsAreIdempotent : Obligations.ReadsAreIdempotent := by
  intro i s hi
  obtain ⟨q, hq⟩ := exec_read hi s
  exact ⟨q, hq s.rsp, hq (s.rsp ++ [q])⟩

/-! ## The commands that answer OK, from their conditions -/

/-- A command out of fault and in phase passes the front part (R243). -/
theorem front_pass {s : State} {ok : Bool} {k : Outcome} (he : s.err = none) (hok : ok = true) :
    unlessFault s (inPhase ok s k) = k := by
  rw [unlessFault_none he, hok, inPhase_true]

theorem decodeBit_single {s : State} {y : Sym} {w : Weight} (b : Bool) (hn : s.nleaf = 1)
    (hr : nodeAt s.nodes s.root = some (.leaf y w)) :
    decodeBit b s = .next (respond .ok (symbolData y) { emitSym (.sym y) s with decOpen := true }) := by
  simp only [decodeBit, if_pos hn, decodeSingle, hr]

theorem decodeBit_leaf {s : State} {b : Bool} {w v : Weight} {l r : NodeIx} {y : Sym} (hn : s.nleaf ≠ 1)
    (hc : nodeAt s.nodes s.cur = some (.internal w l r))
    (hv : nodeAt s.nodes (if b then r else l) = some (.leaf y v)) : decodeBit b s = .next (landOnLeaf y s) := by
  simp only [decodeBit, if_neg hn, descend, hc, hv]

theorem decodeBit_inside {s : State} {b : Bool} {w v : Weight} {l r l' r' : NodeIx} (hn : s.nleaf ≠ 1)
    (hc : nodeAt s.nodes s.cur = some (.internal w l r))
    (hv : nodeAt s.nodes (if b then r else l) = some (.internal v l' r')) :
    decodeBit b s = .next (landInside (if b then r else l) s) := by
  simp only [decodeBit, if_neg hn, descend, hc, hv]

/-- The converse of `exec_next` for a command that answers OK: its effect is the outcome wherever its conditions
hold. -/
theorem Did.exec_eq {s t : State} {i : Instr} (h : Did s i t) : exec i s = .next t := by
  cases h with
  | clr | rds => rfl
  | cnt he hp hm => exact (front_pass he (inCount_iff.2 hp)).trans (if_neg hm)
  | bld he hp hne => exact (front_pass he (inCount_iff.2 hp)).trans (if_neg (mt List.isEmpty_iff.1 hne))
  | gen he hp hes => exact (front_pass he (inTree_iff.2 hp)).trans (by rw [generateCodes, hes])
  | enc he hp hc => exact (front_pass he (inReady_iff.2 hp)).trans (if_neg hc)
  | encend he hp => exact front_pass he (inReady_iff.2 hp)
  | decSingle he hp hn hr => exact (front_pass he (hasTree_iff.2 hp)).trans (decodeBit_single _ hn hr)
  | decLeaf he hp hn hc hv => exact (front_pass he (hasTree_iff.2 hp)).trans (decodeBit_leaf hn hc hv)
  | decInside he hp hn hc hv => exact (front_pass he (hasTree_iff.2 hp)).trans (decodeBit_inside hn hc hv)
  | decend he hp hc => exact (front_pass he (hasTree_iff.2 hp)).trans (if_neg (not_not.2 hc))
  | rdf he | rdl he | rdnw he | rdnl he => exact unlessFault_none he

/-- A command that starts out of fault and leaves ERR = 0 did what it is for. -/
theorem did_of_err_none {s t : State} {i : Instr} (hs : s.err = none) (h : exec i s = .next t) (ht : t.err = none) :
    Did s i t := by
  rcases exec_next h with ⟨he, -⟩ | ⟨-, e, rfl⟩ | hdid
  · exact absurd hs he
  · exact absurd ht (by simp)
  · exact hdid

/-! ## The serializer and the deserializer (R74) -/

/-- What `ENC` and `ENCEND` write beside RSP (R73). -/
structure EncPart where
  /-- ENCOPEN -/
  isOpen : Bool
  /-- BITOUT -/
  beats : List BitWord

/-- What `DEC` and `DECEND` write beside RSP (R73). -/
structure DecPart where
  /-- CUR -/
  cursor : NodeIx
  /-- DECOPEN -/
  isOpen : Bool
  /-- SYMOUT -/
  beats : List SymWord

/-- The serializer's part of a state. -/
def State.encPart (s : State) : EncPart := ⟨s.encOpen, s.bitOut⟩

/-- The deserializer's part of a state. -/
def State.decPart (s : State) : DecPart := ⟨s.cur, s.decOpen, s.symOut⟩

/-- The state with these two parts and these responses; everything else is what both sides only read. With
its own parts and responses it is `s` itself. -/
def State.withParts (s : State) (a : EncPart) (b : DecPart) (rsp : List RspWord) : State :=
  { s with
    encOpen := a.isOpen
    bitOut := a.beats
    cur := b.cursor
    decOpen := b.isOpen
    symOut := b.beats
    rsp := rsp }

/-- A command of the serializer that answers OK writes its own part and one response, the same whatever the
deserializer's part and RSP hold. -/
theorem Did.encoder_local {s t : State} {i : Instr} (hi : (∃ y, i = .enc y) ∨ i = .encend) (h : Did s i t) :
    ∃ (a : EncPart) (p : RspWord), ∀ (b : DecPart) (rsp : List RspWord),
      exec i (s.withParts s.encPart b rsp) = .next (s.withParts a b (rsp ++ [p])) := by
  obtain ⟨y, rfl⟩ | rfl := hi
  · cases h with
    | enc he hp hc =>
      exact ⟨⟨true, s.bitOut ++ (getCode s y).bits.map fun x => (BitBeat.bit x).word⟩,
        okWord ((codeLen (getCode s y)).setWidth 40), fun b rsp => Did.exec_eq (.enc he hp hc)⟩
  · cases h with
    | encend he hp =>
      exact ⟨⟨false, s.bitOut ++ [closeWord]⟩, okWord 0, fun b rsp => Did.exec_eq (.encend he hp)⟩

/-- A command of the deserializer that answers OK writes its own part and one response, the same whatever the
serializer's part and RSP hold. -/
theorem Did.decoder_local {s t : State} {j : Instr} (hj : (∃ b, j = .dec b) ∨ j = .decend) (h : Did s j t) :
    ∃ (b : DecPart) (q : RspWord), ∀ (a : EncPart) (rsp : List RspWord),
      exec j (s.withParts a s.decPart rsp) = .next (s.withParts a b (rsp ++ [q])) := by
  obtain ⟨v, rfl⟩ | rfl := hj
  · cases h with
    | @decSingle _ y _ he hp hn hr =>
      exact ⟨⟨s.cur, true, s.symOut ++ [symWord y]⟩, okWord (symbolData y),
        fun a rsp => Did.exec_eq (.decSingle he hp hn hr)⟩
    | @decLeaf _ _ _ _ y _ he hp hn hc hv =>
      exact ⟨⟨s.root, true, s.symOut ++ [symWord y]⟩, okWord (symbolData y),
        fun a rsp => Did.exec_eq (.decLeaf he hp hn hc hv)⟩
    | @decInside _ _ l r _ _ _ he hp hn hc hv =>
      exact ⟨⟨if v then r else l, true, s.symOut⟩, okWord 0,
        fun a rsp => Did.exec_eq (.decInside he hp hn hc hv)⟩
  · cases h with
    | decend he hp hc =>
      exact ⟨⟨s.cur, false, s.symOut ++ [endWord]⟩, okWord 0, fun a rsp => Did.exec_eq (.decend he hp hc)⟩

/-- Settles O42: each side writes its own part of the state whatever the other's part holds, so that the two writes
and the two responses are the same in either order. -/
theorem sessionsAreIndependent : Obligations.SessionsAreIndependent := by
  intro i j s t u hi hj hs ht hte hu hue
  obtain ⟨a, p, henc⟩ := (did_of_err_none hs ht hte).encoder_local hi
  obtain ⟨b, q, hdec⟩ := (did_of_err_none hs hu hue).decoder_local hj
  obtain rfl : t = s.withParts a s.decPart (s.rsp ++ [p]) :=
    Host.Outcome.next.inj (ht.symm.trans (henc s.decPart s.rsp))
  obtain rfl : u = s.withParts s.encPart b (s.rsp ++ [q]) :=
    Host.Outcome.next.inj (hu.symm.trans (hdec s.encPart s.rsp))
  exact ⟨_, _, hdec a _, henc b _, rfl,
    ⟨p, q, rfl, rfl, List.append_assoc s.rsp [p] [q], List.append_assoc s.rsp [q] [p]⟩,
    rfl, rfl, rfl, rfl, rfl, rfl, rfl, rfl, rfl⟩

/-! ## Several instances (R75, R250) -/

/-- The state after an event of its own: the next state, or the same where there is none. -/
def afterEvent (e : Event) (s : State) : State :=
  match happen e s with
  | .next t => t
  | _ => s

theorem happenAt_of_some {k : Nat} {e : Event} {a : List State} {s : State} (h : a[k]? = some s) :
    happenAt k e a = a.set k (afterEvent e s) := by
  have hset : a = a.set k s := by
    obtain ⟨hk, rfl⟩ := List.getElem?_eq_some_iff.1 h
    exact (List.set_getElem_self hk).symm
  simp only [happenAt, afterEvent, h]
  cases happen e s with
  | next t => rfl
  | fault r => exact hset
  | refused r => exact hset

theorem happenAt_of_none {k : Nat} {e : Event} {a : List State} (h : a[k]? = none) : happenAt k e a = a := by
  rw [happenAt, h]

theorem getElem?_happenAt_other {k m : Nat} (h : m ≠ k) (e : Event) (a : List State) :
    (happenAt k e a)[m]? = a[m]? := by
  cases hk : a[k]? with
  | none => rw [happenAt_of_none hk]
  | some s => rw [happenAt_of_some hk, List.getElem?_set_ne h.symm]

theorem getElem?_happenAt_self (k : Nat) (e : Event) (a : List State) :
    (happenAt k e a)[k]? = a[k]?.map (afterEvent e) := by
  cases hk : a[k]? with
  | none => rw [happenAt_of_none hk, hk, Option.map_none]
  | some s => rw [happenAt_of_some hk, List.getElem?_set_self', hk]; rfl

/-- Settles O60: the event replaces the k-th state by what it makes of that state alone, and no other. -/
theorem instancesAreIsolated : Obligations.InstancesAreIsolated := by
  refine fun k m e a b => ⟨fun hm => getElem?_happenAt_other hm e a, fun hk => ?_⟩
  rw [getElem?_happenAt_self, getElem?_happenAt_self, hk]

end Sys2Proof.Machine

/-!
PROOFS. Encodings (spec/30_encoding.md): the opcode map and the words of the commands (R90 to R94), the words of the
output channels (R100 to R104), and the written form of commands (R96, R97).
-/

namespace Sys2Proof.Machine

/-! ## Rows and words of the opcode map (R90, R91) -/

/-- A word is its operation bits `{opc, fn}` and its operand `arg` (R90). -/
theorem operation_append_arg (w : Word) : w.extractLsb' 9 7 ++ w.extractLsb' 0 9 = w :=
  BitVec.extractLsb'_append_extractLsb'

theorem operation_ofWord (w : Word) : (Fields.ofWord w).opc ++ (Fields.ofWord w).fn = w.extractLsb' 9 7 :=
  BitVec.extractLsb'_append_extractLsb'_eq_extractLsb' rfl

theorem word_ofWord (w : Word) : (Fields.ofWord w).word = w := by
  rw [Fields.word, operation_ofWord]
  exact operation_append_arg w

/-- Every row fixes all of `opc` and `fn`, and asks for some bits of `arg` to be 0. -/
theorem row_masks : ∀ r ∈ opcodeMap,
    r.mask.extractLsb' 9 7 = BitVec.allOnes 7 ∧ r.mtch.extractLsb' 0 9 = 0 := by decide

/-- A row selects the words with its `opc` and `fn` that have 0 in the operand bits it masks. -/
theorem selects_iff {r : OpRow} (hr : r ∈ opcodeMap) (w : Word) : r.selects w = true ↔
    w.extractLsb' 9 7 = r.mtch.extractLsb' 9 7 ∧ w.extractLsb' 0 9 &&& r.mask.extractLsb' 0 9 = 0 := by
  obtain ⟨hmask, hmtch⟩ := row_masks r hr
  rw [← word_ofWord w, selects_word, operation_ofWord, hmask, hmtch, word_ofWord, BitVec.and_allOnes,
    Bool.and_eq_true, beq_iff_eq, beq_iff_eq]
  rfl

/-- The rows differ in `opc` and `fn`. -/
theorem row_mnemonic_of_operation : ∀ r₁ ∈ opcodeMap, ∀ r₂ ∈ opcodeMap,
    r₁.mtch.extractLsb' 9 7 = r₂.mtch.extractLsb' 9 7 → r₁.mnemonic = r₂.mnemonic := by decide

/-- Settles O4: a selected row has the `opc` and `fn` of the word, which no two rows share. -/
theorem opcodeRowsDisjoint : Obligations.OpcodeRowsDisjoint := by
  refine ⟨rfl, fun w r₁ h₁ r₂ h₂ hw₁ hw₂ => row_mnemonic_of_operation r₁ h₁ r₂ h₂ ?_⟩
  have hop₁ := ((selects_iff h₁ w).1 (beq_iff_eq.2 hw₁)).1
  have hop₂ := ((selects_iff h₂ w).1 (beq_iff_eq.2 hw₂)).1
  exact hop₁.symm.trans hop₂

/-! ## A legal word is the word of its command (R92, R93) -/

/-- The operand bits from `n` up and those below (R92). -/
theorem operand_split (w : Word) (m n : Nat) :
    w.extractLsb' n m ++ w.extractLsb' 0 n = w.extractLsb' 0 (m + n) :=
  BitVec.extractLsb'_append_extractLsb'_eq_extractLsb' (Nat.zero_add n).symm

/-- With `W[8]` clear, `arg` is the symbol operand widened. -/
theorem symArg_symOperand {w : Word} (h : w.extractLsb' 8 1 = 0) : symArg (symOperand w) = w.extractLsb' 0 9 := by
  rw [symArg_eq, ← h]
  exact operand_split w 1 8

/-- With `W[8:1]` clear, `arg` is the bit operand widened. -/
theorem bitArg_bitOperand {w : Word} (h : w.extractLsb' 1 8 = 0) : bitArg (bitOperand w) = w.extractLsb' 0 9 := by
  have hlow : BitVec.ofBool (bitOperand w) = w.extractLsb' 0 1 := by
    ext i hi
    obtain rfl : i = 0 := by omega
    simp [bitOperand]
  rw [bitArg, hlow, ← operand_split w 8 1, h]
  exact setWidth_eq_zero_append 8 _

/-- What a mask that has the `m` upper bits of an operand of `m + n` bits asks for. -/
theorem operand_and_mask_iff (w : Word) (m n : Nat) :
    w.extractLsb' 0 (m + n) &&& (BitVec.allOnes m ++ 0#n) = 0 ↔ w.extractLsb' n m = 0 := by
  rw [← operand_split, BitVec.and_append, BitVec.and_allOnes, BitVec.and_zero]
  constructor
  · intro h
    rw [← extractLsb'_append_high (w.extractLsb' n m) 0#n, h]
    simp
  · intro h
    simp [h]

/-- The match of a row carries the `opc` and `fn` of the commands it builds. -/
theorem operation_build {r : OpRow} (hr : r ∈ opcodeMap) (w : Word) :
    (Fields.ofInstr (r.build w)).opc ++ (Fields.ofInstr (r.build w)).fn = r.mtch.extractLsb' 9 7 := by
  simp only [opcodeMap, List.cons_append, List.nil_append, List.mem_cons, List.not_mem_nil, or_false] at hr
  rcases hr with rfl | rfl | rfl | rfl | rfl | rfl | rfl | rfl | rfl | rfl | rfl | rfl | rfl | rfl <;>
    simp [Fields.ofInstr]

/-- The operand bits that the mask of a row leaves free are those that its commands carry. -/
theorem arg_build {r : OpRow} (hr : r ∈ opcodeMap) {w : Word}
    (harg : w.extractLsb' 0 9 &&& r.mask.extractLsb' 0 9 = 0) :
    (Fields.ofInstr (r.build w)).arg = w.extractLsb' 0 9 := by
  have of_none (h : w.extractLsb' 0 9 &&& 0x1FF = 0) : 0 = w.extractLsb' 0 9 :=
    ((operand_and_mask_iff w 9 0).1 h).symm
  have of_symbol (h : w.extractLsb' 0 9 &&& 0x100 = 0) : symArg (symOperand w) = w.extractLsb' 0 9 :=
    symArg_symOperand ((operand_and_mask_iff w 1 8).1 h)
  have of_bit (h : w.extractLsb' 0 9 &&& 0x1FE = 0) : bitArg (bitOperand w) = w.extractLsb' 0 9 :=
    bitArg_bitOperand ((operand_and_mask_iff w 8 1).1 h)
  simp only [opcodeMap, List.cons_append, List.nil_append, List.mem_cons, List.not_mem_nil, or_false] at hr
  rcases hr with rfl | rfl | rfl | rfl | rfl | rfl | rfl | rfl | rfl | rfl | rfl | rfl | rfl | rfl
  · exact of_none harg
  · exact of_symbol harg
  · exact of_none harg
  · exact of_none harg
  · exact of_symbol harg
  · exact of_none harg
  · exact of_bit harg
  · exact of_none harg
  · exact of_bit harg
  · exact of_none harg
  · exact of_symbol harg
  · exact of_symbol harg
  · rfl
  · rfl

/-- A row that selects a word builds the command whose word it is. -/
theorem encode_build {r : OpRow} (hr : r ∈ opcodeMap) {w : Word} (h : r.selects w = true) :
    encode (r.build w) = w := by
  obtain ⟨hop, harg⟩ := (selects_iff hr w).1 h
  rw [encode, Fields.word, operation_build hr, arg_build hr harg, ← hop, operation_append_arg]

theorem selects_of_find {w : Word} {r : OpRow} (h : opcodeMap.find? (·.selects w) = some r) : r.selects w = true :=
  List.find?_some (p := fun r : OpRow => r.selects w) h

theorem decode_of_find {w : Word} {r : OpRow} (h : opcodeMap.find? (·.selects w) = some r) :
    decode w = .ok (r.build w) := by
  rw [decode, h]

theorem decode_of_find_none {w : Word} (h : opcodeMap.find? (·.selects w) = none) :
    ∃ r, decode w = .error r := by
  rw [decode, h]
  exact ⟨_, rfl⟩

theorem encode_of_decode {w : Word} {i : Instr} (h : decode w = .ok i) : encode i = w := by
  cases hf : opcodeMap.find? (·.selects w) with
  | none =>
    obtain ⟨r, hr⟩ := decode_of_find_none hf
    exact nomatch hr.symm.trans h
  | some r =>
    obtain rfl : r.build w = i := Except.ok.inj ((decode_of_find hf).symm.trans h)
    exact encode_build (List.mem_of_find?_eq_some hf) (selects_of_find hf)

/-- Settles O2: the word of a command selects its row, which reads the operand back; and the row that selects a word
fixes every bit that its command's operand does not carry. -/
theorem decodeEncodeAgree : Obligations.DecodeEncodeAgree :=
  ⟨decode_encode, fun _ _ => encode_of_decode⟩

/-- The legal words are the words of the commands (R93). -/
theorem decode_ok_iff {w : Word} {i : Instr} : decode w = .ok i ↔ encode i = w :=
  ⟨encode_of_decode, fun h => h ▸ decode_encode i⟩

theorem encode_injective : Function.Injective encode := fun i j h =>
  Except.ok.inj ((decode_encode i).symm.trans (h ▸ decode_encode j))

/-! ## The illegal words (R94) -/

/-- `opc` and `fn` of the commands with no operand (R94 item 4). -/
def plainOperations : List (BitVec 7) := [0x08, 0x18, 0x20, 0x30, 0x40, 0x50]

/-- `opc` and `fn` of the commands with a symbol operand (R94 item 5). -/
def symbolOperations : List (BitVec 7) := [0x10, 0x28, 0x51, 0x52]

/-- `opc` and `fn` of the commands with a one-bit operand (R94 item 6). -/
def bitOperations : List (BitVec 7) := [0x38, 0x48]

/-- `opc` and `fn` of the commands with a node index (R92). -/
def indexOperations : List (BitVec 7) := [0x53, 0x54]

theorem decode_error_iff (w : Word) :
    (∃ r, decode w = .error r) ↔ ¬ ∃ r ∈ opcodeMap, r.selects w = true := by
  cases hf : opcodeMap.find? (·.selects w) with
  | none => exact iff_of_true (decode_of_find_none hf) fun ⟨r, hr, hsel⟩ => List.find?_eq_none.1 hf r hr hsel
  | some r =>
    exact iff_of_false (fun ⟨_, he⟩ => nomatch (decode_of_find hf).symm.trans he)
      (not_not.2 ⟨r, List.mem_of_find?_eq_some hf, selects_of_find hf⟩)

/-- The words that select a row, by the kind of operand the row has (R92). -/
theorem exists_row_iff (w : Word) : (∃ r ∈ opcodeMap, r.selects w = true) ↔
    (w.extractLsb' 9 7 ∈ plainOperations ∧ w.extractLsb' 0 9 = 0) ∨
    (w.extractLsb' 9 7 ∈ symbolOperations ∧ w.extractLsb' 8 1 = 0) ∨
    (w.extractLsb' 9 7 ∈ bitOperations ∧ w.extractLsb' 1 8 = 0) ∨
    w.extractLsb' 9 7 ∈ indexOperations := by
  have hsel : (∃ r ∈ opcodeMap, r.selects w = true) ↔ ∃ r ∈ opcodeMap,
      w.extractLsb' 9 7 = r.mtch.extractLsb' 9 7 ∧ w.extractLsb' 0 9 &&& r.mask.extractLsb' 0 9 = 0 :=
    exists_congr fun r => and_congr_right fun hr => selects_iff hr w
  have hplain : w.extractLsb' 0 9 &&& 0x1FF = 0 ↔ w.extractLsb' 0 9 = 0 := operand_and_mask_iff w 9 0
  have hsymbol : w.extractLsb' 0 9 &&& 0x100 = 0 ↔ w.extractLsb' 8 1 = 0 := operand_and_mask_iff w 1 8
  have hbit : w.extractLsb' 0 9 &&& 0x1FE = 0 ↔ w.extractLsb' 1 8 = 0 := operand_and_mask_iff w 8 1
  rw [hsel, ← hplain, ← hsymbol, ← hbit]
  simp only [opcodeMap, BitVec.ofNat_eq_ofNat, List.cons_append, List.nil_append, List.mem_cons,
    List.not_mem_nil, or_false, exists_eq_or_imp, BitVec.reduceExtractLsb', BitVec.and_zero, and_true, ↓existsAndEq,
    true_and, plainOperations, symbolOperations, bitOperations, indexOperations]
  grind

theorem opc_eq_operation (w : Word) : w.extractLsb' 12 4 = (w.extractLsb' 9 7).extractLsb' 3 4 := by
  conv_lhs => rw [← operation_append_arg w]
  exact extractLsb'_append_above _ _ 3

theorem fn_eq_operation (w : Word) : w.extractLsb' 9 3 = (w.extractLsb' 9 7).extractLsb' 0 3 := by
  conv_lhs => rw [← operation_append_arg w]
  exact extractLsb'_append_above _ _ 0

theorem topBit_iff (w : Word) : w.getLsbD 8 = true ↔ w.extractLsb' 8 1 ≠ 0 := by
  rw [Ne, BitVec.eq_of_getElem_eq_iff]
  simp

/-- Items 1 to 3 of R94 rule out exactly the `opc` and `fn` that no row has. -/
theorem operation_unassigned_iff (o : BitVec 7) :
    ((o.extractLsb' 3 4 = 0x0 ∨ 0xB ≤ o.extractLsb' 3 4) ∨
      (0x1 ≤ o.extractLsb' 3 4 ∧ o.extractLsb' 3 4 ≤ 0x9 ∧ o.extractLsb' 0 3 ≠ 0) ∨
      (o.extractLsb' 3 4 = 0xA ∧ (o.extractLsb' 0 3 = 5 ∨ o.extractLsb' 0 3 = 6 ∨ o.extractLsb' 0 3 = 7))) ↔
    o ∉ plainOperations ∧ o ∉ symbolOperations ∧ o ∉ bitOperations ∧ o ∉ indexOperations := by
  revert o
  decide

theorem operations_disjoint (o : BitVec 7) :
    (o ∈ plainOperations → o ∉ symbolOperations ∧ o ∉ bitOperations ∧ o ∉ indexOperations) ∧
    (o ∈ symbolOperations → o ∉ bitOperations ∧ o ∉ indexOperations) ∧
    (o ∈ bitOperations → o ∉ indexOperations) := by
  revert o
  decide

/-- A word is illegal when no row has its operation, or when it sets an operand bit that its row asks to be 0. -/
theorem decode_error_iff_operation (w : Word) : (∃ r, decode w = .error r) ↔
    (w.extractLsb' 9 7 ∉ plainOperations ∧ w.extractLsb' 9 7 ∉ symbolOperations ∧
      w.extractLsb' 9 7 ∉ bitOperations ∧ w.extractLsb' 9 7 ∉ indexOperations) ∨
    (w.extractLsb' 9 7 ∈ plainOperations ∧ w.extractLsb' 0 9 ≠ 0) ∨
    (w.extractLsb' 9 7 ∈ symbolOperations ∧ w.extractLsb' 8 1 ≠ 0) ∨
    (w.extractLsb' 9 7 ∈ bitOperations ∧ w.extractLsb' 1 8 ≠ 0) := by
  obtain ⟨hplain, hsymbol, hbit⟩ := operations_disjoint (w.extractLsb' 9 7)
  rw [decode_error_iff, exists_row_iff]
  by_cases hp : w.extractLsb' 9 7 ∈ plainOperations
  · obtain ⟨hs, hb, hi⟩ := hplain hp
    simp [hp, hs, hb, hi]
  · by_cases hs : w.extractLsb' 9 7 ∈ symbolOperations
    · obtain ⟨hb, hi⟩ := hsymbol hs
      simp [hp, hs, hb, hi]
    · by_cases hb : w.extractLsb' 9 7 ∈ bitOperations
      · simp [hp, hs, hb, hbit hb]
      · simp [hp, hs, hb]

/-- Settles O3: items 1 to 3 of R94 are the words whose `opc` and `fn` no row has, and items 4 to 6 those that set an
operand bit their row asks to be 0. Two words that decode to one command are both its encoding. -/
theorem illegalWords : Obligations.IllegalWords := by
  intro w
  refine ⟨?_, fun s r hr => ⟨runWord_illegal hr, runWord_illegal_in_fault hr⟩, fun v i hw hv =>
    (decode_ok_iff.1 hv).symm.trans (decode_ok_iff.1 hw)⟩
  rw [opc_eq_operation, fn_eq_operation, topBit_iff, decode_error_iff_operation, ← operation_unassigned_iff]
  exact or_assoc.trans (or_congr_right or_assoc)

/-! ## The number of legal words (R93) -/

/-- A command as a choice: six have no operand, two a bit, four a symbol and two a node index (R92). -/
abbrev Choice : Type := Fin 6 ⊕ Fin 2 × Bool ⊕ Fin 4 × Sym ⊕ Fin 2 × NodeIx

/-- The command that is chosen. -/
def Choice.instr : Choice → Instr
  | .inl k => ![.clr, .bld, .gen, .encend, .decend, .rds] k
  | .inr (.inl (k, b)) => ![.dec b, .fail b] k
  | .inr (.inr (.inl (k, y))) => ![.cnt y, .enc y, .rdf y, .rdl y] k
  | .inr (.inr (.inr (k, i))) => ![.rdnw i, .rdnl i] k

/-- The choice that gives a command. -/
def Choice.ofInstr : Instr → Choice
  | .clr => .inl 0
  | .bld => .inl 1
  | .gen => .inl 2
  | .encend => .inl 3
  | .decend => .inl 4
  | .rds => .inl 5
  | .dec b => .inr (.inl (0, b))
  | .fail k => .inr (.inl (1, k))
  | .cnt y => .inr (.inr (.inl (0, y)))
  | .enc y => .inr (.inr (.inl (1, y)))
  | .rdf y => .inr (.inr (.inl (2, y)))
  | .rdl y => .inr (.inr (.inl (3, y)))
  | .rdnw i => .inr (.inr (.inr (0, i)))
  | .rdnl i => .inr (.inr (.inr (1, i)))

theorem Choice.instr_ofInstr (i : Instr) : (Choice.ofInstr i).instr = i := by cases i <;> rfl

theorem Choice.ofInstr_instr (c : Choice) : Choice.ofInstr c.instr = c := by
  rcases c with k | ⟨k, b⟩ | ⟨k, y⟩ | ⟨k, i⟩ <;> fin_cases k <;> rfl

theorem Choice.card : Fintype.card Choice = 2058 := by
  have hword (n : Nat) : Fintype.card (BitVec n) = 2 ^ n := by
    rw [← FinEnum.card_eq_fintypeCard, FinEnum.card_bitVec]
  simp [hword]

theorem isSome_decode_iff (w : Word) : (decode w).toOption.isSome = true ↔ ∃ i, encode i = w := by
  simp only [← decode_ok_iff]
  cases decode w <;> simp [Except.toOption]

/-- Settles O5: the legal words are the words of the commands, one each. -/
theorem legalWordCount : Obligations.LegalWordCount := by
  have himage : (Finset.univ.filter fun w : Word => (decode w).toOption.isSome = true) =
      Finset.univ.image fun c : Choice => encode c.instr := by
    ext w
    simp only [Finset.mem_filter, Finset.mem_univ, true_and, Finset.mem_image, isSome_decode_iff]
    exact ⟨fun ⟨i, h⟩ => ⟨.ofInstr i, by rw [Choice.instr_ofInstr, h]⟩, fun ⟨c, h⟩ => ⟨c.instr, h⟩⟩
  have hinj : Function.Injective fun c : Choice => encode c.instr :=
    encode_injective.comp (Function.LeftInverse.injective Choice.ofInstr_instr)
  rw [Obligations.LegalWordCount, himage, Finset.card_image_of_injective _ hinj, Finset.card_univ, Choice.card]

/-- Settles O1: the decoder looks up each word, and for a word that no row selects names the item of R94. -/
theorem specWordsDecode : Obligations.SpecWordsDecode :=
  ⟨rfl, rfl, rfl, rfl, rfl, rfl, rfl, rfl, rfl, rfl, rfl, rfl, rfl, rfl, rfl, rfl, rfl, rfl, rfl, rfl⟩

/-! ## The words of the output channels (R100 to R104) -/

theorem errorKind_code_le (e : ErrorKind) : e.code ≤ 8 := by cases e <;> decide

theorem status_code_not_reserved (st : Status) : ¬ (9 ≤ st.code ∧ st.code ≤ 14) := by
  cases st with
  | ok | faulted => decide
  | error e => cases e <;> decide

/-- Settles O6: no error kind has a code above 8, and ERR holds an error kind or 0. -/
theorem statusCodes : Obligations.StatusCodes := by
  refine ⟨rfl, rfl, rfl, rfl, rfl, rfl, rfl, rfl, rfl, rfl, status_code_not_reserved, fun s => ?_⟩
  cases s.err with
  | none => decide
  | some e => exact errorKind_code_le e

theorem symWord_eq_append (y : Sym) : symWord y = (0 : BitVec 2) ++ y := setWidth_eq_zero_append 2 y

theorem toNat_symWord (y : Sym) : (symWord y).toNat = y.toNat := by
  rw [symWord, BitVec.toNat_setWidth_of_le (by decide)]

theorem symWord_lt (y : Sym) : symWord y < 0x100 := by
  rw [BitVec.lt_def, toNat_symWord]
  exact y.isLt

/-- Settles O7: a symbol's word is two zero bits before the symbol, so it is below 0x100 and is no marker. -/
theorem beatWords : Obligations.BeatWords := by
  refine ⟨rfl, rfl, rfl, rfl, symWord_eq_append, rfl, rfl, fun x => ?_⟩
  cases x with
  | finish | abort => decide
  | sym y =>
    rw [sym_word]
    refine ⟨fun h => absurd h.1 (BitVec.not_le.2 (symWord_lt y)), fun h => ?_⟩
    rw [symWord_eq_append, BitVec.getLsbD_append] at h
    simp at h

theorem status_ofCode_code (st : Status) : Status.ofCode st.code = some st := by
  cases st with
  | ok | faulted => rfl
  | error e => cases e <;> rfl

theorem response_ofWord_word (q : Response) : Response.ofWord q.word = some q := by
  rw [Response.ofWord, Response.word, extractLsb'_append_high, extractLsb'_append_low, status_ofCode_code,
    Option.map_some]

theorem bitBeat_ofWord_word (x : BitBeat) : BitBeat.ofWord x.word = x := by
  cases x with
  | bit b => cases b <;> rfl
  | close | abort => rfl

theorem bitBeat_word_ofWord (b : BitWord) : (BitBeat.ofWord b).word = b := by
  revert b
  decide

theorem symBeat_ofWord_word (x : SymBeat) : SymBeat.ofWord x.word = some x := by
  cases x with
  | finish | abort => rfl
  | sym y => rw [sym_word, SymBeat.ofWord, if_pos (symWord_lt y), symWord_eq_append, extractLsb'_append_low]

/-- A SYMOUT value below 0x100 is the word of the symbol in its low bits. -/
theorem symWord_low {b : SymWord} (h : b < 0x100) : symWord (b.extractLsb' 0 8) = b := by
  have hlt : b.toNat < 2 ^ 8 := BitVec.lt_def.1 h
  apply BitVec.eq_of_toNat_eq
  rw [toNat_symWord, BitVec.extractLsb'_toNat, Nat.shiftRight_zero, Nat.mod_eq_of_lt hlt]

theorem symBeat_word_of_ofWord {b : SymWord} {x : SymBeat} (h : SymBeat.ofWord b = some x) : x.word = b := by
  unfold SymBeat.ofWord at h
  split_ifs at h with hsym hend habort
  · obtain rfl := Option.some.inj h
    exact symWord_low hsym
  · obtain rfl := Option.some.inj h
    exact hend.symm
  · obtain rfl := Option.some.inj h
    exact habort.symm

/-- Settles O8: the fields of a concatenation are read where they stand, and of each channel no two words coincide. -/
theorem channelWordsReadBack : Obligations.ChannelWordsReadBack :=
  ⟨fun q => ⟨extractLsb'_append_high _ _, extractLsb'_append_low _ _, response_ofWord_word q⟩,
    bitBeat_ofWord_word, bitBeat_word_ofWord, symBeat_ofWord_word, fun _ _ => symBeat_word_of_ofWord⟩

/-! ## The words that appear on RSP and SYMOUT (R100, R101, R104) -/

/-- A word that RSP may hold (R100, R101). -/
def RspLegal (q : RspWord) : Prop := (∃ d, q = okWord d) ∨ (∃ e, q = errorWord e) ∨ q = faultedWord

/-- A word that SYMOUT may hold (R104). -/
def SymLegal (b : SymWord) : Prop := (∃ y, b = symWord y) ∨ b = endWord ∨ b = abortSymWord

namespace OutputsLegal

variable {s : State}

/-- One response, after beats that SYMOUT may hold. -/
theorem after_response {t : State} (h : OutputsLegal s) {q : RspWord} (hq : RspLegal q) {ys : List SymWord}
    (hys : ∀ b ∈ ys, SymLegal b)
    (hrsp : t.rsp = s.rsp ++ [q]) (hsym : t.symOut = s.symOut ++ ys) : OutputsLegal t where
  rsp p hp := by
    rw [hrsp, List.mem_append, List.mem_singleton] at hp
    rcases hp with hp | rfl
    · exact h.rsp p hp
    · exact hq
  sym b hb := by
    rw [hsym, List.mem_append] at hb
    rcases hb with hb | hb
    · exact h.sym b hb
    · exact hys b hb

/-- One response and no beat on SYMOUT. -/
theorem after_silent {t : State} (h : OutputsLegal s) {q : RspWord} (hq : RspLegal q)
    (hrsp : t.rsp = s.rsp ++ [q]) (hsym : t.symOut = s.symOut) : OutputsLegal t :=
  h.after_response hq (ys := []) nofun hrsp (by rw [hsym, List.append_nil])

/-- The abort of a session on SYMOUT is one beat or none (R244). -/
theorem abort_legal (o : Bool) : ∀ b ∈ (if o then [SymBeat.abort.word] else []), SymLegal b := by
  intro b hb
  cases o with
  | false => exact nomatch hb
  | true => exact .inr (.inr (List.mem_singleton.1 hb))

theorem after_raise (h : OutputsLegal s) (e : ErrorKind) : OutputsLegal (raise e s) :=
  h.after_response (.inr (.inl ⟨e, rfl⟩)) (abort_legal s.decOpen) (raise_rsp s e) (raise_symOut s e)

theorem after_did (h : OutputsLegal s) {i : Instr} {t : State} (hdid : Did s i t) : OutputsLegal t := by
  cases hdid with
  | clr => exact h.after_response (.inl ⟨0, rfl⟩) (abort_legal s.decOpen) (by simp) (by simp)
  | decSingle _ _ _ _ | decLeaf _ _ _ _ _ =>
    exact h.after_response (.inl ⟨_, rfl⟩) (fun b hb => .inl ⟨_, List.mem_singleton.1 hb⟩) rfl rfl
  | decend _ _ _ =>
    exact h.after_response (.inl ⟨_, rfl⟩) (fun b hb => .inr (.inl (List.mem_singleton.1 hb))) rfl rfl
  | cnt _ _ _ | bld _ _ _ | gen _ _ _ | enc _ _ _ | encend _ _ | decInside _ _ _ _ _ | rds | rdf _ | rdl _
  | rdnw _ | rdnl _ => exact h.after_silent (.inl ⟨_, rfl⟩) rfl rfl

theorem after_hostAct (h : OutputsLegal s) (a : HostAction) : OutputsLegal (hostAct a s) := by
  cases a with
  | assertReset => exact ⟨nofun, nofun⟩
  | push _ | takeBit => exact ⟨h.rsp, h.sym⟩
  | takeRsp => exact ⟨fun q hq => h.rsp q (List.mem_of_mem_tail hq), h.sym⟩
  | takeSym => exact ⟨h.rsp, fun b hb => h.sym b (List.mem_of_mem_tail hb)⟩

end OutputsLegal

/-- Settles O57: every command ends in one response of a kind R101 lists, with at most one SYMOUT beat before it, and
the host only takes words away. -/
theorem eventsKeepOutputsLegal : Obligations.EventsKeepOutputsLegal :=
  happen_keeps (fun _ _ h => ⟨h.rsp, h.sym⟩) (fun a _ h => h.after_hostAct a)
    (fun _ h => h.after_silent (.inr (.inr rfl)) rfl rfl) (fun e _ h => h.after_raise e)
    fun _ _ _ h hdid => h.after_did hdid

end Sys2Proof.Machine

namespace Sys2Proof.Asm

/-! ## A number in decimal (R96) -/

theorem decDigit_of_isDigit {c : Char} (h : c.isDigit = true) : decDigit c = some (c.toNat - 48) :=
  if_pos (Char.isDigit_iff_toNat.1 h)

theorem readDigits_of_digits {cs : List Char} (h : ∀ c ∈ cs, c.isDigit = true) (acc : Nat) :
    readDigits 10 decDigit acc cs = (Nat.ofDigitChars 10 cs acc, []) := by
  induction cs generalizing acc with
  | nil => rfl
  | cons c rest ih =>
    have hc := decDigit_of_isDigit (h c List.mem_cons_self)
    rw [readDigits, hc, Nat.ofDigitChars_cons, Nat.mul_comm 10 acc]
    exact ih (fun d hd => h d (List.mem_cons_of_mem c hd)) _

/-- Of the three forms of an operand, digits are a decimal number: they hold no quote and no `x`. -/
theorem readOperand_of_digits {cs : List Char} (h : ∀ c ∈ cs, c.isDigit = true) (symbol : Bool) :
    readOperand symbol cs = readNumber 10 decDigit cs := by
  unfold readOperand
  split
  · exact absurd (h '\'' List.mem_cons_self) (by decide)
  · exact absurd (h 'x' (List.mem_cons_of_mem _ List.mem_cons_self)) (by decide)
  · rfl

theorem readNumber_of_digits {cs : List Char} (hne : cs ≠ []) (h : ∀ c ∈ cs, c.isDigit = true) :
    readNumber 10 decDigit cs = some (Nat.ofDigitChars 10 cs 0, []) := by
  cases cs with
  | nil => exact absurd rfl hne
  | cons c rest =>
    have hc := decDigit_of_isDigit (h c List.mem_cons_self)
    have hrest := readDigits_of_digits fun d hd => h d (List.mem_cons_of_mem c hd)
    rw [readNumber, hc, Option.map_some, hrest, Nat.ofDigitChars_cons, Nat.mul_zero, Nat.zero_add]
    rfl

theorem isDigit_of_mem_showNat {n : Nat} : ∀ c ∈ showNat n, c.isDigit = true := fun _ =>
  Nat.isDigit_of_mem_toDigits (by decide) (by decide)

theorem readOperand_showNat (symbol : Bool) (n : Nat) : readOperand symbol (showNat n) = some (n, []) := by
  have hvalue : Nat.ofDigitChars 10 (showNat n) 0 = n := Nat.ofDigitChars_ten_toDigits
  have hne : showNat n ≠ [] := Nat.toDigits_ne_nil
  rw [readOperand_of_digits isDigit_of_mem_showNat, readNumber_of_digits hne isDigit_of_mem_showNat, hvalue]

theorem skipSpaces_showNat (n : Nat) : skipSpaces (showNat n) = showNat n := by
  unfold skipSpaces
  split
  · rename_i rest h
    have hspace : ' ' ∈ showNat n := h ▸ List.mem_cons_self
    exact absurd (isDigit_of_mem_showNat ' ' hspace) (by decide)
  · rfl

theorem oneOperand_showNat {symbol : Bool} {bound n : Nat} (build : Nat → Instr) (h : n < bound) :
    oneOperand symbol bound build (' ' :: showNat n) = some [build n] := by
  have hread : readOperand symbol (skipSpaces (showNat n)) = some (n, []) := by
    rw [skipSpaces_showNat, readOperand_showNat]
  simp only [oneOperand, hread]
  exact if_pos ⟨h, rfl⟩

/-- An operand of `w` bits in decimal is below the bound `2 ^ w` that its command has. -/
theorem oneOperand_bitVec {w : Nat} (symbol : Bool) (build : BitVec w → Instr) (x : BitVec w) :
    oneOperand symbol (2 ^ w) (fun v => build (BitVec.ofNat w v)) (' ' :: showNat x.toNat) = some [build x] := by
  rw [oneOperand_showNat _ x.isLt, BitVec.ofNat_toNat, BitVec.setWidth_eq]

/-- Settles O9: the capitals are read off by evaluation, and the operand in decimal is the number it was written
from. -/
theorem writtenFormReadsBack : Obligations.WrittenFormReadsBack := by
  intro i
  cases i with
  | clr | bld | gen | encend | decend | rds => rfl
  | dec b | fail b => cases b <;> rfl
  | cnt y => exact oneOperand_bitVec true .cnt y
  | enc y => exact oneOperand_bitVec true .enc y
  | rdf y => exact oneOperand_bitVec true .rdf y
  | rdl y => exact oneOperand_bitVec true .rdl y
  | rdnw k => exact oneOperand_bitVec false .rdnw k
  | rdnl k => exact oneOperand_bitVec false .rdnl k

/-! ## A string of characters in double quotes (R97) -/

theorem readString_quoted {text : List Char} (h : ∀ c ∈ text, c ≠ '"') :
    readString (text ++ ['"']) = some (text, []) := by
  induction text with
  | nil => rfl
  | cons c rest ih =>
    have hc := h c List.mem_cons_self
    rw [List.cons_append, readString, ih fun d hd => h d (List.mem_cons_of_mem c hd), Option.map_some]
    exact hc

theorem stringOperand_quoted {text : List Char} (h : ∀ c ∈ text, c ≠ '"') (build : Char → Option Instr) :
    stringOperand build (' ' :: '"' :: (text ++ ['"'])) = text.mapM build := by
  have hskip : skipSpaces ('"' :: (text ++ ['"'])) = '"' :: (text ++ ['"']) := rfl
  simp only [stringOperand, hskip, readString_quoted h]
  rfl

theorem mapM_charSym (build : Sym → Instr) {text : List Char} (h : ∀ c ∈ text, c.toNat < 256) :
    text.mapM (charSym build) = some (text.map fun c => build (BitVec.ofNat 8 c.toNat)) := by
  induction text with
  | nil => rfl
  | cons c rest ih =>
    have hc : charSym build c = some (build (BitVec.ofNat 8 c.toNat)) := if_pos (h c List.mem_cons_self)
    rw [List.mapM_cons, hc, ih fun d hd => h d (List.mem_cons_of_mem c hd)]
    rfl

theorem mapM_charBit (bits : List Bool) : (bits.flatMap showBit).mapM charBit = some (bits.map .dec) := by
  induction bits with
  | nil => rfl
  | cons b rest ih =>
    have hb : (showBit b).mapM charBit = some [.dec b] := by cases b <;> rfl
    rw [List.flatMap_cons, List.mapM_append, hb, ih]
    rfl

theorem quote_not_mem_showBit (b : Bool) : '"' ∉ showBit b := by cases b <;> decide

/-- Settles O10: the string ends at the first double quote, which is the last character written, and every character
before it is read as one command. -/
theorem pseudoCommandsExpand : Obligations.PseudoCommandsExpand := by
  refine ⟨fun text h => ?_, fun bits => ?_⟩
  · have hquote := stringOperand_quoted fun c hc => (h c hc).1
    have hcodes (build : Sym → Instr) := mapM_charSym build fun c hc => (h c hc).2
    exact ⟨(hquote _).trans (hcodes .cnt), (hquote _).trans (hcodes .enc)⟩
  · have hquote : ∀ c ∈ bits.flatMap showBit, c ≠ '"' := by
      rintro c hc rfl
      obtain ⟨b, -, hb⟩ := List.mem_flatMap.1 hc
      exact quote_not_mem_showBit b hb
    exact (stringOperand_quoted hquote _).trans (mapM_charBit bits)

end Sys2Proof.Asm

/-!
PROOFS. Counting (spec/40_count.md): what `CNT` answers for counters of any width (R120, R122), and that the counters
hold the numbers of the `CNT` commands that returned OK (R121).
-/

namespace Sys2Proof.Machine

/-! ## The range of a counter (R6, R122) -/

theorem toNat_freqMax {w : Nat} (hw : w ≤ 32) : (Config.freqMax w).toNat = 2 ^ w - 1 := by
  have hpow : 2 ^ w ≤ 2 ^ 32 := Nat.pow_le_pow_right (by decide) hw
  have hpos := Nat.two_pow_pos w
  rw [Config.freqMax, BitVec.toNat_ofNat, Nat.mod_eq_of_lt (by omega)]

/-- A counter within its range is full exactly when its increment would leave the range. -/
theorem eq_freqMax_iff {w : Nat} (hw : w ≤ 32) {c : Count} (hc : c.toNat < 2 ^ w) :
    c = Config.freqMax w ↔ 2 ^ w ≤ c.toNat + 1 := by
  rw [← BitVec.toNat_inj, toNat_freqMax hw]
  omega

/-- An increment that stays below 2^32 does not wrap (R122). -/
theorem toNat_increment {c : Count} (h : c.toNat + 1 < 2 ^ 32) : (c + 1).toNat = c.toNat + 1 := by
  rw [BitVec.toNat_add]
  exact Nat.mod_eq_of_lt h

theorem increment_lt_of_ne_max {c : Count} (h : c ≠ Config.freqMax Config.freqW) : c.toNat + 1 < 2 ^ 32 :=
  not_le.1 (mt (eq_freqMax_iff le_rfl c.isLt).2 h)

/-! ## `CNT` (R120, R122) -/

variable {w : Nat} {y : Sym} {s t : State}

theorem countCommand_of_not_count (he : s.err = none) (hp : s.phase ≠ .count) :
    countCommand w y s = .next (afterError .badPhase s) := by
  have hout : inCount s = false := Bool.eq_false_iff.2 (mt inCount_iff.1 hp)
  rw [countCommand, unlessFault_none he, hout, inPhase_false, raise_eq_afterError]

theorem countCommand_of_full (he : s.err = none) (hp : s.phase = .count)
    (hfull : countOf s.freq y = Config.freqMax w) :
    countCommand w y s = .next (afterError .countOverflow s) := by
  rw [← raise_eq_afterError]
  exact (front_pass he (inCount_iff.2 hp)).trans (if_pos hfull)

theorem countCommand_of_not_full (he : s.err = none) (hp : s.phase = .count)
    (hfull : countOf s.freq y ≠ Config.freqMax w) :
    countCommand w y s = .next { s with
      freq := s.freq.set y.toNat (countOf s.freq y + 1) y.isLt
      rsp := s.rsp ++ [okWord ((0 : BitVec 8) ++ (countOf s.freq y + 1))] } := by
  rw [← count_data]
  exact (front_pass he (inCount_iff.2 hp)).trans (if_neg hfull)

theorem encode_cnt (y : Sym) : encode (.cnt y) = 0x2000 + y.setWidth 16 := by
  have hy : y.toNat < 2 ^ 9 := by have := y.isLt; omega
  have happend : encode (.cnt y) = (0x2 : BitVec 4) ++ (0 : BitVec 3) ++ symArg y := rfl
  apply BitVec.eq_of_toNat_eq
  rw [happend, BitVec.toNat_append, symArg, BitVec.toNat_setWidth_of_le (by decide),
    ← Nat.shiftLeft_add_eq_or_of_lt hy, BitVec.toNat_add, BitVec.toNat_setWidth_of_le (by decide),
    Nat.mod_eq_of_lt (show _ < 2 ^ 16 by simp; omega)]
  rfl

/-- Settles O19: the two checks of `CNT` and its effect, at the width that `exec` runs. -/
theorem cntEffect : Obligations.CntEffect :=
  ⟨fun y => decode_ok_iff.2 (encode_cnt y), fun _ _ he =>
    ⟨countCommand_of_not_count (w := Config.freqW) he, countCommand_of_full (w := Config.freqW) he,
      countCommand_of_not_full (w := Config.freqW) he⟩⟩

theorem toNat_countOf_setFreq_increment (h : (countOf s.freq y).toNat + 1 < 2 ^ 32) :
    (countOf (setFreq y (countOf s.freq y + 1) s).freq y).toNat = (countOf s.freq y).toNat + 1 :=
  (congrArg BitVec.toNat (getFreq_setFreq_same s y _)).trans (toNat_increment h)

theorem countOf_setFreq_other {z : Sym} (v : Count) (h : z ≠ y) :
    countOf (setFreq y v s).freq z = countOf s.freq z := getFreq_setFreq_other s v h

/-- The response of `CNT` as a number: the new value, which 40 bits hold. -/
theorem increment_data {c : Count} (h : c.toNat + 1 < 2 ^ 32) :
    (0 : BitVec 8) ++ (c + 1) = BitVec.ofNat 40 (c.toNat + 1) := by
  rw [← count_data, ← BitVec.ofNat_toNat, toNat_increment h]

/-- Settles O20: a counter within its range is at the greatest value of its width exactly when the increment would
leave the range, and below it 32 bits hold the increment. -/
theorem countersNeverWrap : Obligations.CountersNeverWrap := by
  intro w _ hw y s he hp hrange
  have hfull := eq_freqMax_iff hw (hrange y)
  refine ⟨fun hlt => ?_, fun hge => countCommand_of_full he hp (hfull.2 hge)⟩
  have hlt32 : (countOf s.freq y).toNat + 1 < 2 ^ 32 := hlt.trans_le (Nat.pow_le_pow_right (by decide) hw)
  have hcounted := toNat_countOf_setFreq_increment hlt32
  refine ⟨_, countCommand_of_not_full he hp (mt hfull.1 (not_le.2 hlt)), ?_, hcounted,
    fun z => countOf_setFreq_other _, fun z => ?_⟩
  · rw [increment_data hlt32]
  · by_cases hz : z = y
    · rw [hz]
      exact hcounted.trans_lt hlt
    · exact (congrArg BitVec.toNat (countOf_setFreq_other _ hz)).trans_lt (hrange z)

/-! ## The counters and the responses (R121) -/

/-- The status code of the last response, which is FAULTED where there is none. -/
def lastStatus (t : State) : BitVec 4 := (t.rsp.getLast?.getD faultedWord).extractLsb' 40 4

/-- 1 for a command that is a `CNT y` and returned OK, ending in the state `t`; 0 for any other. -/
def okCount (y : Sym) (i : Instr) (t : State) : Nat := if i = .cnt y ∧ lastStatus t = 0 then 1 else 0

theorem okCounts_cons {i : Instr} (h : exec i s = .next t) (rest : List Instr) :
    okCounts y (i :: rest) s = okCount y i t + okCounts y rest t := by
  rw [okCounts, h]
  rfl

theorem execAll_cons {i : Instr} {rest : List Instr} {u : State} (h : execAll (i :: rest) s = .next u) :
    ∃ t, exec i s = .next t ∧ execAll rest t = .next u := by
  rw [execAll] at h
  split at h
  · exact ⟨_, ‹_›, h⟩
  · exact nomatch h
  · exact nomatch h

theorem lastStatus_of_rsp {rsp : List RspWord} {st : Status} {d : Data}
    (h : t.rsp = rsp ++ [Response.word ⟨st, d⟩]) : lastStatus t = st.code := by
  rw [lastStatus, h, List.getLast?_concat, Option.getD_some, Response.word, extractLsb'_append_high]

theorem okCount_of_ok (h : lastStatus t = 0) : okCount y (.cnt y) t = 1 := if_pos ⟨rfl, h⟩

theorem okCount_of_ne {i : Instr} (h : i ≠ .cnt y) : okCount y i t = 0 := if_neg fun hc => h hc.1

theorem okCount_of_not_ok {i : Instr} (h : lastStatus t ≠ 0) : okCount y i t = 0 := if_neg fun hc => h hc.2

theorem errorKind_code_ne_zero (e : ErrorKind) : e.code ≠ 0 := by cases e <;> decide

/-- A command that answers OK adds to FREQ[y] what it counts, unless it is `CLR`. -/
theorem Did.countOf_eq {i : Instr} (h : Did s i t) (hclr : i ≠ .clr) (y : Sym) :
    (countOf t.freq y).toNat = (countOf s.freq y).toNat + okCount y i t := by
  cases h with
  | clr => exact absurd rfl hclr
  | @cnt z _ _ hmax =>
    by_cases hz : y = z
    · subst hz
      have hok : lastStatus (respond .ok ((getFreq s y + 1).setWidth 40) (setFreq y (getFreq s y + 1) s)) = 0 :=
        lastStatus_of_rsp (respond_rsp _ _ _)
      rw [okCount_of_ok hok]
      exact toNat_countOf_setFreq_increment (increment_lt_of_ne_max hmax)
    · rw [okCount_of_ne fun hc => hz (Instr.cnt.inj hc).symm]
      exact congrArg BitVec.toNat (countOf_setFreq_other _ hz)
  | bld _ _ _ | gen _ _ _ | enc _ _ _ | encend _ _ | decSingle _ _ _ _ | decLeaf _ _ _ _ _ | decInside _ _ _ _ _
  | decend _ _ _ | rds | rdf _ | rdl _ | rdnw _ | rdnl _ => rw [okCount_of_ne Instr.noConfusion]; rfl

/-- The same of every command that goes on: one that is refused or raises an error counts nothing. -/
theorem exec_countOf {i : Instr} (h : exec i s = .next t) (hclr : i ≠ .clr) (y : Sym) :
    (countOf t.freq y).toNat = (countOf s.freq y).toNat + okCount y i t := by
  rcases exec_next h with ⟨-, -, -, rfl⟩ | ⟨-, e, rfl⟩ | hdid
  · have hstatus : lastStatus (respond .faulted 0 s) = Status.faulted.code := lastStatus_of_rsp (respond_rsp _ _ _)
    rw [okCount_of_not_ok (by rw [hstatus]; decide), respond_freq, Nat.add_zero]
  · have hstatus : lastStatus (raise e s) = e.code := lastStatus_of_rsp (raise_rsp s e)
    rw [okCount_of_not_ok (by rw [hstatus]; exact errorKind_code_ne_zero e), raise_freq, Nat.add_zero]
  · exact hdid.countOf_eq hclr y

theorem execAll_countOf {is : List Instr} (hclr : Instr.clr ∉ is) (h : execAll is s = .next t)
    (y : Sym) : (countOf t.freq y).toNat = (countOf s.freq y).toNat + okCounts y is s := by
  induction is generalizing s with
  | nil =>
    obtain rfl := Host.Outcome.next.inj h
    rfl
  | cons i rest ih =>
    obtain ⟨u, hi, hrest⟩ := execAll_cons h
    obtain ⟨hne, hmem⟩ := not_or.1 (mt List.mem_cons.2 hclr)
    rw [ih hmem hrest, exec_countOf hi (Ne.symm hne), okCounts_cons hi, Nat.add_assoc]

/-- The counters one by one, in the order of their symbols (R22). -/
theorem toList_eq_map_countOf (freq : Vector Count 256) :
    freq.toList = (List.range 256).map fun n => countOf freq (BitVec.ofNat 8 n) := by
  refine List.ext_getElem (by simp) fun n hn _ => ?_
  rw [Vector.length_toList] at hn
  simp [countOf, Nat.mod_eq_of_lt hn]

theorem freqSum_eq_sum_countOf (freq : Vector Count 256) :
    freqSum freq = ((List.range 256).map fun n => (countOf freq (BitVec.ofNat 8 n)).toNat).sum := by
  rw [freqSum, toList_eq_map_countOf, List.map_map]
  rfl

/-- Settles O21: each counter follows its responses command by command, and the sum of the counters is the sum of
what they say. -/
theorem countersCountOkCommands : Obligations.CountersCountOkCommands := by
  intro is s t hclr h
  have hcount := execAll_countOf hclr h
  refine ⟨hcount, ?_⟩
  simp only [freqSum_eq_sum_countOf, hcount]
  exact List.sum_map_add

end Sys2Proof.Machine

/-!
PROOFS. The tree builder (spec/41_build.md): what `BLD` answers and leaves (R130, R143), that a sorted list can hold
its queue (R144), and the weights and the optimality of its tree (R141, R142).
-/

namespace Sys2Proof.Machine

/-! ## What `BLD` answers (R130, R143) -/

/-- The state after `BLD` has built its tree (R130). -/
def afterBuild (s : State) : State :=
  installTree (BitVec.ofNat 9 (leafScan s.freq).length)
    (BitVec.ofNat 9 ((buildNodes (leafScan s.freq)).length - 1)) (buildNodes (leafScan s.freq)) s

theorem leafScan_ne_nil_iff (freq : Vector Count 256) : leafScan freq ≠ [] ↔ ∃ y, countOf freq y ≠ 0 := by
  rw [Ne, leafScan_eq_nil_iff, not_forall]

theorem exec_bld_of_counted {s : State} (he : s.err = none) (hp : s.phase = .count) (hne : leafScan s.freq ≠ []) :
    exec .bld s = .next (afterBuild s) :=
  (Did.bld he hp hne).exec_eq

theorem exec_bld_of_not_counted {s : State} (he : s.err = none) (hp : s.phase = .count)
    (hnil : leafScan s.freq = []) : exec .bld s = .next (raise .emptyAlphabet s) :=
  (front_pass he (inCount_iff.2 hp)).trans (if_pos (List.isEmpty_iff.2 hnil))

/-- A `BLD` that raises no error found a symbol and built its tree (R143). -/
theorem bld_built {s t : State} (hs : s.err = none) (h : exec .bld s = .next t) (ht : t.err = none) :
    leafScan s.freq ≠ [] ∧ t = afterBuild s := by
  cases did_of_err_none hs h ht with
  | bld _ _ hne => exact ⟨hne, rfl⟩

/-- What `BLD` writes, with NLEAF and ROOT as numbers of the present symbols (R130, R136, R102). -/
theorem afterBuild_eq {s : State} (hne : leafScan s.freq ≠ []) : afterBuild s = { s with
    nodes := buildNodes (leafScan s.freq)
    nleaf := BitVec.ofNat 9 (presentCount s.freq)
    root := BitVec.ofNat 9 (2 * presentCount s.freq - 2)
    cur := BitVec.ofNat 9 (2 * presentCount s.freq - 2)
    phase := .tree
    rsp := s.rsp ++ [okWord ((0 : BitVec 22) ++ BitVec.ofNat 9 (2 * presentCount s.freq - 2) ++
      BitVec.ofNat 9 (presentCount s.freq))] } := by
  have hroot : (buildNodes (leafScan s.freq)).length - 1 = 2 * presentCount s.freq - 2 := by
    rw [buildNodes_length _ hne, Nat.sub_sub]
  rw [afterBuild, leafScan_length, hroot, installTree, respond_ok, buildData_eq]

/-- Settles O22: with no symbol counted the leaf scan is empty, and that is the own check of `BLD`. -/
theorem bldEmptyAlphabet : Obligations.BldEmptyAlphabet := by
  intro s he hp hzero
  rw [exec_bld_of_not_counted he hp ((leafScan_eq_nil_iff _).2 hzero), raise_eq_afterError]

/-- Settles O23: with a symbol counted `BLD` installs the table of the merge loop, which is a tree over the counts. -/
theorem bldBuildsTree : Obligations.BldBuildsTree := by
  intro s he hp hcounted
  have hne := (leafScan_ne_nil_iff _).2 hcounted
  exact ⟨buildNodes (leafScan s.freq), (exec_bld_of_counted he hp hne).trans (congrArg _ (afterBuild_eq hne)),
    buildNodes_treeOver s.freq hne⟩

/-- Settles O26: the table and the registers that `BLD` installs are computed from the leaf scan of FREQ. -/
theorem bldDependsOnCountsOnly : Obligations.BldDependsOnCountsOnly := by
  intro s t u v hfreq hs ht hps hpt hcounted hu hv
  have hne := (leafScan_ne_nil_iff _).2 hcounted
  obtain rfl := Host.Outcome.next.inj (hu.symm.trans (exec_bld_of_counted hs hps hne))
  obtain rfl := Host.Outcome.next.inj (hv.symm.trans (exec_bld_of_counted ht hpt (hfreq ▸ hne)))
  simp [afterBuild, hfreq]

/-! ## Weights in creation order (R141 item 4) -/

/-- What waits after node `i` is made waited before and is not its child, or is node `i` itself (R133). -/
theorem waiting_succ {nodes : List Node} {i : Nat} {w : Weight} {l r j : NodeIx}
    (hi : nodes[i]? = some (.internal w l r)) (hj : waiting nodes (i + 1) j) :
    j.toNat = i ∨ (waiting nodes i j ∧ j ≠ l ∧ j ≠ r) := by
  obtain ⟨hlt, hfree⟩ := hj
  rw [List.take_add_one, hi, Option.toList_some, links_append, links_internal, List.mem_append, not_or] at hfree
  obtain ⟨hbefore, hnew⟩ := hfree
  simp only [List.mem_cons, List.not_mem_nil, or_false, not_or] at hnew
  rcases Nat.lt_succ_iff_lt_or_eq.1 hlt with hlt | heq
  · exact .inr ⟨⟨hlt, hbefore⟩, hnew⟩
  · exact .inl heq

/-- The weight of node `i` as a number, 0 where entry `i` is not valid. -/
def weightAt (nodes : List Node) (i : NodeIx) : Nat := ((nodeAt nodes i).map fun n => n.weight.toNat).getD 0

theorem weightAt_of_nodeAt {nodes : List Node} {i : NodeIx} {a : Node} (h : nodeAt nodes i = some a) :
    weightAt nodes i = a.weight.toNat := by
  rw [weightAt, h]; rfl

theorem weightAt_le_of_nodeKeyLt {nodes : List Node} {i j : NodeIx} (h : nodeKeyLt nodes i j) :
    weightAt nodes i ≤ weightAt nodes j := by
  obtain ⟨a, b, ha, hb, hkey⟩ := h
  rw [weightAt_of_nodeAt ha, weightAt_of_nodeAt hb]
  rcases hkey with hlt | ⟨heq, -⟩
  · exact (BitVec.lt_def.1 hlt).le
  · rw [heq]

/-- An internal node weighs what its two children weigh (R139). -/
theorem TreeOver.weight_eq {freq : Vector Count 256} {nodes : List Node} {n i : Nat} {w : Weight} {l r : NodeIx}
    (h : TreeOver freq nodes n) (hi : nodes[i]? = some (.internal w l r)) :
    w.toNat = weightAt nodes l + weightAt nodes r := by
  obtain ⟨v, l', r', a, b, hn, -, -, -, ha, hb, hsum⟩ :=
    h.internal i (h.internal_ge hi) (List.getElem?_eq_some_iff.1 hi).1
  obtain ⟨rfl, rfl, rfl⟩ : w = v ∧ l = l' ∧ r = r' := by simpa using hi.symm.trans hn
  rw [weightAt_of_nodeAt ha, weightAt_of_nodeAt hb, hsum]

/-- A child of the next merge weighs at least what the heavier child of this merge weighs, or it is the node this
merge made. -/
theorem LeastMerges.le_weightAt_next {nodes : List Node} {i : Nat} {w : Weight} {l r j : NodeIx}
    (h : LeastMerges nodes) (hi : nodes[i]? = some (.internal w l r)) (hj : waiting nodes (i + 1) j) :
    weightAt nodes j = w.toNat ∨ weightAt nodes r ≤ weightAt nodes j := by
  rcases waiting_succ hi hj with rfl | ⟨hwait, hjl, hjr⟩
  · exact .inl (weightAt_of_nodeAt hi)
  · obtain ⟨-, -, -, hleast⟩ := h i w l r hi
    exact .inr (weightAt_le_of_nodeKeyLt (hleast j hwait hjl hjr))

/-- Settles O25: the children of the next merge are the new node and another, or two nodes that weigh at least what
the children of this merge weigh. -/
theorem bldWeightsDoNotDecrease : Obligations.BldWeightsDoNotDecrease := by
  intro s t hs _ h ht i v w a b c d hi hnext
  obtain ⟨hne, hnodes⟩ := bld_nodes hs h ht
  rw [hnodes] at hi hnext
  have htree := buildNodes_treeOver s.freq hne
  have hleast := buildNodes_leastMerges s.freq hne
  obtain ⟨-, -, hab, -⟩ := hleast i v a b hi
  obtain ⟨hc, -, hcd, -⟩ := hleast (i + 1) w c d hnext
  have hv := htree.weight_eq hi
  have hw := htree.weight_eq hnext
  have hle := weightAt_le_of_nodeKeyLt hab
  have hle' := weightAt_le_of_nodeKeyLt hcd
  rw [BitVec.le_def]
  rcases hleast.le_weightAt_next hi hc with hcv | hcb <;> omega

/-! ## The queue as a sorted list (R144) -/

/-- In order of key, the least first. -/
def SortedByKey (l : List PqEntry) : Prop := l.Pairwise fun a b => keyLt b a = false

theorem insertSorted_perm (e : PqEntry) (l : List PqEntry) : (insertSorted e l).Perm (e :: l) := by
  induction l with
  | nil => rfl
  | cons x rest ih =>
    rw [insertSorted]
    split
    · rfl
    · exact (ih.cons x).trans (.swap e x rest)

theorem keyLt_asymm {a b : PqEntry} (h : keyLt a b = true) : keyLt b a = false :=
  Bool.eq_false_iff.2 fun hc => by simpa [keyLt_irrefl] using keyLt_trans h hc

theorem sortedByKey_insertSorted {l : List PqEntry} (h : SortedByKey l) (e : PqEntry) :
    SortedByKey (insertSorted e l) := by
  induction l with
  | nil => exact List.pairwise_singleton _ e
  | cons x rest ih =>
    obtain ⟨hx, hrest⟩ := List.pairwise_cons.1 h
    rw [insertSorted]
    split
    · next hex =>
      refine List.pairwise_cons.2 ⟨fun y hy => ?_, h⟩
      rcases List.mem_cons.1 hy with rfl | hy
      · exact keyLt_asymm hex
      · exact Bool.eq_false_iff.2 fun hc => by simpa [hx y hy] using keyLt_trans hc hex
    · next hex =>
      refine List.pairwise_cons.2 ⟨fun y hy => ?_, ih hrest⟩
      rcases List.mem_cons.1 ((insertSorted_perm e rest).mem_iff.1 hy) with rfl | hy
      · exact Bool.eq_false_iff.2 hex
      · exact hx y hy

theorem foldr_insertSorted (l : List PqEntry) :
    (l.foldr insertSorted []).Perm l ∧ SortedByKey (l.foldr insertSorted []) := by
  induction l with
  | nil => exact ⟨.nil, .nil⟩
  | cons e rest ih => exact ⟨(insertSorted_perm e _).trans (ih.1.cons e), sortedByKey_insertSorted ih.2 e⟩

/-- The member that `extractMin` takes stands at the front of the sorted list: keys are different for different
members (R12, R135). -/
theorem extractMin_of_sorted {pq l : List PqEntry} {e : PqEntry} (hp : pq.Perm (e :: l))
    (hs : SortedByKey (e :: l)) : ∃ rest, extractMin pq = some (e, rest) ∧ rest.Perm l := by
  obtain ⟨a, rest, ha⟩ := extractMin_isSome (List.ne_nil_of_mem (hp.mem_iff.2 List.mem_cons_self))
  obtain rfl : a = e := by
    by_contra hne
    have hmem : a ∈ l := (List.mem_cons.1 (hp.mem_iff.1 (extractMin_spec ha).1)).resolve_left hne
    have := extractMin_lt ha (hp.mem_iff.2 List.mem_cons_self) (Ne.symm hne)
    simp [(List.pairwise_cons.1 hs).1 a hmem] at this
  exact ⟨rest, ha, ((extractMin_perm ha).symm.trans hp).cons_inv⟩

/-- The two loops make the same nodes as long as the sorted list holds the members of the queue. -/
theorem mergeSorted_eq_mergeLoop (k : Nat) (nodes : List Node) {pq l : List PqEntry} (hp : pq.Perm l)
    (hs : SortedByKey l) : mergeSorted k nodes l = mergeLoop k nodes pq := by
  induction k generalizing nodes pq l with
  | zero => rfl
  | succ k ih =>
    cases l with
    | nil =>
      obtain rfl := List.perm_nil.1 hp
      rfl
    | cons a l =>
      obtain ⟨pq₁, ha, hp₁⟩ := extractMin_of_sorted hp hs
      have hs₁ := (List.pairwise_cons.1 hs).2
      cases l with
      | nil =>
        obtain rfl := List.perm_nil.1 hp₁
        have hb : extractMin [] = none := rfl
        simp only [mergeLoop, ha, hb, mergeSorted]
      | cons b rest =>
        obtain ⟨pq₂, hb, hp₂⟩ := extractMin_of_sorted hp₁ hs₁
        simp only [mergeLoop, ha, hb, mergeSorted]
        have hs₂ : SortedByKey rest := (List.pairwise_cons.1 hs₁).2
        exact ih _ ((List.perm_append_singleton _ _).trans ((hp₂.cons _).trans (insertSorted_perm _ _).symm))
          (sortedByKey_insertSorted hs₂ _)

/-- Settles O28: both loops are run in step, with the sorted list a permutation of the queue. -/
theorem sortedListQueueIsCorrect : Obligations.SortedListQueueIsCorrect := by
  intro freq
  obtain ⟨hperm, hsorted⟩ := foldr_insertSorted (initQueue (leafScan freq))
  exact mergeSorted_eq_mergeLoop _ _ hperm.symm hsorted

/-! ## Depths of leaves (R142)

A tree is taken as the list of its leaves, each a weight with a depth. What is needed of the shape of a strictly
binary tree is Kraft's inequality for the depths. -/

/-- `Σ weight × depth`. -/
def pathCost (leaves : List (Nat × Nat)) : Nat := (leaves.map fun p => p.1 * p.2).sum

/-- Kraft's sum `Σ 2^(-depth)`. -/
def kraftSum (leaves : List (Nat × Nat)) : ℚ := (leaves.map fun p => (1 / 2 : ℚ) ^ p.2).sum

@[simp] theorem pathCost_cons (p : Nat × Nat) (leaves : List (Nat × Nat)) :
    pathCost (p :: leaves) = p.1 * p.2 + pathCost leaves := rfl

@[simp] theorem kraftSum_cons (p : Nat × Nat) (leaves : List (Nat × Nat)) :
    kraftSum (p :: leaves) = (1 / 2 : ℚ) ^ p.2 + kraftSum leaves := rfl

theorem pathCost_append (a b : List (Nat × Nat)) : pathCost (a ++ b) = pathCost a + pathCost b := by
  simp [pathCost]

theorem kraftSum_append (a b : List (Nat × Nat)) : kraftSum (a ++ b) = kraftSum a + kraftSum b := by
  simp [kraftSum]

theorem pathCost_of_perm {a b : List (Nat × Nat)} (h : a.Perm b) : pathCost a = pathCost b :=
  (h.map _).sum_eq

/-- Kraft's sum depends on the depths only. -/
theorem kraftSum_of_depths_perm {a b : List (Nat × Nat)} (h : (a.map Prod.snd).Perm (b.map Prod.snd)) :
    kraftSum a = kraftSum b := by
  simpa [kraftSum, List.map_map, Function.comp_def] using (h.map fun d => (1 / 2 : ℚ) ^ d).sum_eq

/-- The leaves of an alternative tree whose root is at depth `d`. -/
def AltTree.leavesAt (d : Nat) : AltTree → List (Nat × Nat)
  | .leaf w => [(w, d)]
  | .node l r => l.leavesAt (d + 1) ++ r.leavesAt (d + 1)

theorem AltTree.leavesAt_weights (t : AltTree) (d : Nat) : (t.leavesAt d).map Prod.fst = t.weights := by
  induction t generalizing d with
  | leaf w => rfl
  | node l r ihl ihr => rw [leavesAt, List.map_append, ihl, ihr, weights]

theorem AltTree.pathCost_leavesAt (t : AltTree) (d : Nat) : pathCost (t.leavesAt d) = t.wpl d := by
  induction t generalizing d with
  | leaf w => rfl
  | node l r ihl ihr => rw [leavesAt, pathCost_append, ihl, ihr, wpl]

theorem AltTree.kraftSum_leavesAt (t : AltTree) (d : Nat) : kraftSum (t.leavesAt d) = (1 / 2 : ℚ) ^ d := by
  induction t generalizing d with
  | leaf w => simp [leavesAt, kraftSum]
  | node l r ihl ihr => rw [leavesAt, kraftSum_append, ihl, ihr]; ring

/-! ## Merging the two lightest leaves (R133, R142) -/

/-- The lightest leaf can be given the greatest depth: passing over the other leaves, it takes the depth of each one
that is deeper, which costs nothing. -/
theorem exists_lightest_deepest (a d : Nat) {rest : List (Nat × Nat)} (hlight : ∀ p ∈ rest, a ≤ p.1) :
    ∃ (m : Nat) (rest' : List (Nat × Nat)), rest'.map Prod.fst = rest.map Prod.fst ∧
      (m :: rest'.map Prod.snd).Perm (d :: rest.map Prod.snd) ∧ (∀ p ∈ rest', p.2 ≤ m) ∧
      pathCost ((a, m) :: rest') ≤ pathCost ((a, d) :: rest) := by
  induction rest with
  | nil => exact ⟨d, [], rfl, .refl _, by simp, le_rfl⟩
  | cons q rest ih =>
    obtain ⟨w, e⟩ := q
    obtain ⟨haw, hrest⟩ := List.forall_mem_cons.1 hlight
    obtain ⟨m, rest', hweights, hdepths, hdeepest, hcost⟩ := ih hrest
    simp only [pathCost_cons] at hcost
    rcases le_or_gt e m with hem | hme
    · refine ⟨m, (w, e) :: rest', by simp [hweights], ?_, List.forall_mem_cons.2 ⟨hem, hdeepest⟩, ?_⟩
      · exact (List.Perm.swap _ _ _).trans ((hdepths.cons e).trans (.swap _ _ _))
      · simp only [pathCost_cons]; omega
    · refine ⟨e, (w, m) :: rest', by simp [hweights], (hdepths.cons e).trans (.swap _ _ _),
        List.forall_mem_cons.2 ⟨hme.le, fun p hp => (hdeepest p hp).trans hme.le⟩, ?_⟩
      have hswap : a * e + w * m ≤ a * m + w * e := mul_add_mul_le_mul_add_mul haw hme.le
      simp only [pathCost_cons]; omega

/-- Kraft's sum in units of `2^(-d)`, where no leaf is deeper than `d`. -/
theorem two_pow_mul_kraftSum {d : Nat} {leaves : List (Nat × Nat)} (h : ∀ p ∈ leaves, p.2 ≤ d) :
    (2 : ℚ) ^ d * kraftSum leaves = ((leaves.map fun p => 2 ^ (d - p.2)).sum : ℕ) := by
  induction leaves with
  | nil => simp [kraftSum]
  | cons p rest ih =>
    obtain ⟨hp, hrest⟩ := List.forall_mem_cons.1 h
    have hunit : (2 : ℚ) ^ d * (1 / 2) ^ p.2 = 2 ^ (d - p.2) := by
      rw [one_div, inv_pow, pow_sub₀ _ two_ne_zero hp]
    rw [kraftSum_cons, mul_add, ih hrest, hunit, List.map_cons, List.sum_cons]
    push_cast
    rfl

/-- The two deepest leaves can be joined above the less deep of them: without the deepest leaf Kraft's sum is below 1
and a multiple of the unit `2^(-d)`, so it leaves room for one unit more. -/
theorem kraftSum_join {a b w c d : Nat} {rest : List (Nat × Nat)} (hdeep : ∀ p ∈ rest, p.2 ≤ d)
    (h : kraftSum ((a, c) :: (b, d) :: rest) ≤ 1) : 1 ≤ d ∧ kraftSum ((w, d - 1) :: rest) ≤ 1 := by
  simp only [kraftSum_cons] at h ⊢
  have hscale := two_pow_mul_kraftSum hdeep
  have hunit : (2 : ℚ) ^ d * (1 / 2) ^ d = 1 := by rw [← mul_pow]; norm_num
  have hpos : (0 : ℚ) < (1 / 2) ^ c := by positivity
  have hroom : 1 + (rest.map fun p => 2 ^ (d - p.2)).sum < 2 ^ d := by
    have : (2 : ℚ) ^ d * ((1 / 2) ^ d + kraftSum rest) < 2 ^ d * 1 :=
      mul_lt_mul_of_pos_left (by linarith) (by positivity)
    rw [mul_add, hunit, hscale, mul_one] at this
    exact_mod_cast this
  cases d with
  | zero => simp at hroom
  | succ d =>
    refine ⟨Nat.le_add_left 1 d, le_of_mul_le_mul_left ?_ (show (0 : ℚ) < 2 ^ (d + 1) by positivity)⟩
    have hdouble : (2 : ℚ) ^ (d + 1) * (1 / 2) ^ d = 2 := by rw [pow_succ, mul_right_comm, ← mul_pow]; norm_num
    rw [Nat.add_sub_cancel, mul_add, hdouble, hscale, mul_one]
    exact_mod_cast (show 2 + (rest.map fun p => 2 ^ (d + 1 - p.2)).sum ≤ 2 ^ (d + 1) by omega)

theorem exists_map_eq_of_perm {α β : Type} (f : α → β) {l : List α} {m : List β} (h : (l.map f).Perm m) :
    ∃ l' : List α, l'.Perm l ∧ l'.map f = m := by
  have hcomp : Relation.Comp (fun u v => u = List.map f v) List.Perm m l := by
    rw [List.eq_map_comp_perm]
    exact h.symm
  obtain ⟨l', hm, hl⟩ := hcomp
  exact ⟨l', hl, hm.symm⟩

/-- Huffman's step: in any assignment of depths within Kraft's bound the two lightest leaves can be replaced by one
of their joint weight, and the cost falls by that weight at least. -/
theorem exists_join_lightest {leaves : List (Nat × Nat)} {a b : Nat} {ws : List Nat}
    (hkraft : kraftSum leaves ≤ 1) (hperm : (leaves.map Prod.fst).Perm (a :: b :: ws)) (hab : a ≤ b)
    (hlight : ∀ w ∈ ws, b ≤ w) : ∃ leaves' : List (Nat × Nat), kraftSum leaves' ≤ 1 ∧
      (leaves'.map Prod.fst).Perm ((a + b) :: ws) ∧ pathCost leaves' + (a + b) ≤ pathCost leaves := by
  obtain ⟨l, hl, hmap⟩ := exists_map_eq_of_perm Prod.fst hperm
  obtain ⟨⟨a, c⟩, l₁, rfl, rfl, hmap₁⟩ := List.map_eq_cons_iff.1 hmap
  have hlight₁ : ∀ p ∈ l₁, a ≤ p.1 := by
    intro p hp
    have hw : p.1 ∈ b :: ws := hmap₁ ▸ List.mem_map_of_mem hp
    rcases List.mem_cons.1 hw with rfl | hw
    · exact hab
    · exact hab.trans (hlight _ hw)
  obtain ⟨m, l₂, hw₂, hd₂, hdeep₂, hcost₂⟩ := exists_lightest_deepest a c hlight₁
  obtain ⟨⟨b, d⟩, l₃, rfl, rfl, hw₃⟩ := List.map_eq_cons_iff.1 (hw₂.trans hmap₁)
  obtain ⟨m', l₄, hw₄, hd₄, hdeep₄, hcost₄⟩ := exists_lightest_deepest b d (rest := l₃)
    fun p hp => hlight _ (hw₃ ▸ List.mem_map_of_mem hp)
  have hdepths : (((a, m) :: (b, m') :: l₄).map Prod.snd).Perm (leaves.map Prod.snd) :=
    (hd₄.cons m).trans (hd₂.trans (hl.map Prod.snd))
  have hm : m' ≤ m := by
    obtain ⟨p, hp, rfl⟩ := List.mem_map.1 (show m' ∈ ((b, d) :: l₃).map Prod.snd from
      hd₄.mem_iff.1 List.mem_cons_self)
    exact hdeep₂ p hp
  obtain ⟨hone, hjoin⟩ := kraftSum_join (w := a + b) hdeep₄ ((kraftSum_of_depths_perm hdepths).trans_le hkraft)
  refine ⟨(a + b, m' - 1) :: l₄, hjoin, by simp [hw₄, hw₃], ?_⟩
  rw [← pathCost_of_perm hl]
  simp only [pathCost_cons] at hcost₂ hcost₄ ⊢
  have habove : (a + b) * (m' - 1) + (a + b) = a * m' + b * m' := by
    rw [← Nat.mul_succ, Nat.succ_eq_add_one, Nat.sub_add_cancel hone, Nat.add_mul]
  have hsink : a * m' ≤ a * m := Nat.mul_le_mul_left a hm
  omega

/-! ## The cost of the merges (R133, R142) -/

/-- What a merge adds to the weighted path length: the weight of the node it makes, since each leaf below that node
is one level deeper for it. -/
def Node.mergeWeight : Node → Nat
  | .leaf _ _ => 0
  | .internal w _ _ => w.toNat

/-- The weights of all internal nodes together. -/
def mergeWeight (nodes : List Node) : Nat := (nodes.map Node.mergeWeight).sum

theorem mergeWeight_snoc (nodes : List Node) (w : Weight) (l r : NodeIx) :
    mergeWeight (nodes ++ [.internal w l r]) = mergeWeight nodes + w.toNat := by
  simp [mergeWeight, Node.mergeWeight]

theorem mergeWeight_of_leaves {nodes : List Node} (h : ∀ n ∈ nodes, ∃ y w, n = .leaf y w) :
    mergeWeight nodes = 0 := by
  refine List.sum_eq_zero fun x hx => ?_
  obtain ⟨n, hn, rfl⟩ := List.mem_map.1 hx
  obtain ⟨y, w, rfl⟩ := h n hn
  rfl

/-- `Σ weight × depth` over the members of the queue. -/
def queueCost (depth : NodeIx → Nat) (pq : List PqEntry) : Nat :=
  (pq.map fun e => e.weight.toNat * depth e.index).sum

/-- Every child is one level below its parent. -/
def ChildrenBelow (depth : NodeIx → Nat) (nodes : List Node) : Prop :=
  ∀ (i : Nat) (b : Bool) (j : NodeIx), IsChild nodes i b j → depth j = depth (BitVec.ofNat 9 i) + 1

/-- Some depths within Kraft's bound for the members of the queue, with the merges so far, cost at most `bound`. -/
def FitsWithin (bound : Nat) (nodes : List Node) (pq : List PqEntry) : Prop :=
  ∃ leaves : List (Nat × Nat), kraftSum leaves ≤ 1 ∧
    (leaves.map Prod.fst).Perm (pq.map fun e => e.weight.toNat) ∧ pathCost leaves + mergeWeight nodes ≤ bound

theorem IsChild.append {nodes : List Node} {i : Nat} {b : Bool} {j : NodeIx} (h : IsChild nodes i b j)
    (ms : List Node) : IsChild (nodes ++ ms) i b j := by
  obtain ⟨w, l, r, hi, hj⟩ := h
  exact ⟨w, l, r, by rw [List.getElem?_append_left (List.getElem?_eq_some_iff.1 hi).1, hi], hj⟩

/-- `extractMin` takes a member of least weight (R135). -/
theorem extractMin_weight_le {pq rest : List PqEntry} {a x : PqEntry} (h : extractMin pq = some (a, rest))
    (hx : x ∈ pq) : a.weight.toNat ≤ x.weight.toNat := by
  obtain ⟨-, -, hleast⟩ := extractMin_spec h
  have := hleast x hx
  rw [← Bool.not_eq_true, keyLt_iff] at this
  omega

namespace Merging

variable {leaves nodes : List Node} {pq pq₁ pq₂ : List PqEntry} {a b : PqEntry}

/-- The weight of a merge does not wrap (R139). -/
theorem toNat_add_weights (h : Merging leaves nodes pq) (hp : pq.Perm (a :: b :: pq₂)) :
    (a.weight + b.weight).toNat = a.weight.toNat + b.weight.toNat := by
  have hsum := (hp.map fun e => e.weight.toNat).sum_eq
  rw [h.weights] at hsum
  simp only [List.map_cons, List.sum_cons] at hsum
  have := h.no_overflow
  rw [BitVec.toNat_add, Nat.mod_eq_of_lt (by omega)]

/-- A merge of the two lightest members keeps within the bound. -/
theorem fitsWithin_step {bound : Nat} (h : Merging leaves nodes pq) (hfit : FitsWithin bound nodes pq)
    (ha : extractMin pq = some (a, pq₁)) (hb : extractMin pq₁ = some (b, pq₂)) :
    FitsWithin bound (nodes ++ [.internal (a.weight + b.weight) a.index b.index])
      (insertPq { weight := a.weight + b.weight, index := BitVec.ofNat 9 nodes.length } pq₂) := by
  have hpb := extractMin_perm hb
  have hp := (extractMin_perm ha).trans (hpb.cons a)
  have hadd := h.toNat_add_weights hp
  obtain ⟨l, hkraft, hweights, hcost⟩ := hfit
  have hlightest : (l.map Prod.fst).Perm
      (a.weight.toNat :: b.weight.toNat :: pq₂.map fun e => e.weight.toNat) := hweights.trans (hp.map _)
  obtain ⟨l', hkraft', hweights', hcost'⟩ := exists_join_lightest hkraft hlightest
    (extractMin_weight_le ha (hp.mem_iff.2 (by simp)))
    (List.forall_mem_map.2 fun x hx => extractMin_weight_le hb (hpb.mem_iff.2 (List.mem_cons_of_mem b hx)))
  refine ⟨l', hkraft', hweights'.trans ?_, ?_⟩
  · rw [insertPq, List.map_append, ← hadd]
    exact (List.perm_append_singleton _ _).symm
  · rw [mergeWeight_snoc, hadd]
    omega

/-- A merge moves its weight from the cost of the queue to the cost of the merges: the node it makes is one level
above its children. -/
theorem queueCost_step (h : Merging leaves nodes pq) {depth : NodeIx → Nat}
    (hdepth : ChildrenBelow depth (nodes ++ [.internal (a.weight + b.weight) a.index b.index]))
    (hp : pq.Perm (a :: b :: pq₂)) :
    queueCost depth (insertPq { weight := a.weight + b.weight, index := BitVec.ofNat 9 nodes.length } pq₂) +
      (a.weight + b.weight).toNat = queueCost depth pq := by
  have hnew : (nodes ++ [Node.internal (a.weight + b.weight) a.index b.index])[nodes.length]? =
      some (.internal (a.weight + b.weight) a.index b.index) := by simp
  have hda := hdepth nodes.length false a.index ⟨_, _, _, hnew, rfl⟩
  have hdb := hdepth nodes.length true b.index ⟨_, _, _, hnew, rfl⟩
  have hsum : queueCost depth pq = queueCost depth (a :: b :: pq₂) := (hp.map _).sum_eq
  rw [hsum, insertPq]
  simp only [queueCost, List.map_append, List.map_cons, List.map_nil, List.sum_append, List.sum_cons, List.sum_nil,
    hda, hdb, h.toNat_add_weights hp]
  ring

end Merging

section Optimality

variable {freq : Vector Count 256}

theorem initQueue_weights (leaves : List Node) :
    ((initQueue leaves).map fun e => e.weight.toNat) = leaves.map fun n => n.weight.toNat := by
  apply List.ext_getElem <;> simp [initQueue]

/-- An induction over the merges of `BLD`: what every merge keeps holds of the table that `BLD` leaves, with one
member left in the queue (R136). -/
theorem buildNodes_keeps {P : List Node → List PqEntry → Prop} (hne : leafScan freq ≠ [])
    (hstart : P (leafScan freq) (initQueue (leafScan freq)))
    (hstep : ∀ {nodes pq pq₁ pq₂ a b}, Merging (leafScan freq) nodes pq → P nodes pq →
      extractMin pq = some (a, pq₁) → extractMin pq₁ = some (b, pq₂) →
      P (nodes ++ [.internal (a.weight + b.weight) a.index b.index])
        (insertPq { weight := a.weight + b.weight, index := BitVec.ofNat 9 nodes.length } pq₂)) :
    ∃ e, Merging (leafScan freq) (buildNodes (leafScan freq)) [e] ∧ P (buildNodes (leafScan freq)) [e] := by
  obtain ⟨pq, hm, hP⟩ : ∃ pq, Merging (leafScan freq) (buildNodes (leafScan freq)) pq ∧
      P (buildNodes (leafScan freq)) pq :=
    mergeLoop_keeps (P := fun nodes pq => Merging (leafScan freq) nodes pq ∧ P nodes pq)
      (fun ⟨hm, hP⟩ ha hb =>
        ⟨hm.step ((extractMin_perm ha).trans ((extractMin_perm hb).cons _)), hstep hm hP ha hb⟩)
      (leafScan freq).length ⟨Merging.start freq hne, hstart⟩
  have hone : pq.length = 1 := by
    have hsize := hm.size
    have := List.length_pos_iff.2 hne
    rw [buildNodes_length freq hne, ← leafScan_length] at hsize
    omega
  obtain ⟨e, rfl⟩ := List.length_eq_one_iff.1 hone
  exact ⟨e, hm, hP⟩

/-- The merges cost no more than any assignment of depths to the leaves that meets Kraft's bound. -/
theorem mergeWeight_buildNodes_le (hne : leafScan freq ≠ []) {leaves : List (Nat × Nat)}
    (hkraft : kraftSum leaves ≤ 1)
    (hweights : (leaves.map Prod.fst).Perm ((leafScan freq).map fun n => n.weight.toNat)) :
    mergeWeight (buildNodes (leafScan freq)) ≤ pathCost leaves := by
  have hstart : FitsWithin (pathCost leaves) (leafScan freq) (initQueue (leafScan freq)) :=
    ⟨leaves, hkraft, by rwa [initQueue_weights],
      by rw [mergeWeight_of_leaves (leafScan_all_leaves freq), Nat.add_zero]⟩
  obtain ⟨-, -, l, -, -, hcost⟩ := buildNodes_keeps hne hstart Merging.fitsWithin_step
  exact (Nat.le_add_left _ _).trans hcost

/-- The weighted path length of the tree is what its merges cost. -/
theorem queueCost_initQueue (hne : leafScan freq ≠ []) {depth : NodeIx → Nat}
    (hdepth : ChildrenBelow depth (buildNodes (leafScan freq)))
    (hroot : depth (BitVec.ofNat 9 ((buildNodes (leafScan freq)).length - 1)) = 0) :
    queueCost depth (initQueue (leafScan freq)) = mergeWeight (buildNodes (leafScan freq)) := by
  obtain ⟨e, hm, hcost⟩ := buildNodes_keeps
    (P := fun nodes pq => ChildrenBelow depth nodes →
      queueCost depth (initQueue (leafScan freq)) = queueCost depth pq + mergeWeight nodes) hne
    (fun _ => by rw [mergeWeight_of_leaves (leafScan_all_leaves freq), Nat.add_zero])
    (fun hm hcost ha hb hbelow => by
      have hp := (extractMin_perm ha).trans ((extractMin_perm hb).cons _)
      rw [hcost fun i c j hc => hbelow i c j (hc.append _), mergeWeight_snoc, ← hm.queueCost_step hbelow hp]
      ring)
  have hlast : queueCost depth [e] = 0 := by simp [queueCost, hm.last_index, hroot]
  rw [hcost hdepth, hlast, Nat.zero_add]

end Optimality

/-! ## Depths in the tree (R161, R142) -/

namespace TreeOver

variable {freq : Vector Count 256} {nodes : List Node} {n : Nat} {root : NodeIx}

/-- Each node has one depth, the length of its path. -/
theorem exists_depth (h : TreeOver freq nodes n) (hroot : root.toNat + 1 = nodes.length) :
    ∃ depth : NodeIx → Nat, ∀ j p, PathTo nodes root j p → p.length = depth j := by
  have hone : ∀ j, ∃ d, ∀ p, PathTo nodes root j p → p.length = d := by
    intro j
    by_cases hj : ∃ p, PathTo nodes root j p
    · obtain ⟨p, hp⟩ := hj
      exact ⟨p.length, fun q hq => by rw [h.path_unique hroot hq hp]⟩
    · exact ⟨0, fun p hp => absurd ⟨p, hp⟩ hj⟩
  choose depth hdepth using hone
  exact ⟨depth, hdepth⟩

theorem childrenBelow (h : TreeOver freq nodes n) (hroot : root.toNat + 1 = nodes.length) {depth : NodeIx → Nat}
    (hdepth : ∀ j p, PathTo nodes root j p → p.length = depth j) : ChildrenBelow depth nodes := by
  intro i b j hc
  have hlt := (h.child_lt hc).2
  have hix : (BitVec.ofNat 9 i).toNat = i := by rw [BitVec.toNat_ofNat, Nat.mod_eq_of_lt (by omega)]
  obtain ⟨p, hp⟩ := h.exists_path hroot (BitVec.ofNat 9 i) (by rwa [hix])
  have hpath := pathTo_concat_iff.2 ⟨_, hp, hix.symm ▸ hc⟩
  rw [← hdepth _ _ hpath, ← hdepth _ _ hp, List.length_append, List.length_singleton]

end TreeOver

/-- The sum over the leaves of the table is the cost of the queue that the merge loop starts with (R132). -/
theorem sum_leaves_eq_queueCost {freq : Vector Count 256} (hne : leafScan freq ≠ []) {depth : Nat → Nat}
    {nodeDepth : NodeIx → Nat} (hdepth : ∀ j < presentCount freq, depth j = nodeDepth (BitVec.ofNat 9 j)) :
    ((List.range (presentCount freq)).map fun j =>
      (((buildNodes (leafScan freq))[j]?.map fun n => n.weight.toNat).getD 0) * depth j).sum =
      queueCost nodeDepth (initQueue (leafScan freq)) := by
  obtain ⟨e, hm⟩ := buildNodes_merging freq hne
  rw [queueCost]
  congr 1
  refine List.ext_getElem (by simp [initQueue, leafScan_length]) fun j hj _ => ?_
  rw [List.length_map, List.length_range] at hj
  have hlt : j < (leafScan freq).length := by rwa [leafScan_length]
  simp [initQueue, hm.getElem?_leaf hlt, hdepth j hj, hlt]

/-- Settles O27: the weighted path length of the tree is what its merges cost (`queueCost_initQueue`), and no tree
costs less, since each merge joins the two lightest leaves of what is left of it (`exists_join_lightest`). -/
theorem bldIsOptimal : Obligations.BldIsOptimal := by
  intro s t hs _ h ht depth hpaths alt halt
  obtain ⟨hne, rfl⟩ := bld_built hs h ht
  have htree := buildNodes_treeOver s.freq hne
  have hlen := htree.length_eq
  have hpos := htree.one_le
  have hle := htree.le_nsym
  have hn : (afterBuild s).nleaf.toNat = presentCount s.freq := by
    rw [afterBuild, installTree_nleaf, leafScan_length, BitVec.toNat_ofNat, Nat.mod_eq_of_lt (by omega)]
  have hroot : (afterBuild s).root.toNat + 1 = (buildNodes (leafScan s.freq)).length := by
    rw [afterBuild, installTree_root, BitVec.toNat_ofNat, Nat.mod_eq_of_lt (by omega)]
    omega
  rw [hn] at hpaths halt ⊢
  obtain ⟨nodeDepth, hdepth⟩ := htree.exists_depth hroot
  have hleaf : ∀ j < presentCount s.freq, depth j = nodeDepth (BitVec.ofNat 9 j) := fun j hj => by
    obtain ⟨p, hp, hlength⟩ := hpaths j hj
    rw [← hlength, hdepth _ p hp]
  calc _ = queueCost nodeDepth (initQueue (leafScan s.freq)) := sum_leaves_eq_queueCost hne hleaf
    _ = mergeWeight (buildNodes (leafScan s.freq)) :=
      queueCost_initQueue hne (htree.childrenBelow hroot hdepth) (hdepth _ _ .root).symm
    _ ≤ pathCost (alt.leavesAt 0) := mergeWeight_buildNodes_le hne (by rw [alt.kraftSum_leavesAt, pow_zero]) (by
      rw [alt.leavesAt_weights]
      exact halt.trans (htree.leaves_perm.map _))
    _ = alt.wpl 0 := alt.pathCost_leavesAt 0

end Sys2Proof.Machine

/-!
PROOFS. The code-table generator (spec/42_codegen.md): every node of the tree has one path (R161), `GEN` completes and
writes the paths (R160 to R163), and no code of a table starts another (R164) and their Kraft sum is complete (R166).
-/

namespace Sys2Proof.Machine

/-! ## Paths in a state with a tree (R161) -/

/-- Settles O30: a path exists by going up from parent to parent, and it is unique because every node has one
parent. -/
theorem everyNodeHasOnePath : Obligations.EveryNodeHasOnePath := by
  intro s h hp i hi
  obtain ⟨p, hpath⟩ := (h.tree hp).exists_path (h.root_succ hp) i hi
  exact ⟨p, hpath, fun q hq => (h.tree hp).path_unique (h.root_succ hp) hq hpath⟩

/-- A path, cut after any number of its bits. -/
theorem pathTo_append_iff {nodes : List Node} {i k : NodeIx} {p q : List Bool} :
    PathTo nodes i k (p ++ q) ↔ ∃ j, PathTo nodes i j p ∧ PathTo nodes j k q := by
  refine ⟨fun h => ?_, fun ⟨j, hj, hk⟩ => hj.append hk⟩
  induction p generalizing i with
  | nil => exact ⟨i, .root, h⟩
  | cons b p ih =>
    obtain ⟨w, l, r, hn, hrest⟩ := pathTo_cons_iff.1 h
    obtain ⟨j, hj, hk⟩ := ih hrest
    exact ⟨j, pathTo_cons_iff.2 ⟨w, l, r, hn, hj⟩, hk⟩

/-- No path goes on below a leaf. -/
theorem PathTo.nil_of_leaf {nodes : List Node} {j k : NodeIx} {q : List Bool} {y : Sym} {w : Weight}
    (h : PathTo nodes j k q) (hj : nodeAt nodes j = some (.leaf y w)) : q = [] := by
  cases q with
  | nil => rfl
  | cons b q =>
    obtain ⟨v, l, r, hn, -⟩ := pathTo_cons_iff.1 h
    exact absurd (hj.symm.trans hn) (by simp)

/-- A path that goes through a leaf ends there. -/
theorem PathTo.eq_of_leaf_prefix {nodes : List Node} {i j k : NodeIx} {p q : List Bool} {y : Sym} {w : Weight}
    (hp : PathTo nodes i j p) (hj : nodeAt nodes j = some (.leaf y w)) (hq : PathTo nodes i k q)
    (hpq : p <+: q) : k = j := by
  obtain ⟨rest, rfl⟩ := hpq
  obtain ⟨m, hm, hk⟩ := pathTo_append_iff.1 hq
  obtain rfl := hm.functional hp
  rw [hk.nil_of_leaf hj] at hk
  exact pathTo_nil_iff.1 hk

/-! ## `GEN` completes (R160) -/

theorem TreeOver.descending {freq : Vector Count 256} {nodes : List Node} {n : Nat} (h : TreeOver freq nodes n) :
    Descending nodes := fun _ w l r hi =>
  ⟨(h.child_lt (b := false) ⟨w, l, r, hi, rfl⟩).1, (h.child_lt (b := true) ⟨w, l, r, hi, rfl⟩).1⟩

/-- The walk ends, since every link leads to a lesser index; a single leaf needs no walk. -/
theorem Inv.exists_codeEntries {s : State} (h : Inv s) (hp : s.phase ≠ .count) : ∃ es, codeEntries s = some es := by
  have htree := h.tree hp
  have hroot := h.root_succ hp
  by_cases hone : s.nleaf = 1
  · obtain ⟨y, hy, -⟩ := htree.leaf 0 htree.one_le
    have hleaf : nodeAt s.nodes 0 = some (.leaf y ((countOf s.freq y).setWidth 40)) := hy
    exact ⟨_, by rw [codeEntries, if_pos hone, hleaf]⟩
  · obtain ⟨es, hes⟩ := walk_isSome htree.descending s.nodes.length s.root [] (by omega) (by omega)
    exact ⟨es, by rw [codeEntries, if_neg hone, hes]⟩

/-- A command out of its phases raises BadPhase (R241, R243). -/
theorem front_badPhase {s : State} {ok : Bool} {k : Outcome} (he : s.err = none) (hok : ok = false) :
    unlessFault s (inPhase ok s k) = .next (afterError .badPhase s) := by
  rw [unlessFault_none he, hok, inPhase_false, raise_eq_afterError]

/-- Settles O29: the walk of `GEN` ends on a tree, and its entries are the leaves with their codes. -/
theorem genWritesPaths : Obligations.GenWritesPaths := by
  refine ⟨decode_ok_iff.2 rfl, fun s he => ⟨fun hp => ?_, fun hp h => ?_⟩⟩
  · exact front_badPhase he (Bool.eq_false_iff.2 (mt inTree_iff.1 hp))
  · have hne : s.phase ≠ .count := by simp [hp]
    obtain ⟨es, hes⟩ := h.exists_codeEntries hne
    obtain ⟨hsingle, hpath, habsent⟩ := h.codesOf_installCodes hne hes
    exact ⟨tableOf es, (Did.gen he hp hes).exec_eq, hsingle, hpath, habsent⟩

/-! ## The codes of a table (R163, R164) -/

/-- In a tree of one leaf one symbol was counted. -/
theorem TreeOver.counted_unique {freq : Vector Count 256} {nodes : List Node} (h : TreeOver freq nodes 1) {y z : Sym}
    (hy : countOf freq y ≠ 0) (hz : countOf freq z ≠ 0) : y = z := by
  obtain ⟨j, v, hj⟩ := h.exists_leaf hy
  obtain ⟨k, w, hk⟩ := h.exists_leaf hz
  have hjk : j = k := BitVec.eq_of_toNat_eq (by
    have := (h.leaf_counted hj).1
    have := (h.leaf_counted hk).1
    omega)
  obtain ⟨rfl, -⟩ : y = z ∧ v = w := by simpa [hjk, hk] using hj.symm
  rfl

namespace Inv

variable {s : State}

theorem tree_of_single (h : Inv s) (hp : s.phase = .ready) (hone : s.nleaf = 1) : TreeOver s.freq s.nodes 1 := by
  have htree := h.tree (by simp [hp])
  rwa [hone] at htree

theorem bits_ne_nil_iff (h : Inv s) (hp : s.phase = .ready) (y : Sym) :
    (getCode s y).bits ≠ [] ↔ countOf s.freq y ≠ 0 :=
  ⟨mt ((h.codes hp).absent y), fun hy => (h.code_of_counted hp hy).1⟩

/-- The code of a counted symbol is the path of its leaf (R161, R163). -/
theorem exists_leaf_path (h : Inv s) (hp : s.phase = .ready) (hn : s.nleaf ≠ 1) {y : Sym}
    (hy : countOf s.freq y ≠ 0) : ∃ (j : NodeIx) (w : Weight),
      nodeAt s.nodes j = some (.leaf y w) ∧ PathTo s.nodes s.root j (getCode s y).bits := by
  obtain ⟨j, w, hj⟩ := (h.tree (by simp [hp])).exists_leaf hy
  exact ⟨j, w, hj, (h.codes hp).path hn j y w hj⟩

/-- The path of a leaf starts the code of no symbol but its own (R164). -/
theorem eq_of_leaf_prefix (h : Inv s) (hp : s.phase = .ready) (hn : s.nleaf ≠ 1) {j : NodeIx} {p : List Bool}
    {y z : Sym} {w : Weight} (hj : nodeAt s.nodes j = some (.leaf y w)) (hpath : PathTo s.nodes s.root j p)
    (hz : countOf s.freq z ≠ 0) (hpz : p <+: (getCode s z).bits) : z = y := by
  obtain ⟨k, v, hk, hkpath⟩ := h.exists_leaf_path hp hn hz
  obtain rfl := hpath.eq_of_leaf_prefix hj hkpath hpz
  obtain ⟨rfl, -⟩ : z = y ∧ v = w := by simpa using hk.symm.trans hj
  rfl

end Inv

/-- Settles O31: a single leaf leaves no two symbols to compare; otherwise both codes are paths of leaves, and a path
that goes through a leaf ends there. -/
theorem codesArePrefixFree : Obligations.CodesArePrefixFree := by
  intro s h hp y z hyz hy hz hprefix
  rw [h.bits_ne_nil_iff hp] at hy hz
  by_cases hone : s.nleaf = 1
  · exact hyz ((h.tree_of_single hp hone).counted_unique hy hz)
  · obtain ⟨j, w, hj, hpath⟩ := h.exists_leaf_path hp hone hy
    exact hyz (h.eq_of_leaf_prefix hp hone hj hpath hz hprefix).symm

/-! ## The Kraft sum of a table (R166) -/

/-- The Kraft term of a code in units of `2^(-255)`. -/
def kraftUnits (c : CodeRec) : Nat := 2 ^ (255 - c.bits.length)

/-- The symbols whose code begins with `p`: those of the leaves at and below the node with path `p`. -/
def symbolsBelow (s : State) (p : List Bool) : Finset Sym :=
  Finset.univ.filter fun y => (getCode s y).bits ≠ [] ∧ p <+: (getCode s y).bits

theorem mem_symbolsBelow_iff {s : State} {p : List Bool} {y : Sym} :
    y ∈ symbolsBelow s p ↔ (getCode s y).bits ≠ [] ∧ p <+: (getCode s y).bits := by simp [symbolsBelow]

/-- The records of a code table in the order of their symbols (R25). -/
theorem toList_eq_ofFn_getCode (s : State) :
    s.code.toList = List.ofFn fun i : Fin 256 => getCode s (BitVec.ofFin i) := by
  refine List.ext_getElem (by rw [Vector.length_toList, List.length_ofFn]) fun n hn _ => ?_
  rw [List.getElem_ofFn, Vector.getElem_toList]
  rfl

theorem sum_filter_kraftUnits (cs : List CodeRec) : ((cs.filter fun c => !c.bits.isEmpty).map kraftUnits).sum =
    (cs.map fun c => if c.bits ≠ [] then kraftUnits c else 0).sum := by
  induction cs with
  | nil => rfl
  | cons c cs ih => by_cases hc : c.bits = [] <;> simp [hc, ih]

/-- The Kraft sum over the records that hold a code is the one over the symbols that have a code. -/
theorem kraftSum_table_eq (s : State) : ((s.code.toList.filter fun c => !c.bits.isEmpty).map kraftUnits).sum =
    ∑ y ∈ symbolsBelow s [], kraftUnits (getCode s y) := by
  rw [sum_filter_kraftUnits, toList_eq_ofFn_getCode, List.map_ofFn, List.sum_ofFn, symbolsBelow, Finset.sum_filter]
  simp only [List.nil_prefix, and_true]
  exact (Fintype.sum_equiv (BitVec.equivFin (m := 8)).toEquiv _ _ fun _ => rfl).symm

theorem disjoint_symbolsBelow (s : State) (p : List Bool) :
    Disjoint (symbolsBelow s (p ++ [false])) (symbolsBelow s (p ++ [true])) := by
  refine Finset.disjoint_left.2 fun y hfalse htrue => ?_
  have hboth := List.prefix_of_prefix_length_le (mem_symbolsBelow_iff.1 hfalse).2 (mem_symbolsBelow_iff.1 htrue).2
    (by simp)
  simp at hboth

namespace Inv

variable {s : State}

/-- In a tree of one leaf the one symbol with a code is that of the leaf, and its code is "0" (R162). -/
theorem code_of_single (h : Inv s) (hp : s.phase = .ready) (hone : s.nleaf = 1) :
    ∃ y : Sym, symbolsBelow s [] = {y} ∧ (getCode s y).bits = [false] := by
  have htree := h.tree_of_single hp hone
  obtain ⟨y, hy, hcount⟩ := htree.leaf 0 Nat.zero_lt_one
  refine ⟨y, ?_, (h.codes hp).single hone y _ hy⟩
  ext z
  rw [mem_symbolsBelow_iff, h.bits_ne_nil_iff hp, Finset.mem_singleton]
  constructor
  · rintro ⟨hz, -⟩
    exact htree.counted_unique hz hcount
  · rintro rfl
    exact ⟨hcount, List.nil_prefix⟩

/-- At a leaf only its own symbol is left (R164). -/
theorem symbolsBelow_leaf (h : Inv s) (hp : s.phase = .ready) (hn : s.nleaf ≠ 1) {i : NodeIx} {p : List Bool}
    {y : Sym} {w : Weight} (hpath : PathTo s.nodes s.root i p) (hi : nodeAt s.nodes i = some (.leaf y w)) :
    symbolsBelow s p = {y} ∧ (getCode s y).bits = p := by
  have hne : s.phase ≠ .count := by simp [hp]
  have hbits : (getCode s y).bits = p :=
    (h.tree hne).path_unique (h.root_succ hne) ((h.codes hp).path hn i y w hi) hpath
  refine ⟨?_, hbits⟩
  ext z
  rw [mem_symbolsBelow_iff, h.bits_ne_nil_iff hp, Finset.mem_singleton]
  constructor
  · rintro ⟨hz, hpz⟩
    exact h.eq_of_leaf_prefix hp hn hi hpath hz hpz
  · rintro rfl
    exact ⟨((h.tree hne).leaf_counted hi).2.1, hbits ▸ List.prefix_rfl⟩

/-- Below an internal node every code goes on with a 0 or with a 1. -/
theorem symbolsBelow_internal (h : Inv s) (hp : s.phase = .ready) (hn : s.nleaf ≠ 1) {i : NodeIx} {p : List Bool}
    {w : Weight} {l r : NodeIx} (hpath : PathTo s.nodes s.root i p) (hi : nodeAt s.nodes i = some (.internal w l r)) :
    symbolsBelow s p = symbolsBelow s (p ++ [false]) ∪ symbolsBelow s (p ++ [true]) := by
  ext y
  simp only [Finset.mem_union, mem_symbolsBelow_iff, ← and_or_left]
  refine and_congr_right fun hy => ⟨fun ⟨rest, hrest⟩ => ?_, fun hor => ?_⟩
  · cases rest with
    | nil =>
      obtain ⟨j, v, hj, hjpath⟩ := h.exists_leaf_path hp hn ((h.bits_ne_nil_iff hp y).1 hy)
      rw [← hrest, List.append_nil] at hjpath
      rw [hjpath.functional hpath, hi] at hj
      exact absurd hj (by simp)
    | cons b rest =>
      have hb : p ++ [b] <+: (getCode s y).bits := ⟨rest, by simpa using hrest⟩
      cases b
      · exact .inl hb
      · exact .inr hb
  · exact hor.elim (List.prefix_append p _).trans (List.prefix_append p _).trans

/-- The codes below a node fill the share that its path has in Kraft's sum: a leaf has it alone, and an internal node
divides it between its two children. -/
theorem sum_kraftUnits_below (h : Inv s) (hp : s.phase = .ready) (hn : s.nleaf ≠ 1) (i : NodeIx) (p : List Bool)
    (hpath : PathTo s.nodes s.root i p) :
    ∑ y ∈ symbolsBelow s p, kraftUnits (getCode s y) = 2 ^ (255 - p.length) := by
  have hne : s.phase ≠ .count := by simp [hp]
  have htree := h.tree hne
  have hroot := h.root_succ hne
  cases hi : nodeAt s.nodes i with
  | none =>
    have := (htree.path_length_le hroot hpath).1
    have := List.getElem?_eq_none_iff.1 hi
    have := htree.length_eq
    have := htree.one_le
    omega
  | some node =>
    cases node with
    | leaf y w =>
      obtain ⟨hbelow, hbits⟩ := h.symbolsBelow_leaf hp hn hpath hi
      rw [hbelow, Finset.sum_singleton, kraftUnits, hbits]
    | internal w l r =>
      obtain ⟨hl, hr⟩ := htree.descending i w l r hi
      have hshort : p.length + 1 ≤ 255 := by
        have hlen := (htree.path_length_le hroot (.left hpath hi)).2
        rw [List.length_append, List.length_singleton] at hlen
        have := htree.le_nsym
        omega
      have hexp : 255 - p.length = 255 - (p.length + 1) + 1 := by omega
      rw [h.symbolsBelow_internal hp hn hpath hi, Finset.sum_union (disjoint_symbolsBelow s p),
        sum_kraftUnits_below h hp hn l _ (.left hpath hi), sum_kraftUnits_below h hp hn r _ (.right hpath hi),
        List.length_append, List.length_append, List.length_singleton, List.length_singleton, hexp, Nat.pow_succ,
        Nat.mul_two]
termination_by i.toNat

theorem codeLen_eq (h : Inv s) (hp : s.phase = .ready) (y : Sym) :
    (codeLen (getCode s y)).toNat = (getCode s y).bits.length := by
  have hlt : (getCode s y).bits.length < 256 := by
    by_cases hy : countOf s.freq y = 0
    · rw [(h.codes hp).absent y hy]
      decide
    · exact (h.code_of_counted hp hy).2
  rw [codeLen, BitVec.toNat_ofNat, Nat.mod_eq_of_lt hlt]

end Inv

/-- Settles O32: a path has no more bits than there are internal nodes, and the codes below the root fill the whole of
Kraft's sum; the code of a single leaf fills half of it. -/
theorem codeLengthsAndKraftSum : Obligations.CodeLengthsAndKraftSum := by
  intro s h hp
  refine ⟨h.codeLen_eq hp, fun htwo => ?_, fun hone => ?_⟩
  · have hne : s.phase ≠ .count := by simp [hp]
    have hn : s.nleaf ≠ 1 := fun hone => by simp [hone] at htwo
    refine ⟨fun y hy => ⟨List.length_pos_iff.2 hy, ?_⟩, ?_⟩
    · obtain ⟨j, w, -, hpath⟩ := h.exists_leaf_path hp hn ((h.bits_ne_nil_iff hp y).1 hy)
      exact ((h.tree hne).path_length_le (h.root_succ hne) hpath).2
    · exact (kraftSum_table_eq s).trans (h.sum_kraftUnits_below hp hn s.root [] .root)
  · obtain ⟨y, hbelow, hbits⟩ := h.code_of_single hp hone
    refine ⟨fun z hz => ?_, (kraftSum_table_eq s).trans ?_⟩
    · have hz : z ∈ symbolsBelow s [] := mem_symbolsBelow_iff.2 ⟨hz, List.nil_prefix⟩
      rw [hbelow, Finset.mem_singleton] at hz
      rw [hz, hbits, List.length_singleton]
    · rw [hbelow, Finset.sum_singleton, kraftUnits, hbits, List.length_singleton]

end Sys2Proof.Machine

/-!
PROOFS. The serializer (spec/43_encode.md): what `ENC` and `ENCEND` answer and write (R175, R176), and that a session is
the codes of its symbols one after the other (R177).
-/

namespace Sys2Proof.Machine

variable {y : Sym} {s : State}

/-! ## The word of a command with a symbol operand (R90, R92) -/

/-- The operand stands below `opc` and `fn`, so that adding it carries into neither. -/
theorem word_symArg_eq_add (o : BitVec 4) (n : BitVec 3) (y : Sym) :
    Fields.word ⟨o, n, symArg y⟩ = (o ++ n ++ (0 : BitVec 9)) + y.setWidth 16 := by
  have hwide : (y.setWidth 16 : Word) = (0 : BitVec 7) ++ symArg y := by
    rw [symArg_eq, append_assoc_cast]
    exact setWidth_eq_zero_append 8 y
  have hdisjoint : (o ++ n ++ (0 : BitVec 9)) &&& ((0 : BitVec 7) ++ symArg y) = 0 := by
    rw [BitVec.and_append]
    simp
  rw [hwide, BitVec.add_eq_or_of_and_eq_zero _ _ hdisjoint, BitVec.or_append, Fields.word]
  simp

theorem encode_enc (y : Sym) : encode (.enc y) = 0x5000 + y.setWidth 16 := word_symArg_eq_add 5 0 y

/-! ## `ENC` and `ENCEND` (R175, R176) -/

/-- The state after `ENC y` has emitted a code (R175). -/
def afterEnc (y : Sym) (s : State) : State :=
  { s with
    encOpen := true
    bitOut := s.bitOut ++ (getCode s y).bits.map bitWord
    rsp := s.rsp ++ [okWord ((0 : BitVec 32) ++ codeLen (getCode s y))] }

theorem inReady_eq_false (hp : s.phase ≠ .ready) : inReady s = false := Bool.eq_false_iff.2 (mt inReady_iff.1 hp)

theorem exec_enc_of_no_code (he : s.err = none) (hp : s.phase = .ready) (hc : codeLen (getCode s y) = 0) :
    exec (.enc y) s = .next (afterError .unknownSymbol s) := by
  rw [← raise_eq_afterError]
  exact (front_pass he (inReady_iff.2 hp)).trans (if_pos hc)

theorem exec_enc_of_code (he : s.err = none) (hp : s.phase = .ready) (hc : codeLen (getCode s y) ≠ 0) :
    exec (.enc y) s = .next (afterEnc y s) := by
  rw [(Did.enc he hp hc).exec_eq, respond_ok, length_data]
  simp only [emitBits, bit_word, afterEnc]

/-- Settles O34: the two checks of `ENC`, and its effect when a code stands in the table. -/
theorem encEffect : Obligations.EncEffect :=
  ⟨fun y => decode_ok_iff.2 (encode_enc y), fun _ _ he =>
    ⟨fun hp => front_badPhase he (inReady_eq_false hp), exec_enc_of_no_code he, exec_enc_of_code he⟩⟩

/-- Settles O35: `ENCEND` checks the phase only, and not whether a session is open. -/
theorem encendEffect : Obligations.EncendEffect :=
  ⟨decode_ok_iff.2 rfl, fun _ he =>
    ⟨fun hp => front_badPhase he (inReady_eq_false hp), fun hp => (Did.encend he hp).exec_eq⟩⟩

/-! ## A session (R177) -/

/-- The state after a session has emitted the codes of its symbols (R177). -/
def afterSession (input : List Sym) (s : State) : State :=
  { s with
    encOpen := s.encOpen || !input.isEmpty
    bitOut := s.bitOut ++ (input.flatMap fun y => (getCode s y).bits).map bitWord
    rsp := s.rsp ++ input.map fun y => okWord ((0 : BitVec 32) ++ codeLen (getCode s y)) }

theorem execAll_cons_of_next {i : Instr} {t : State} (h : exec i s = .next t) (rest : List Instr) :
    execAll (i :: rest) s = execAll rest t := by
  rw [execAll, h]

@[simp] theorem afterSession_nil (s : State) : afterSession [] s = s := by simp [afterSession]

/-- `ENC` reads CODE and does not change it (R175). -/
@[simp] theorem getCode_afterEnc (y z : Sym) (s : State) : getCode (afterEnc y s) z = getCode s z := rfl

/-- The codes of the rest of a session are those of the state it began in. -/
theorem afterSession_afterEnc (rest : List Sym) (y : Sym) (s : State) :
    afterSession rest (afterEnc y s) = afterSession (y :: rest) s := by
  simp only [afterSession, getCode_afterEnc]
  simp [afterEnc]

/-- Settles O36, by induction on the input: each `ENC` leaves a state from which the rest of the session runs. -/
theorem sessionIsConcatenation : Obligations.SessionIsConcatenation := by
  intro input s he hp hcodes
  change execAll (encs input) s = .next (afterSession input s)
  induction input generalizing s with
  | nil => rw [afterSession_nil]; rfl
  | cons y rest ih =>
    rw [List.forall_mem_cons] at hcodes
    obtain ⟨hy, hrest⟩ := hcodes
    calc execAll (encs (y :: rest)) s
        = execAll (encs rest) (afterEnc y s) := execAll_cons_of_next (exec_enc_of_code he hp hy) _
      _ = .next (afterSession rest (afterEnc y s)) := ih _ he hp hrest
      _ = .next (afterSession (y :: rest) s) := by rw [afterSession_afterEnc]

end Sys2Proof.Machine

/-!
PROOFS. The deserializer (spec/44_decode.md): what `DEC` and `DECEND` answer and write (R190 to R192), that the bits of
a path lead the cursor along it (R193), what becomes of a stream cut short (R195), and the round-trip law (R194).
-/

namespace Sys2Proof.Machine

/-! ## Runs of commands (R68) -/

theorem execAll_append {is : List Instr} {s t : State} (h : execAll is s = .next t) (js : List Instr) :
    execAll (is ++ js) s = execAll js t := by
  induction is generalizing s with
  | nil =>
    obtain rfl := Host.Outcome.next.inj h
    rfl
  | cons i rest ih =>
    obtain ⟨u, hi, hrest⟩ := execAll_cons h
    exact (execAll_cons_of_next hi _).trans (ih hrest)

theorem execAll_concat {is : List Instr} {i : Instr} {s t u : State} (h : execAll is s = .next t)
    (hi : exec i t = .next u) : execAll (is ++ [i]) s = .next u :=
  (execAll_append h [i]).trans (execAll_cons_of_next hi [])

/-- A command that goes on keeps the invariants of R41. -/
theorem Inv.after_exec {s t : State} {i : Instr} (h : Inv s) (hi : exec i s = .next t) : Inv t := by
  rcases exec_next hi with ⟨-, -, -, rfl⟩ | ⟨-, e, rfl⟩ | hdid
  · exact h.after_respond _ _
  · exact h.after_raise e
  · exact h.after_did hdid

theorem Inv.after_execAll {is : List Instr} {s t : State} (h : Inv s) (hrun : execAll is s = .next t) : Inv t := by
  induction is generalizing s with
  | nil =>
    obtain rfl := Host.Outcome.next.inj hrun
    exact h
  | cons i rest ih =>
    obtain ⟨u, hi, hrest⟩ := execAll_cons hrun
    exact ih (h.after_exec hi) hrest

/-- A command that did what it is for answers OK (R101). -/
theorem Did.rsp_eq {s t : State} {i : Instr} (h : Did s i t) : ∃ d : Data, t.rsp = s.rsp ++ [okWord d] := by
  cases h with
  | clr => exact ⟨0, by simp⟩
  | cnt _ _ _ | bld _ _ _ | gen _ _ _ | enc _ _ _ | encend _ _ | decSingle _ _ _ _ | decLeaf _ _ _ _ _
  | decInside _ _ _ _ _ | decend _ _ _ | rds | rdf _ | rdl _ | rdnw _ | rdnl _ => exact ⟨_, rfl⟩

/-- Only `CLR` leads out of fault, so any other command that leaves ERR = 0 did what it is for (R246). -/
theorem did_of_not_clr {s t : State} {i : Instr} (h : exec i s = .next t) (hclr : i ≠ .clr) (ht : t.err = none) :
    s.err = none ∧ Did s i t := by
  rcases exec_next h with ⟨he, -, -, rfl⟩ | ⟨-, e, rfl⟩ | hdid
  · exact absurd ht he
  · exact absurd ht (by simp)
  · rcases hdid.err_eq with ⟨hc, -⟩ | ⟨-, he⟩
    · exact absurd hc hclr
    · exact ⟨he.symm.trans ht, hdid⟩

/-- A run without `CLR` that ends with ERR = 0 answered OK to every command. -/
theorem execAll_answersOk {is : List Instr} {s t : State} (hclr : Instr.clr ∉ is) (h : execAll is s = .next t)
    (ht : t.err = none) :
    s.err = none ∧ ∃ ds : List Data, ds.length = is.length ∧ t.rsp = s.rsp ++ ds.map okWord := by
  induction is generalizing s with
  | nil =>
    obtain rfl := Host.Outcome.next.inj h
    exact ⟨ht, [], rfl, (List.append_nil _).symm⟩
  | cons i rest ih =>
    obtain ⟨u, hi, hrest⟩ := execAll_cons h
    obtain ⟨hne, hmem⟩ := not_or.1 (mt List.mem_cons.2 hclr)
    obtain ⟨hu, ds, hlen, hds⟩ := ih hmem hrest
    obtain ⟨hs, hdid⟩ := did_of_not_clr hi (Ne.symm hne) hu
    obtain ⟨d, hd⟩ := hdid.rsp_eq
    exact ⟨hs, d :: ds, by simp [hlen], by simp [hds, hd]⟩

/-! ## `DEC` and `DECEND` (R190, R191) -/

variable {s : State} {b : Bool} {i : NodeIx} {p : List Bool} {y : Sym}

theorem hasTree_eq_false (hp : s.phase = .count) : hasTree s = false :=
  Bool.eq_false_iff.2 fun h => hasTree_iff.1 h hp

theorem exec_dec_single {w : Weight} (he : s.err = none) (hp : s.phase ≠ .count) (hn : s.nleaf = 1)
    (hr : nodeAt s.nodes s.root = some (.leaf y w)) : exec (.dec b) s = .next { s with
      decOpen := true
      symOut := s.symOut ++ [symWord y]
      rsp := s.rsp ++ [okWord ((0 : BitVec 31) ++ (1 : BitVec 1) ++ y)] } := by
  rw [(Did.decSingle he hp hn hr).exec_eq, symbolData_eq]
  rfl

theorem exec_dec_leaf {w v : Weight} {l r : NodeIx} (he : s.err = none) (hp : s.phase ≠ .count) (hn : s.nleaf ≠ 1)
    (hc : nodeAt s.nodes s.cur = some (.internal w l r))
    (hv : nodeAt s.nodes (if b then r else l) = some (.leaf y v)) : exec (.dec b) s = .next { s with
      cur := s.root
      decOpen := true
      symOut := s.symOut ++ [symWord y]
      rsp := s.rsp ++ [okWord ((0 : BitVec 31) ++ (1 : BitVec 1) ++ y)] } := by
  rw [(Did.decLeaf he hp hn hc hv).exec_eq, landOnLeaf, symbolData_eq]
  rfl

/-- Settles O37: out of phase COUNT, `DEC` reads the single leaf, or the child that the bit selects. -/
theorem decEffect : Obligations.DecEffect := by
  refine ⟨decode_ok_iff.2 rfl, decode_ok_iff.2 rfl, fun b s he =>
    ⟨fun hp => front_badPhase he (hasTree_eq_false hp), fun y v => exec_dec_single he, ?_⟩⟩
  rintro w l r c hp hn hc rfl
  exact ⟨fun y v => exec_dec_leaf he hp hn hc, fun v l' r' hv => (Did.decInside he hp hn hc hv).exec_eq⟩

theorem exec_decend_inside (he : s.err = none) (hp : s.phase ≠ .count) (hc : s.cur ≠ s.root) :
    exec .decend s = .next (afterError .malformedStream s) := by
  rw [← raise_eq_afterError]
  exact (front_pass he (hasTree_iff.2 hp)).trans (if_pos hc)

theorem exec_decend_at_root (he : s.err = none) (hp : s.phase ≠ .count) (hc : s.cur = s.root) :
    exec .decend s = .next { s with
      decOpen := false, symOut := s.symOut ++ [endWord], rsp := s.rsp ++ [okWord 0] } :=
  (Did.decend he hp hc).exec_eq

/-- Settles O38: `DECEND` checks the phase, and then that the cursor is at the root. -/
theorem decendEffect : Obligations.DecendEffect :=
  ⟨decode_ok_iff.2 rfl, fun _ he =>
    ⟨fun hp => front_badPhase he (hasTree_eq_false hp), exec_decend_inside he, exec_decend_at_root he⟩⟩

/-! ## Decoding along a path (R190, R193) -/

/-- A path that ends at an internal node starts at one. -/
theorem PathTo.internal_of_internal {nodes : List Node} {i j : NodeIx} {p : List Bool} {w : Weight} {l r : NodeIx}
    (h : PathTo nodes i j p) (hj : nodeAt nodes j = some (.internal w l r)) :
    ∃ (v : Weight) (l' r' : NodeIx), nodeAt nodes i = some (.internal v l' r') := by
  cases p with
  | nil => exact ⟨w, l, r, pathTo_nil_iff.1 h ▸ hj⟩
  | cons b p =>
    obtain ⟨v, l', r', hi, -⟩ := pathTo_cons_iff.1 h
    exact ⟨v, l', r', hi⟩

/-- The bits of a path from the cursor to an internal node lead the cursor there, past internal nodes only. -/
theorem execAll_decs_inside {w : Weight} {l r : NodeIx} (he : s.err = none) (hp : s.phase ≠ .count)
    (hn : s.nleaf ≠ 1) (hpath : PathTo s.nodes s.cur i p) (hi : nodeAt s.nodes i = some (.internal w l r)) :
    ∃ rsp, execAll (decs p) s = .next { s with cur := i, decOpen := s.decOpen || !p.isEmpty, rsp := rsp } := by
  induction p generalizing s with
  | nil =>
    obtain rfl := pathTo_nil_iff.1 hpath
    exact ⟨s.rsp, by simp [decs, execAll]⟩
  | cons b p ih =>
    obtain ⟨v, l', r', hc, hrest⟩ := pathTo_cons_iff.1 hpath
    obtain ⟨v', l'', r'', hchild⟩ := hrest.internal_of_internal hi
    have hfirst := (Did.decInside he hp hn hc hchild).exec_eq
    obtain ⟨rsp, hrun⟩ := ih (s := landInside (if b then r' else l') s) he hp hn hrest hi
    refine ⟨rsp, (execAll_cons_of_next hfirst (decs p)).trans (hrun.trans ?_)⟩
    simp [landInside, respond]

/-- The bits of a path from the cursor to a leaf below it emit the symbol of the leaf, and the cursor goes to the
root. -/
theorem execAll_decs_leaf {w : Weight} (he : s.err = none) (hp : s.phase ≠ .count) (hn : s.nleaf ≠ 1)
    (hpath : PathTo s.nodes s.cur i p) (hi : nodeAt s.nodes i = some (.leaf y w)) (hne : p ≠ []) :
    ∃ rsp, execAll (decs p) s =
      .next { s with cur := s.root, decOpen := true, symOut := s.symOut ++ [symWord y], rsp := rsp } := by
  obtain ⟨p, b, rfl⟩ := (List.eq_nil_or_concat' p).resolve_left hne
  obtain ⟨k, hk, v, l, r, hnode, rfl⟩ := pathTo_concat_iff.1 hpath
  obtain ⟨rsp, hrun⟩ := execAll_decs_inside he hp hn hk hnode
  rw [decs, List.map_append]
  exact ⟨_, execAll_concat hrun (exec_dec_leaf he hp hn hnode hi)⟩

/-- Settles O39: the cursor starts at the root, where every path starts. -/
theorem decRetracesPaths : Obligations.DecRetracesPaths := by
  intro s _ he hp hn hc i p hpath hne
  rw [← hc] at hpath
  refine ⟨fun w l r hi => ?_, fun y w hi => ?_⟩
  · obtain ⟨rsp, hrun⟩ := execAll_decs_inside he hp hn hpath hi
    exact ⟨_, hrun, by simp [hne]⟩
  · obtain ⟨rsp, hrun⟩ := execAll_decs_leaf he hp hn hpath hi hne
    exact ⟨_, hrun, by rw [← hc]⟩

/-! ## A stream cut inside a code (R195) -/

/-- Settles O40: a proper part of a code leads to an internal node, which is not the root, since the root has the empty
path only. -/
theorem truncationInsideCodeIsDetected : Obligations.TruncationInsideCodeIsDetected := by
  intro s h he hp hn hc y p q hbits hpne hqne
  have hne : s.phase ≠ .count := by simp [hp]
  have hcounted : countOf s.freq y ≠ 0 := (h.bits_ne_nil_iff hp y).1 (by simp [hbits, hpne])
  obtain ⟨j, w, -, hpath⟩ := h.exists_leaf_path hp hn hcounted
  rw [hbits] at hpath
  obtain ⟨k, hk, hrest⟩ := pathTo_append_iff.1 hpath
  obtain ⟨c, q, rfl⟩ := List.exists_cons_of_ne_nil hqne
  obtain ⟨v, l, r, hinside, -⟩ := pathTo_cons_iff.1 hrest
  have hkroot : k ≠ s.root := fun hkr =>
    hpne ((h.tree hne).path_unique (h.root_succ hne) (hkr ▸ hk) .root)
  obtain ⟨rsp, hrun⟩ := execAll_decs_inside he hne hn (hc ▸ hk) hinside
  exact ⟨_, hrun, rfl, exec_decend_inside he hne hkroot⟩

/-! ## The round-trip law (R194) -/

/-- A state in which the symbols of `input` can be encoded and decoded: they were counted, the tables were made from
the counts, and the cursor is at the root. -/
structure ReadyFor (input : List Sym) (s : State) : Prop where
  inv : Inv s
  err : s.err = none
  phase : s.phase = .ready
  cursor : s.cur = s.root
  counted : ∀ y ∈ input, countOf s.freq y ≠ 0

/-- The bits that a session emits for `input` (R177). -/
def sessionBits (input : List Sym) (s : State) : List Bool := input.flatMap fun y => (getCode s y).bits

/-- The code of a counted symbol decodes to that symbol, and the cursor is back at the root (R190, R192). -/
theorem execAll_decs_code {input : List Sym} (h : ReadyFor input s) (hy : y ∈ input) : ∃ rsp,
    execAll (decs (getCode s y).bits) s =
      .next { s with decOpen := true, symOut := s.symOut ++ [symWord y], rsp := rsp } := by
  obtain ⟨hinv, he, hp, hc, hcounted⟩ := h
  have hne : s.phase ≠ .count := by simp [hp]
  by_cases hn : s.nleaf = 1
  · obtain ⟨j, w, hj⟩ := (hinv.tree hne).exists_leaf (hcounted y hy)
    obtain rfl : j = 0 := BitVec.eq_of_toNat_eq (by
      have := ((hinv.tree hne).leaf_counted hj).1
      rw [hn] at this
      simpa using this)
    rw [(hinv.codes hp).single hn y w hj]
    rw [← (hinv.cursor_single hn).2] at hj
    exact ⟨_, execAll_cons_of_next (exec_dec_single he hne hn hj) []⟩
  · obtain ⟨j, w, hj, hpath⟩ := hinv.exists_leaf_path hp hn (hcounted y hy)
    have hbits := (hinv.code_of_counted hp (hcounted y hy)).1
    obtain ⟨rsp, hrun⟩ := execAll_decs_leaf he hne hn (hc ▸ hpath) hj hbits
    exact ⟨rsp, by rw [hrun, ← hc]⟩

/-- The bits of a session decode to its symbols, by induction on them: every code leaves the cursor at the root. -/
theorem execAll_decs_session {input : List Sym} (h : ReadyFor input s) : ∃ rsp,
    execAll (decs (sessionBits input s)) s = .next { s with
      decOpen := s.decOpen || !input.isEmpty, symOut := s.symOut ++ input.map symWord, rsp := rsp } := by
  induction input generalizing s with
  | nil => exact ⟨s.rsp, by simp [sessionBits, decs, execAll]⟩
  | cons y rest ih =>
    obtain ⟨rsp, hfirst⟩ := execAll_decs_code h List.mem_cons_self
    obtain ⟨rsp', hrest⟩ := ih ⟨h.inv.after_execAll hfirst, h.err, h.phase, h.cursor,
      fun z hz => h.counted z (List.mem_cons_of_mem y hz)⟩
    refine ⟨rsp', ?_⟩
    rw [sessionBits, List.flatMap_cons, decs, List.map_append]
    refine (execAll_append hfirst _).trans (hrest.trans ?_)
    simp

/-- `CNT` commands that stay within the range of the counters add up (R120, R121). -/
theorem execAll_cnts {input : List Sym} (he : s.err = none) (hp : s.phase = .count)
    (hfits : ∀ y, (countOf s.freq y).toNat + input.count y < 2 ^ 32) : ∃ freq rsp,
    execAll (cnts input) s = .next { s with freq := freq, rsp := rsp } ∧
      ∀ y, (countOf freq y).toNat = (countOf s.freq y).toNat + input.count y := by
  induction input generalizing s with
  | nil => exact ⟨s.freq, s.rsp, rfl, fun _ => rfl⟩
  | cons z rest ih =>
    have hz : (countOf s.freq z).toNat + 1 < 2 ^ 32 := by
      have := hfits z
      rw [List.count_cons_self] at this
      omega
    have hfull : countOf s.freq z ≠ Config.freqMax Config.freqW :=
      mt (eq_freqMax_iff le_rfl (BitVec.isLt _)).1 (not_le.2 hz)
    have hfirst := (Did.cnt he hp hfull).exec_eq
    have hcount : ∀ y, (countOf (setFreq z (countOf s.freq z + 1) s).freq y).toNat + rest.count y =
        (countOf s.freq y).toNat + (z :: rest).count y := by
      intro y
      by_cases hyz : y = z
      · rw [hyz, toNat_countOf_setFreq_increment hz, List.count_cons_self]
        omega
      · rw [List.count_cons_of_ne (Ne.symm hyz), countOf_setFreq_other _ hyz]
    obtain ⟨freq, rsp, hrun, hfreq⟩ := ih (s := respond .ok _ (setFreq z (getFreq s z + 1) s)) he hp
      fun y => (hcount y).trans_lt (hfits y)
    exact ⟨freq, rsp, (execAll_cons_of_next hfirst (cnts rest)).trans hrun, fun y => (hfreq y).trans (hcount y)⟩

/-- `BLD` and `GEN` complete on counted symbols (R130, R160). -/
theorem execAll_bld_gen (h : Inv s) (he : s.err = none) (hp : s.phase = .count) (hy : countOf s.freq y ≠ 0) :
    ∃ es, execAll [.bld, .gen] s = .next (installCodes es (afterBuild s)) := by
  have hbld := exec_bld_of_counted he hp ((leafScan_ne_nil_iff _).2 ⟨y, hy⟩)
  obtain ⟨es, hes⟩ := (h.after_exec hbld).exists_codeEntries nofun
  have hgen := (Did.gen (s := afterBuild s) he rfl hes).exec_eq
  exact ⟨es, (execAll_cons_of_next hbld _).trans (execAll_cons_of_next hgen [])⟩

/-- The compress job up to its session: every counter holds the number of occurrences of its symbol, and the tables are
made from them. -/
theorem execAll_prepare {input : List Sym} (hne : input ≠ []) (hfits : ∀ y : Sym, input.count y ≤ 2 ^ 32 - 1) :
    ∃ s, execAll ([.clr] ++ cnts input ++ [.bld, .gen]) State.reset = .next s ∧ ReadyFor input s ∧
      s.bitOut = [] ∧ s.symOut = [] := by
  have hclr : execAll [.clr] State.reset = .next (respond .ok 0 State.reset) := rfl
  have hzero : ∀ y, (countOf State.reset.freq y).toNat = 0 := by simp [countOf, State.reset]
  have hcnts := execAll_cnts (s := respond .ok 0 State.reset) (input := input) rfl rfl
  simp only [respond_freq, hzero, Nat.zero_add] at hcnts
  obtain ⟨freq, rsp, hcnts, hfreq⟩ := hcnts fun y => by have := hfits y; omega
  have hcounted : ∀ y ∈ input, countOf freq y ≠ 0 := fun y hy hc =>
    (List.count_pos_iff.2 hy).ne ((congrArg BitVec.toNat hc).symm.trans (hfreq y))
  have hrun := (execAll_append hclr (cnts input)).trans hcnts
  obtain ⟨es, hmade⟩ := execAll_bld_gen (Inv.at_reset.after_execAll hrun) rfl rfl (hcounted _ (List.head_mem hne))
  have hrun := (execAll_append hrun _).trans hmade
  exact ⟨_, hrun, ⟨Inv.at_reset.after_execAll hrun, rfl, rfl, rfl, hcounted⟩, rfl, rfl⟩

/-- The compress job completes, and leaves the bits of its session and a `CLOSE` (R177, R283). -/
theorem execAll_compressJob {input : List Sym} (hne : input ≠ []) (hfits : ∀ y : Sym, input.count y ≤ 2 ^ 32 - 1) :
    ∃ t, execAll (compressJob input) State.reset = .next t ∧ ReadyFor input t ∧
      t.bitOut = (sessionBits input t).map bitWord ++ [closeWord] ∧ t.symOut = [] := by
  obtain ⟨s, hprepare, hready, hbit, hsym⟩ := execAll_prepare hne hfits
  have hsession := sessionIsConcatenation input s hready.err hready.phase fun y hy =>
    (hready.inv.codeLen_ne_zero_iff hready.phase y).2 (hready.counted y hy)
  have hencend := (Did.encend (s := afterSession input s) hready.err hready.phase).exec_eq
  have hrun : execAll (compressJob input) State.reset = .next (closeBits (afterSession input s)) :=
    execAll_concat ((execAll_append hprepare (encs input)).trans hsession) hencend
  have hready' : ReadyFor input (closeBits (afterSession input s)) :=
    ⟨Inv.at_reset.after_execAll hrun, hready.err, hready.phase, hready.cursor, hready.counted⟩
  refine ⟨_, hrun, hready', ?_, hsym⟩
  rw [closeBits_bitOut, close_word, afterSession, hbit]
  rfl

/-- The decompress job of the bits of a session completes, and leaves the symbols and `END` (R283). -/
theorem execAll_decompressJob {input : List Sym} (h : ReadyFor input s) : ∃ u,
    execAll (decompressJob (sessionBits input s)) s = .next u ∧ u.err = none ∧
      u.symOut = s.symOut ++ input.map symWord ++ [endWord] ∧ u.bitOut = s.bitOut := by
  obtain ⟨rsp, hsession⟩ := execAll_decs_session h
  exact ⟨_, execAll_concat hsession (exec_decend_at_root h.err (by simp [h.phase]) h.cursor), h.err, rfl, rfl⟩

/-- From reset, a compress job that ends with ERR = 0 answered OK to every command, to its `CLR` too. -/
theorem compressJob_answersOk {input : List Sym} {t : State}
    (h : execAll (compressJob input) State.reset = .next t) (ht : t.err = none) :
    ∃ ds : List Data, ds.length = (compressJob input).length ∧ t.rsp = ds.map okWord := by
  have hjob : compressJob input = .clr :: (cnts input ++ [.bld, .gen] ++ encs input ++ [.encend]) := rfl
  rw [hjob] at h ⊢
  have hclr : exec .clr State.reset = .next (respond .ok 0 State.reset) := rfl
  rw [execAll_cons_of_next hclr] at h
  obtain ⟨-, ds, hlen, hds⟩ := execAll_answersOk (by simp [cnts, encs]) h ht
  exact ⟨0 :: ds, by rw [List.length_cons, hlen, List.length_cons], hds⟩

/-- Settles O41: the compress job leaves the codes of the input, with the tables they were taken from in place, and the
decompress job decodes code after code; both end with ERR = 0, so that every response is OK. -/
theorem roundTrip : Obligations.RoundTrip := by
  intro input hne hfits
  obtain ⟨t, hcompress, hready, htbit, htsym⟩ := execAll_compressJob hne hfits
  obtain ⟨u, hdecompress, hu, husym, hubit⟩ := execAll_decompressJob hready
  obtain ⟨ds, hdslen, hds⟩ := compressJob_answersOk hcompress hready.err
  obtain ⟨-, es, heslen, hes⟩ := execAll_answersOk (by simp [decompressJob, decs]) hdecompress hu
  rw [hds, ← List.map_append] at hes
  have hok (l : List Data) : ∀ q ∈ l.map okWord, ∃ d, q = okWord d := by simp
  refine ⟨t, sessionBits input t, hcompress, ?_, hds ▸ hok ds, htbit, htsym,
    u, hdecompress, ?_, hes ▸ hok _, ?_, hubit⟩
  · rw [hds, List.length_map, hdslen]
  · rw [hes, hds, List.length_map, List.length_map, List.length_append, heslen]
  · rw [husym, htsym, List.nil_append]

end Sys2Proof.Machine

/-!
PROOFS. Control and read-back (spec/45_control.md): what `CLR` and `FAIL` write (R210, R211), and what the five
read-back commands answer (R212 to R216).
-/

namespace Sys2Proof.Machine

variable {s : State} {i : NodeIx} {y : Sym}

/-! ## The words of the commands with a symbol or an index operand (R90, R92) -/

theorem encode_rdf (y : Sym) : encode (.rdf y) = 0xA200 + y.setWidth 16 := word_symArg_eq_add 0xA 1 y

theorem encode_rdl (y : Sym) : encode (.rdl y) = 0xA400 + y.setWidth 16 := word_symArg_eq_add 0xA 2 y

/-- An operand that takes the whole field adds below `opc` and `fn` too. -/
theorem word_eq_add (o : BitVec 4) (n : BitVec 3) (a : BitVec 9) :
    Fields.word ⟨o, n, a⟩ = (o ++ n ++ (0 : BitVec 9)) + a.setWidth 16 := by
  have hwide : (a.setWidth 16 : Word) = (0 : BitVec 7) ++ a := setWidth_eq_zero_append 7 a
  have hdisjoint : (o ++ n ++ (0 : BitVec 9)) &&& ((0 : BitVec 7) ++ a) = 0 := by
    rw [BitVec.and_append]
    simp
  rw [hwide, BitVec.add_eq_or_of_and_eq_zero _ _ hdisjoint, BitVec.or_append, Fields.word]
  simp

theorem encode_rdnw (i : NodeIx) : encode (.rdnw i) = 0xA600 + i.setWidth 16 := word_eq_add 0xA 3 i

theorem encode_rdnl (i : NodeIx) : encode (.rdnl i) = 0xA800 + i.setWidth 16 := word_eq_add 0xA 4 i

/-! ## `CLR` and `FAIL` (R210, R211) -/

/-- Settles O43: field by field, the state after the two aborts and the reset of the engine; CODE is what reset leaves
there. -/
theorem clrEffect : Obligations.ClrEffect := by
  refine ⟨decode_ok_iff.2 rfl, fun s => ⟨State.reset.code, Did.clr.exec_eq.trans (congrArg _ ?_)⟩⟩
  apply State.ext <;> simp

theorem unlessFault_refused {k : Outcome} (he : s.err ≠ none) :
    unlessFault s k = .next { s with rsp := s.rsp ++ [faultedWord] } := by
  rw [unlessFault_some he, respond_faulted]

theorem exec_fail (he : s.err = none) (k : Bool) :
    exec (.fail k) s = .next (afterError (if k then .sinkUnavailable else .sourceUnavailable) s) := by
  rw [← raise_eq_afterError]
  exact unlessFault_none he

/-- Settles O46: out of fault `FAIL` has no check, so it raises its error in every phase. -/
theorem failRaises : Obligations.FailRaises :=
  ⟨decode_ok_iff.2 rfl, decode_ok_iff.2 rfl, fun _ =>
    ⟨fun he => ⟨exec_fail he false, exec_fail he true⟩, fun he _ => unlessFault_refused he⟩⟩

/-! ## `RDS` (R212, R34) -/

theorem getLsbD_append_ofBool {n : Nat} (a : BitVec n) (b : Bool) : (a ++ BitVec.ofBool b).getLsbD 0 = b := by
  rw [BitVec.getLsbD_append, if_pos Nat.one_pos, BitVec.getLsbD_ofBool, decide_eq_true rfl, Bool.true_and]

/-- Each field of STATUS is the lowest one once the fields that R34 writes to its right are cut off. -/
theorem statusWord_fields (s : State) :
    (statusWord s).extractLsb' 0 2 = s.phase.code ∧ (statusWord s).getLsbD 2 = s.encOpen ∧
    (statusWord s).getLsbD 3 = s.decOpen ∧ (statusWord s).extractLsb' 4 4 = errCode s.err ∧
    (statusWord s).extractLsb' 8 9 = s.nleaf ∧ (statusWord s).extractLsb' 17 9 = s.root ∧
    (statusWord s).extractLsb' 26 9 = s.cur ∧ (statusWord s).extractLsb' 35 5 = 0 := by
  rw [statusWord]
  refine ⟨extractLsb'_append_low _ _, ?enc, ?dec, ?err, ?nleaf, ?root, ?cur, ?zeros⟩
  case enc | dec =>
    repeat rw [BitVec.getLsbD_append, if_neg (by decide)]
    exact getLsbD_append_ofBool _ _
  case err | nleaf | root | cur =>
    repeat rw [BitVec.extractLsb'_append_eq_of_le (by decide)]
    exact extractLsb'_append_low _ _
  case zeros =>
    repeat rw [BitVec.extractLsb'_append_eq_of_le (by decide)]
    exact BitVec.extractLsb'_eq_self

/-- Settles O47: `RDS` passes no check, and answers STATUS. -/
theorem rdsReadsStatus : Obligations.RdsReadsStatus :=
  ⟨decode_ok_iff.2 rfl, fun s => ⟨statusWord s, Did.rds.exec_eq, statusWord_fields s⟩⟩

/-! ## `RDF` and `RDL` (R213, R214) -/

theorem exec_rdf (he : s.err = none) :
    exec (.rdf y) s = .next { s with rsp := s.rsp ++ [okWord ((0 : BitVec 8) ++ countOf s.freq y)] } := by
  rw [← count_data]
  exact (Did.rdf he).exec_eq

theorem exec_rdl_ready (he : s.err = none) (hp : s.phase = .ready) : exec (.rdl y) s =
    .next { s with rsp := s.rsp ++ [okWord ((0 : BitVec 32) ++ codeLen (getCode s y))] } := by
  rw [(Did.rdl he).exec_eq, if_pos (inReady_iff.2 hp), length_data, respond_ok]

theorem exec_rdl_not_ready (he : s.err = none) (hp : s.phase ≠ .ready) :
    exec (.rdl y) s = .next { s with rsp := s.rsp ++ [okWord 0] } := by
  rw [(Did.rdl he).exec_eq, if_neg (mt inReady_iff.1 hp), respond_ok]

/-- Settles O48: out of fault `RDF` reads its counter in every phase; `RDL` looks at the phase. -/
theorem rdfRdlEffect : Obligations.RdfRdlEffect :=
  ⟨fun y => ⟨decode_ok_iff.2 (encode_rdf y), decode_ok_iff.2 (encode_rdl y)⟩, fun _ _ =>
    ⟨exec_rdf, exec_rdl_ready, exec_rdl_not_ready,
      fun he => ⟨unlessFault_refused he, unlessFault_refused he⟩⟩⟩

/-! ## `RDNW` and `RDNL` (R215, R216) -/

theorem readableNode_of_valid (hp : s.phase ≠ .count) (hi : i.toNat ≤ 2 * s.nleaf.toNat - 2) :
    readableNode s i = s.nodes[i.toNat]? := if_pos ⟨hp, hi⟩

theorem readableNode_of_not_valid (h : s.phase = .count ∨ 2 * s.nleaf.toNat - 2 < i.toNat) :
    readableNode s i = none :=
  if_neg fun ⟨hp, hi⟩ => h.elim hp (not_lt.2 hi)

theorem exec_rdnw {a : Option Node} (he : s.err = none) (ha : readableNode s i = a) :
    exec (.rdnw i) s = .next { s with rsp := s.rsp ++ [okWord ((a.map Node.weight).getD 0)] } := by
  rw [(Did.rdnw he).exec_eq, ha, respond_ok]

theorem exec_rdnl {a : Option Node} (he : s.err = none) (ha : readableNode s i = a) :
    exec (.rdnl i) s = .next { s with rsp := s.rsp ++ [okWord (linksData a)] } := by
  rw [(Did.rdnl he).exec_eq, ha, respond_ok]

theorem exec_read_of_not_readable (he : s.err = none) (hnone : readableNode s i = none) :
    exec (.rdnw i) s = .next { s with rsp := s.rsp ++ [okWord 0] } ∧
    exec (.rdnl i) s = .next { s with rsp := s.rsp ++ [okWord 0] } :=
  ⟨exec_rdnw (a := none) he hnone, exec_rdnl (a := none) he hnone⟩

/-- Every node weighs at least 1: a leaf weighs the count of a counted symbol, and an internal node at least what its
left child weighs, which stands before it (R41 items 4 and 5). -/
theorem TreeOver.one_le_weight {freq : Vector Count 256} {nodes : List Node} {n : Nat} (h : TreeOver freq nodes n)
    {i : Nat} {a : Node} (hi : nodes[i]? = some a) : 1 ≤ a.weight.toNat := by
  induction i using Nat.strong_induction_on generalizing a with
  | _ i ih =>
    cases a with
    | leaf y w =>
      obtain ⟨-, hcount, rfl⟩ := h.leaf_counted hi
      rw [Node.weight_leaf, BitVec.toNat_setWidth_of_le (by decide)]
      exact Nat.one_le_iff_ne_zero.2 fun hzero => hcount (BitVec.eq_of_toNat_eq hzero)
    | internal w l r =>
      obtain ⟨v, l', r', b, c, hn, hl, -, -, hb, -, hsum⟩ :=
        h.internal i (h.internal_ge hi) (List.getElem?_eq_some_iff.1 hi).1
      obtain ⟨rfl, rfl, rfl⟩ : w = v ∧ l = l' ∧ r = r' := by simpa using hi.symm.trans hn
      have hchild : 1 ≤ b.weight.toNat := ih l.toNat hl hb
      rw [Node.weight_internal]
      omega

namespace Inv

/-- 511 names no valid node: a tree of at most 256 leaves ends at 510 (R41 item 3). -/
theorem readableNode_511 (h : Inv s) : readableNode s 511 = none := by
  refine readableNode_of_not_valid (or_iff_not_imp_left.2 fun hp => ?_)
  have := (h.tree hp).le_nsym
  change 2 * s.nleaf.toNat - 2 < 511
  omega

/-- A valid index names a node of the tree (R41 item 3). -/
theorem exists_readableNode (h : Inv s) (hp : s.phase ≠ .count) (hi : i.toNat ≤ 2 * s.nleaf.toNat - 2) :
    ∃ a : Node, readableNode s i = some a ∧ 1 ≤ a.weight.toNat := by
  have htree := h.tree hp
  have hlt : i.toNat < s.nodes.length := by
    have := htree.length_eq
    have := htree.one_le
    omega
  have ha := List.getElem?_eq_getElem hlt
  exact ⟨_, (readableNode_of_valid hp hi).trans ha, htree.one_le_weight ha⟩

end Inv

/-- Settles O49: both commands read one entry of NODE, which in a state that meets R41 is a node of the tree. -/
theorem rdnwRdnlEffect : Obligations.RdnwRdnlEffect := by
  refine ⟨fun i => ⟨decode_ok_iff.2 (encode_rdnw i), decode_ok_iff.2 (encode_rdnl i)⟩,
    fun i s he => ⟨unlessFault_refused he, unlessFault_refused he⟩, fun s h he => ?_, fun i s he =>
    ⟨fun hi => exec_read_of_not_readable he (readableNode_of_not_valid hi), fun hp hi =>
      ⟨fun y w hleaf => ?_, fun w l r hinternal => ?_⟩⟩⟩
  · obtain ⟨hrdnw, hrdnl⟩ := exec_read_of_not_readable he h.readableNode_511
    refine ⟨hrdnw, hrdnl, fun i hp hi => ?_⟩
    obtain ⟨a, ha, hweight⟩ := h.exists_readableNode hp hi
    exact ⟨a.weight, hweight, exec_rdnw (a := some a) he ha⟩
  · have ha := (readableNode_of_valid hp hi).trans hleaf
    rw [exec_rdnw he ha, exec_rdnl he ha, linksData_leaf]
    exact ⟨rfl, rfl⟩
  · have ha := (readableNode_of_valid hp hi).trans hinternal
    rw [exec_rdnw he ha, exec_rdnl he ha, linksData_internal]
    exact ⟨rfl, rfl⟩

end Sys2Proof.Machine

/-!
PROOFS. Exceptions (spec/60_exceptions.md): fault entry and the refusal in fault (R244, R245), the table of errors by
command and phase (R241), precise faults (R248), and the partial output that the host discards (R252).
-/

namespace Sys2Proof.Machine

variable {s t : State} {i : Instr} {w : Word}

/-! ## Fault entry and the refusal in fault (R244, R245) -/

/-- Settles O13: the two writings of R244, the machine's and the list, agree field by field. -/
theorem faultEntry : Obligations.FaultEntry := raise_eq_afterError

/-- In fault every command but `CLR` and `RDS` stops at step 3 of R243, before its own checks. -/
theorem exec_refused (he : s.err ≠ none) (hclr : i ≠ .clr) (hrds : i ≠ .rds) :
    exec i s = .next { s with rsp := s.rsp ++ [faultedWord] } := by
  cases i with
  | clr => exact absurd rfl hclr
  | rds => exact absurd rfl hrds
  | cnt _ | bld | gen | enc _ | encend | dec _ | decend | fail _ | rdf _ | rdl _ | rdnw _ | rdnl _ =>
    exact unlessFault_refused he

/-- Settles O14: a word in fault is an illegal word or a command, and neither passes step 3 of R243. -/
theorem faultRefusesEveryWord : Obligations.FaultRefusesEveryWord := by
  intro w s he hclr hrds
  cases hw : decode w with
  | error r => exact runWord_illegal_in_fault hw he
  | ok i =>
    rw [runWord_of_ok hw]
    exact exec_refused he (fun hi => hclr (hi ▸ hw)) (fun hi => hrds (hi ▸ hw))

/-! ## The table of errors (R241) -/

section Checks

variable {p q : Prop} [Decidable p] [Decidable q] {a b e : ErrorKind}

/-- A phase check alone, as `tableError` writes it. -/
theorem phaseCheck_eq_some (h : (if p then some a else none) = some e) : p ∧ a = e :=
  (Option.ite_none_right_eq_some.1 h).imp_right Option.some.inj

/-- A phase check with the command's own check behind it, in the order of R243. -/
theorem ownCheck_eq_some (h : (if p then some a else if q then some b else none) = some e) :
    (p ∧ a = e) ∨ (¬ p ∧ q ∧ b = e) := by
  split_ifs at h with hp hq
  · exact .inl ⟨hp, Option.some.inj h⟩
  · exact .inr ⟨hp, hq, Option.some.inj h⟩

theorem phaseCheck_eq_none (h : (if p then some a else none) = none) : ¬ p :=
  fun hp => nomatch ite_eq_right_iff.1 h hp

theorem ownCheck_eq_none (h : (if p then some a else if q then some b else none) = none) : ¬ p ∧ ¬ q := by
  split_ifs at h with hp hq
  exact ⟨hp, hq⟩

end Checks

/-- The own check of `CNT`, which the table makes on numbers and the machine on words (R122). -/
theorem toNat_countOf_eq_max_iff (y : Sym) (s : State) :
    (countOf s.freq y).toNat = 2 ^ 32 - 1 ↔ countOf s.freq y = Config.freqMax Config.freqW := by
  rw [← BitVec.toNat_inj, toNat_freqMax (w := Config.freqW) le_rfl, Config.freqW]

/-- A command in a cell with an error stops at the check of R243 that raises it. -/
theorem exec_of_tableError {e : ErrorKind} (he : s.err = none) (h : tableError i s = some e) :
    exec i s = .next (afterError e s) := by
  cases i with
  | clr | rds | rdf _ | rdl _ | rdnw _ | rdnl _ => exact nomatch h
  | fail k => cases k <;> exact Option.some.inj h ▸ exec_fail he _
  | cnt y =>
    obtain ⟨hp, rfl⟩ | ⟨hp, hfull, rfl⟩ := ownCheck_eq_some h
    · exact countCommand_of_not_count he hp
    · exact countCommand_of_full he (not_not.1 hp) ((toNat_countOf_eq_max_iff y s).1 hfull)
  | bld =>
    obtain ⟨hp, rfl⟩ | ⟨hp, hzero, rfl⟩ := ownCheck_eq_some h
    · exact front_badPhase he (Bool.eq_false_iff.2 (mt inCount_iff.1 hp))
    · exact bldEmptyAlphabet s he (not_not.1 hp) hzero
  | gen =>
    obtain ⟨hp, rfl⟩ := phaseCheck_eq_some h
    exact front_badPhase he (Bool.eq_false_iff.2 (mt inTree_iff.1 hp))
  | enc y =>
    obtain ⟨hp, rfl⟩ | ⟨hp, hcode, rfl⟩ := ownCheck_eq_some h
    · exact front_badPhase he (inReady_eq_false hp)
    · exact exec_enc_of_no_code he (not_not.1 hp) hcode
  | encend =>
    obtain ⟨hp, rfl⟩ := phaseCheck_eq_some h
    exact front_badPhase he (inReady_eq_false hp)
  | dec b =>
    obtain ⟨hp, rfl⟩ := phaseCheck_eq_some h
    exact front_badPhase he (hasTree_eq_false hp)
  | decend =>
    obtain ⟨hp, rfl⟩ | ⟨hp, hcur, rfl⟩ := ownCheck_eq_some h
    · exact front_badPhase he (hasTree_eq_false hp)
    · exact exec_decend_inside he hp hcur

/-- A command has one outcome. -/
theorem Did.of_exec {u : State} (hdid : Did s i u) (h : exec i s = .next t) : Did s i t :=
  Host.Outcome.next.inj (hdid.exec_eq.symm.trans h) ▸ hdid

/-- Out of fault and in phase a command is not turned away. -/
theorem not_turned {ok : Bool} (he : s.err = none) (hok : ok = true) : ¬ Turned ok s t := by
  rintro (⟨hf, -⟩ | ⟨-, hout, -⟩)
  · exact hf he
  · exact Bool.false_ne_true (hout.symm.trans hok)

/-- A command in a cell without an error passes every check, so that, if it goes on, it did what it is for. -/
theorem did_of_tableError_none (he : s.err = none) (hnone : tableError i s = none) (h : exec i s = .next t) :
    Did s i t := by
  cases i with
  | clr => exact Did.clr.of_exec h
  | rds => exact Did.rds.of_exec h
  | rdf y => exact (Did.rdf he).of_exec h
  | rdl y => exact (Did.rdl he).of_exec h
  | rdnw k => exact (Did.rdnw he).of_exec h
  | rdnl k => exact (Did.rdnl he).of_exec h
  | fail k => cases k <;> exact nomatch hnone
  | cnt y =>
    obtain ⟨hp, hfull⟩ := ownCheck_eq_none hnone
    exact (Did.cnt he (not_not.1 hp) (mt (toNat_countOf_eq_max_iff y s).2 hfull)).of_exec h
  | bld =>
    obtain ⟨hp, hcounted⟩ := ownCheck_eq_none hnone
    exact (Did.bld he (not_not.1 hp) (mt (leafScan_eq_nil_iff s.freq).1 hcounted)).of_exec h
  | gen =>
    have hp := phaseCheck_eq_none hnone
    obtain hturned | ⟨-, hp', es, hes, rfl⟩ := execGen_next h
    · exact absurd hturned (not_turned he (inTree_iff.2 (not_not.1 hp)))
    · exact .gen he hp' hes
  | enc y =>
    obtain ⟨hp, hcode⟩ := ownCheck_eq_none hnone
    exact (Did.enc he (not_not.1 hp) hcode).of_exec h
  | encend => exact (Did.encend he (not_not.1 (phaseCheck_eq_none hnone))).of_exec h
  | dec b =>
    have hp := phaseCheck_eq_none hnone
    obtain hturned | ⟨-, -, hn, y, v, hr, rfl⟩ | ⟨-, -, hn, v, l, r, hc, hchild⟩ := execDec_next h
    · exact absurd hturned (not_turned he (hasTree_iff.2 hp))
    · exact .decSingle he hp hn hr
    · obtain ⟨y, v', hv, rfl⟩ | ⟨v', l', r', hv, rfl⟩ := hchild
      · exact .decLeaf he hp hn hc hv
      · exact .decInside he hp hn hc hv
  | decend =>
    obtain ⟨hp, hcur⟩ := ownCheck_eq_none hnone
    exact (Did.decend he hp (not_not.1 hcur)).of_exec h

/-- Settles O15: a cell with an error is a check that stops the command, and past all checks the command does what it
is for; in fault step 3 of R243 stops every word but `CLR` and `RDS`. -/
theorem errorTable : Obligations.ErrorTable := by
  refine ⟨fun w r s hw => ⟨runWord_illegal hw, runWord_illegal_in_fault hw⟩, fun i s =>
    ⟨fun he e => exec_of_tableError he, fun he hnone t h => ?_, exec_refused, fun _ hi => ?_⟩⟩
  · have hdid := did_of_tableError_none he hnone h
    refine ⟨?_, hdid.rsp_eq⟩
    obtain ⟨-, ht⟩ | ⟨-, ht⟩ := hdid.err_eq
    · exact ht
    · exact ht.trans he
  · obtain ⟨t, hdid⟩ : ∃ t, Did s i t := by
      obtain rfl | rfl := hi
      · exact ⟨_, .clr⟩
      · exact ⟨_, .rds⟩
    obtain ⟨d, hd⟩ := hdid.rsp_eq
    exact ⟨t, d, hdid.exec_eq, hd⟩

/-! ## Precise faults (R248) -/

/-- Settles O16: a word that goes on is refused in fault, or raises an error, or runs its command, which answers OK. -/
theorem faultsArePrecise : Obligations.FaultsArePrecise := by
  intro w s t h
  obtain ⟨he, -, -, rfl⟩ | ⟨he, e, rfl⟩ | ⟨i, -, hdid⟩ := word_next h
  · exact .inr (.inr ⟨he, respond_faulted s⟩)
  · exact .inr (.inl ⟨e, he, raise_eq_afterError e s⟩)
  · exact .inl hdid.rsp_eq

/-! ## Partial output (R252) -/

/-- The beats of fault entry from `s` to `t`: an open session gets its `ABORT`, and nothing else is emitted (R244). -/
structure AbortsOpen (s t : State) : Prop where
  bitOut : t.bitOut = s.bitOut ++ if s.encOpen then [abortBitWord] else []
  symOut : t.symOut = s.symOut ++ if s.decOpen then [abortSymWord] else []

theorem raise_abortsOpen (e : ErrorKind) (s : State) : AbortsOpen s (raise e s) :=
  ⟨raise_bitOut s e, raise_symOut s e⟩

/-- In fault no session is open, so a word that emits no beat aborts what is open (R41 item 9). -/
theorem Inv.abortsOpen_of_silent (h : Inv s) (he : s.err ≠ none) (hbit : t.bitOut = s.bitOut)
    (hsym : t.symOut = s.symOut) : AbortsOpen s t := by
  obtain ⟨henc, hdec⟩ := h.fault_closed he
  exact ⟨by simp [hbit, henc], by simp [hsym, hdec]⟩

/-- A word that leaves the engine in fault aborts the open sessions and emits no other beat. -/
theorem Inv.abortsOpen_of_fault (h : Inv s) (hw : runWord w s = .next t) (ht : t.err ≠ none) : AbortsOpen s t := by
  obtain ⟨he, -, -, rfl⟩ | ⟨-, e, rfl⟩ | ⟨i, -, hdid⟩ := word_next hw
  · exact h.abortsOpen_of_silent he rfl rfl
  · exact raise_abortsOpen e s
  · cases hdid with
    | clr => exact absurd rfl ht
    | rds => exact h.abortsOpen_of_silent ht rfl rfl
    | cnt he _ _ | bld he _ _ | gen he _ _ | enc he _ _ | encend he _ | decSingle he _ _ _ | decLeaf he _ _ _ _
    | decInside he _ _ _ _ | decend he _ _ | rdf he | rdl he | rdnw he | rdnl he => exact absurd he ht

/-- Where BITOUT ends with no bit, no bit is pending. -/
theorem readBits_nothing_pending {l : List BitWord}
    (h : ∀ b, l.getLast? = some b → ¬ (b = bitWord false ∨ b = bitWord true)) : (readBits [] l).2 = [] := by
  obtain rfl | ⟨l, b, rfl⟩ := List.eq_nil_or_concat' l
  · rfl
  · rw [readBits_append]
    have hb := h b List.getLast?_concat
    rw [← bitBeat_word_ofWord b] at hb
    cases hx : BitBeat.ofWord b with
    | bit v =>
      rw [hx, bit_word] at hb
      cases v with
      | false => exact absurd (.inl rfl) hb
      | true => exact absurd (.inr rfl) hb
    | close | abort => simp [readBits, hx]

theorem readBits_abort (l : List BitWord) : readBits [] (l ++ [abortBitWord]) = ((readBits [] l).1, []) := by
  rw [readBits_append]
  exact congrArg (·, _) (List.append_nil _)

/-- Where SYMOUT ends with no symbol, no symbol is pending but those of before, where SYMOUT is empty. -/
theorem readSymbols_nothing_pending {l : List SymWord} {before pending : List Sym} {done : List (List Sym)}
    (h : readSymbols before l = some (done, pending)) (hl : ∀ y, l.getLast? ≠ some (symWord y)) :
    pending = [] ∨ l = [] ∧ pending = before := by
  induction l generalizing before done with
  | nil => exact .inr ⟨rfl, (Prod.mk.inj (Option.some.inj h)).2.symm⟩
  | cons x rest ih =>
    have hrest : ∀ y, rest.getLast? ≠ some (symWord y) := fun y hy => hl y (by simp [List.getLast?_cons, hy])
    left
    cases hx : SymBeat.ofWord x with
    | none => simp [readSymbols, hx] at h
    | some beat =>
      cases beat with
      | sym v =>
        simp only [readSymbols, hx] at h
        refine (ih h hrest).resolve_right fun ⟨hnil, _⟩ => hl v ?_
        rw [hnil, List.getLast?_singleton, ← symBeat_word_of_ofWord hx, sym_word]
      | finish =>
        simp only [readSymbols, hx, Option.map_eq_some_iff, Prod.mk.injEq] at h
        obtain ⟨⟨done', pending'⟩, h, -, rfl⟩ := h
        exact (ih h hrest).elim id And.right
      | abort =>
        simp only [readSymbols, hx] at h
        exact (ih h hrest).elim id And.right

theorem readSymbols_abort {l : List SymWord} {done : List (List Sym)} {pending : List Sym}
    (h : readSymbols [] l = some (done, pending)) : readSymbols [] (l ++ [abortSymWord]) = some (done, []) := by
  rw [readSymbols_append _ h]
  exact congrArg (fun d => some (d, _)) (List.append_nil _)

namespace Sessions

/-- What the sink reads after an open serializer session is aborted; with no session open BITOUT ends with no bit
(R32). -/
theorem readBits_aborted (h : Sessions s) :
    readBits [] (s.bitOut ++ if s.encOpen then [abortBitWord] else []) = ((readBits [] s.bitOut).1, []) := by
  cases ho : s.encOpen with
  | true => exact readBits_abort s.bitOut
  | false =>
    have hpending := readBits_nothing_pending fun b hb => mt (h.enc_flag b hb).2 (Bool.eq_false_iff.1 ho)
    exact (congrArg _ (List.append_nil _)).trans (Prod.ext rfl hpending)

/-- What the consumer reads after an open deserializer session is aborted; with no session open SYMOUT ends with no
symbol (R33). -/
theorem readSymbols_aborted (h : Sessions s) {done : List (List Sym)} {pending : List Sym}
    (hread : readSymbols [] s.symOut = some (done, pending)) :
    readSymbols [] (s.symOut ++ if s.decOpen then [abortSymWord] else []) = some (done, []) := by
  cases ho : s.decOpen with
  | true => exact readSymbols_abort hread
  | false =>
    have hpending := readSymbols_nothing_pending hread fun y hy => Bool.eq_false_iff.1 ho (h.dec_flag y hy)
    obtain rfl : pending = [] := hpending.elim id And.right
    exact (congrArg _ (List.append_nil _)).trans hread

end Sessions

/-- Settles O58: what leaves the engine in fault adds an abort where a session is open, and where none is open nothing
was pending. -/
theorem partialOutputIsDiscarded : Obligations.PartialOutputIsDiscarded := by
  intro w s t hinv hsessions hw ht
  obtain ⟨hbit, hsym⟩ := hinv.abortsOpen_of_fault hw ht
  rw [hbit, hsym]
  exact ⟨hsessions.readBits_aborted, fun done pending => hsessions.readSymbols_aborted⟩

end Sys2Proof.Machine

/-!
PROOFS. Reset and hazards (spec/70_reset_and_hazards.md): `CLR` leaves the engine as reset does (R281), and in a state
that meets R41 every command word completes (R296), since what `GEN` and `DEC` read is there (R193).
-/

namespace Sys2Proof.Machine

variable {s : State} {i : NodeIx}

/-! ## `CLR` and reset (R281) -/

/-- Settles O45: all that `CLR` keeps of the state before it is in the channels, to which it appends. -/
theorem clearAndResetCompared : Obligations.ClearAndResetCompared := by
  intro s t h
  obtain rfl := execClr_next h
  obtain ⟨⟨q, hrsp⟩, ⟨bs, hbit⟩, ⟨ys, hsym⟩, hcmd⟩ := (Did.clr (s := s)).answersOnce
  exact ⟨rfl, hcmd, ⟨_, hrsp.symm⟩, ⟨_, hbit.symm⟩, ⟨_, hsym.symm⟩⟩

/-! ## Outcomes that complete (R243) -/

/-- The outcome is a next state: no fault of the model and no refusal (R296). -/
def Completes (o : Outcome) : Prop := ∃ t : State, o = .next t

namespace Completes

variable {k k' : Outcome}

theorem next (t : State) : Completes (.next t) := ⟨t, rfl⟩

theorem ite {p : Prop} [Decidable p] (hk : Completes k) (hk' : Completes k') : Completes (if p then k else k') := by
  split
  · exact hk
  · exact hk'

theorem of_unlessFault (hk : Completes k) : Completes (unlessFault s k) := ite (next _) hk

/-- The front part of a command with a phase (R243): the command itself is reached in that phase only. -/
theorem front {ok : Bool} (hk : ok = true → Completes k) : Completes (unlessFault s (inPhase ok s k)) := by
  refine of_unlessFault ?_
  cases ok with
  | false => exact next _
  | true => exact hk rfl

end Completes

/-! ## What `DEC` reads (R190, R193) -/

/-- Both children of an internal node are valid nodes (R41 item 5). -/
theorem TreeOver.exists_child {freq : Vector Count 256} {nodes : List Node} {n : Nat} (h : TreeOver freq nodes n)
    {w : Weight} {l r : NodeIx} (hi : nodeAt nodes i = some (.internal w l r)) (b : Bool) :
    ∃ a : Node, nodeAt nodes (if b then r else l) = some a := by
  obtain ⟨hchild, hparent⟩ := h.child_lt (b := b) ⟨w, l, r, hi, rfl⟩
  exact ⟨_, List.getElem?_eq_getElem (hchild.trans hparent)⟩

namespace Inv

/-- The root of a tree of one leaf is the leaf (R41 items 4 and 8). -/
theorem root_leaf_of_single (h : Inv s) (hp : s.phase ≠ .count) (hone : s.nleaf = 1) :
    ∃ (y : Sym) (w : Weight), nodeAt s.nodes s.root = some (.leaf y w) := by
  obtain ⟨y, hy, -⟩ := (h.tree hp).leaf 0 (h.tree hp).one_le
  rw [(h.cursor_single hone).2]
  exact ⟨y, _, hy⟩

/-- The root of a tree of two leaves or more is an internal node (R41 items 3 and 5). -/
theorem root_internal (h : Inv s) (hp : s.phase ≠ .count) (hn : s.nleaf ≠ 1) :
    ∃ (w : Weight) (l r : NodeIx), nodeAt s.nodes s.root = some (.internal w l r) := by
  have htree := h.tree hp
  have htwo : s.nleaf.toNat ≠ 1 := fun hone => hn (BitVec.eq_of_toNat_eq hone)
  have hone := htree.one_le
  have hroot := h.root_eq hp
  have hlen := h.root_succ hp
  obtain ⟨w, l, r, -, -, hr, -⟩ := htree.internal s.root.toNat (by omega) (by omega)
  exact ⟨w, l, r, hr⟩

/-- With two leaves or more the cursor is at an internal node (R41 item 8). -/
theorem cursor_internal (h : Inv s) (hp : s.phase ≠ .count) (hn : s.nleaf ≠ 1) :
    ∃ (w : Weight) (l r : NodeIx), nodeAt s.nodes s.cur = some (.internal w l r) := by
  obtain hc | hc := h.cursor hp
  · exact hc ▸ h.root_internal hp hn
  · exact hc

/-- `DEC` finds the single leaf at the root, or an internal node at the cursor and a node at either child of it. -/
theorem decodeBit_completes (h : Inv s) (hp : s.phase ≠ .count) (b : Bool) : Completes (decodeBit b s) := by
  by_cases hn : s.nleaf = 1
  · obtain ⟨y, w, hr⟩ := h.root_leaf_of_single hp hn
    exact ⟨_, decodeBit_single b hn hr⟩
  · obtain ⟨w, l, r, hc⟩ := h.cursor_internal hp hn
    obtain ⟨a, ha⟩ := (h.tree hp).exists_child hc b
    cases a with
    | leaf y v => exact ⟨_, decodeBit_leaf hn hc ha⟩
    | internal v l' r' => exact ⟨_, decodeBit_inside hn hc ha⟩

/-- `GEN` finds a tree, on which its walk ends (R161). -/
theorem generateCodes_completes (h : Inv s) (hp : s.phase ≠ .count) : Completes (generateCodes s) := by
  obtain ⟨es, hes⟩ := h.exists_codeEntries hp
  exact ⟨_, by rw [generateCodes, hes]⟩

/-! ## Every command completes (R296) -/

/-- Only `GEN` and `DEC` have fault branches, and a state that meets R41 is out of both. -/
theorem exec_completes (h : Inv s) (i : Instr) : Completes (exec i s) := by
  cases i with
  | clr | rds => exact .next _
  | fail _ | rdf _ | rdl _ | rdnw _ | rdnl _ => exact .of_unlessFault (.next _)
  | cnt _ | bld | enc _ | decend => exact .front fun _ => .ite (.next _) (.next _)
  | encend => exact .front fun _ => .next _
  | gen => exact .front fun hp => h.generateCodes_completes (by simp [inTree_iff.1 hp])
  | dec b => exact .front fun hp => h.decodeBit_completes (hasTree_iff.1 hp) b

end Inv

/-- Settles O59: an illegal word raises its error or is refused, and a legal one runs its command. -/
theorem invariantStatesNeverStop : Obligations.InvariantStatesNeverStop := by
  intro w s h
  cases hw : decode w with
  | error r =>
    by_cases he : s.err = none
    · exact ⟨_, runWord_illegal hw he⟩
    · exact ⟨_, runWord_illegal_in_fault hw he⟩
  | ok i =>
    rw [runWord_of_ok hw]
    exact h.exec_completes i

end Sys2Proof.Machine
